-- ==== Sys2Proof/Word.lean ====
section
/-!
DEFINITION. Bytes and the byte constants that 00_scope.md and 30_encoding.md fix. Words of other widths are
naturals below `2 ^ W` (00_scope.md R16).
-/

namespace Sys2Proof

/-- A word of width 8 (00_scope.md R16). -/
abbrev Byte := BitVec 8

/-- The terminator `'!'` that ends every frame (30_encoding.md R74). -/
abbrev terminator : Byte := 0x21#8

/-- The field separator `','` (30_encoding.md R90). -/
abbrev separator : Byte := 0x2C#8

/-- `DAC_IND`, fixed at `'D'` (00_scope.md R11). -/
abbrev dacInd : Byte := 0x44#8

end Sys2Proof
end

