-- ==== Sys2Proof/Syntax.lean ====
section
/-!
DEFINITION. The syntax: enumerations and operand kinds, the request port's requests, the wire frames, and the one
inductive `Instr` with a constructor for each row of spec/opcode_table.json.
-/

namespace Sys2Proof

/-- 10_state.md R31. -/
inductive GainMode
  | x2 | x4 | x432
  deriving DecidableEq, Repr

/-- 10_state.md R31. -/
inductive PolarityMode
  | unipolar | bipolar
  deriving DecidableEq, Repr

/-- 10_state.md R31. -/
inductive DeviceAddress
  | dacA | dacB | dacBoth
  deriving DecidableEq, Repr

/-- 10_state.md R31. -/
inductive RampParameter
  | frequency | phase | amplitude
  deriving DecidableEq, Repr

/-- A number the host presents. `real q` is the number `q`; under `NUMERICS = BINARY64` it stands for the binary64
value nearest `q` (logs 9 and 10). `inf` and `nan` are the binary64 values that are not finite. -/
inductive Quantity
  | real (q : Rat)
  | inf (negative : Bool)
  | nan
  deriving DecidableEq, Repr, Inhabited

/-- One operand of a request (30_encoding.md R70): a number, a 2-bit enumeration code (R73), the 1-bit `bipolar`
operand, a byte, or a byte sequence. -/
inductive Operand
  | num (x : Quantity)
  | code (c : BitVec 2)
  | flag (b : Bool)
  | byte (b : Byte)
  | bytes (s : List Byte)
  deriving DecidableEq, Repr

/-- A request: a 4-bit operation code and the operand record it takes, in the order of 30_encoding.md R71 (log 8). -/
structure Request where
  op : BitVec 4
  operands : List Operand
  deriving DecidableEq, Repr

/-- What the environment hands the block to perform: a request (10_state.md R24), or one whole wire frame for the
parser (log 6). -/
inductive Submission
  | request (r : Request)
  | wire (bytes : List Byte)
  deriving DecidableEq, Repr

/-- What the environment presents next: a submission, or the reset input (70_reset_and_hazards.md R272). -/
inductive Input
  | submit (x : Submission)
  | reset
  deriving DecidableEq, Repr

/-- One constructor per row of spec/opcode_table.json. The twelve requests carry their operands in the order of
30_encoding.md R71; a wire frame carries the bytes that follow the header of its row (R97). -/
inductive Instr
  | codecEncode (value fs n t : Quantity) (bipolar : Bool)
  | codecDecode (word fs n t : Quantity) (bipolar : Bool)
  | dacInit (gain polarity : BitVec 2)
  | dacWrite (address : BitVec 2) (voltage ref : Quantity) (gain polarity : BitVec 2)
  | ddsTone (amp ampRef phase freq sysclk : Quantity)
  | ddsRamp (param : BitVec 2) (start stop dec inc negRate posRate ref : Quantity)
  | ddsLoad
  | ddsReset
  | ddsRampoff
  | frame (dev opc : Byte) (payload : List Byte)
  | parse (bytes : List Byte)
  | rx (b : Byte)
  | frameDacInit (rest : List Byte)
  | frameDacWriteText (rest : List Byte)
  | frameDacWriteBinary (rest : List Byte)
  | frameDdsTone (rest : List Byte)
  | frameDdsRampSetup (rest : List Byte)
  | frameDdsRampParams (rest : List Byte)
  | frameDdsRampDisable (rest : List Byte)
  | frameDdsLoad (rest : List Byte)
  | frameDdsReset (rest : List Byte)
  deriving DecidableEq, Repr

end Sys2Proof
end

