-- ==== Sys2Proof/Config.lean ====
section
/-!
DEFINITION. What an instance of the block fixes (10_state.md R29), the constants of 00_scope.md, and the free values
of the arithmetic that the spec leaves open.
-/

namespace Sys2Proof

/-- 00_scope.md R12. -/
inductive WireForm
  | text | binary
  deriving DecidableEq, Repr

/-- 00_scope.md R13. -/
inductive Numerics
  | exact | binary64
  deriving DecidableEq, Repr

/-- The wire code tables (00_scope.md R15), one byte a code. -/
structure CodeTable where
  unipolar : Byte
  bipolar : Byte
  x2 : Byte
  x4 : Byte
  x432 : Byte
  dacA : Byte
  dacB : Byte
  dacBoth : Byte
  opDacInit : Byte
  opDacWrite : Byte
  opTone : Byte
  opDrg : Byte
  opLoad : Byte
  opReset : Byte
  subSetup : Byte
  subParams : Byte
  subDisable : Byte
  frequency : Byte
  phase : Byte
  amplitude : Byte
  deriving DecidableEq, Repr

/-- 30_encoding.md R80 (polarity), R81 (gain), R82 (address), R83 (opcodes and sub-opcodes), R84 (ramp parameters). -/
def CodeTable.standard : CodeTable where
  unipolar := 0x75
  bipolar := 0x62
  x2 := 0x31
  x4 := 0x32
  x432 := 0x33
  dacA := 0x61
  dacB := 0x62
  dacBoth := 0x63
  opDacInit := 0x73
  opDacWrite := 0x77
  opTone := 0x70
  opDrg := 0x6F
  opLoad := 0x6C
  opReset := 0x72
  subSetup := 0x73
  subParams := 0x70
  subDisable := 0x78
  frequency := 0x66
  phase := 0x70
  amplitude := 0x61

/-- The configuration parameters that an instance may vary (10_state.md R29; log 1). -/
structure Config where
  wireForm : WireForm
  numerics : Numerics
  ddsInd : Byte
  codes : CodeTable
  deriving DecidableEq, Repr

/-- The defaults: `WIRE_FORM = TEXT` (R12), `NUMERICS = EXACT` (R13), `DDS_IND = 'd'` (R11), the tables of R80 to R84. -/
def Config.standard : Config where
  wireForm := .text
  numerics := .exact
  ddsInd := 0x64
  codes := .standard

/-- `MAX_PAYLOAD` (00_scope.md R14). -/
def maxPayload : Nat := 64

/-- `DAC_BITS` (00_scope.md R8). -/
def dacBits : Nat := 14

/-- `DAC_SLOT` (00_scope.md R8). -/
def dacSlot : Nat := 16

/-- `AMP_BITS = AMP_SLOT` (00_scope.md R9). -/
def ampBits : Nat := 14

/-- `PHASE_BITS = PHASE_SLOT` (00_scope.md R9). -/
def phaseBits : Nat := 16

/-- `FREQ_BITS = FREQ_SLOT` (00_scope.md R9). -/
def freqBits : Nat := 32

/-- DESIGN CHOICE (log 11). The raw word of `codec v fs` at `n` effective bits under BINARY64 when both `v + fs` and
`2 * fs` fall outside the binary64 format and `v` is not `fs`: the quotient of 40_codec.md R114 is then no number. -/
opaque Config.codecOverflow : (v fs : Rat) → (n : Nat) → Nat

/-- DESIGN CHOICE (log 12). The rational that DECODE returns (10_state.md R34) under BINARY64 when a product of 40_codec.md
R121 falls outside the binary64 format and the raw word is neither the least nor the greatest: none is stated there. -/
opaque Config.decodeOverflow : (raw : Nat) → (fs : Rat) → (n : Nat) → (bipolar : Bool) → Rat

end Sys2Proof
end

