-- ==== Sys2Proof/WellFormed.lean ====
section
/-!
DEFINITION. Which configurations are legal and which instructions can be presented to an instance.
-/

namespace Sys2Proof

/-- A byte that a text payload may hold: printable and not the terminator (30_encoding.md R74, 43_framer_parser.md
R204). -/
def payloadByte (b : Byte) : Bool :=
  decide (0x20#8 ≤ b) && decide (b ≤ 0x7E#8) && b != terminator

/-- Every code that a builder puts into a text payload. -/
def CodeTable.payloadCodes (c : CodeTable) : List Byte :=
  [c.unipolar, c.bipolar, c.x2, c.x4, c.x432, c.dacA, c.dacB, c.dacBoth, c.subSetup, c.subParams, c.subDisable,
    c.frequency, c.phase, c.amplitude]

/-- The opcodes, by device (30_encoding.md R83). -/
def CodeTable.dacOpcodes (c : CodeTable) : List Byte := [c.opDacInit, c.opDacWrite]

/-- The opcodes, by device (30_encoding.md R83). -/
def CodeTable.ddsOpcodes (c : CodeTable) : List Byte := [c.opTone, c.opDrg, c.opLoad, c.opReset]

/-- The tables of 00_scope.md R15: each is injective. -/
def CodeTable.injective (c : CodeTable) : Bool :=
  decide ([c.unipolar, c.bipolar].Nodup ∧ [c.x2, c.x4, c.x432].Nodup ∧ [c.dacA, c.dacB, c.dacBoth].Nodup ∧
    c.dacOpcodes.Nodup ∧ c.ddsOpcodes.Nodup ∧ [c.subSetup, c.subParams, c.subDisable].Nodup ∧
    [c.frequency, c.phase, c.amplitude].Nodup)

/-- A legal configuration: 00_scope.md R15 for the tables, 93 I3 for `DDS_IND`. That codes carried in a text payload
are printable and that `DDS_IND` is not the terminator is DEDUCED (log 15). -/
def Config.legal (cfg : Config) : Bool :=
  cfg.codes.injective && cfg.codes.payloadCodes.all payloadByte &&
    (cfg.codes.dacOpcodes ++ cfg.codes.ddsOpcodes).all (· != terminator) &&
    cfg.ddsInd != dacInd && cfg.ddsInd != terminator

/-- A number can be presented to the instance: under EXACT every operand is a rational (00_scope.md R13), so infinities
and NaN are "not expressible" (95 V-NUM-4). -/
def Quantity.expressible (m : Numerics) (x : Quantity) : Bool :=
  match m, x with
  | _, .real _ => true
  | .binary64, _ => true
  | .exact, _ => false

/-- The numeric operands of an instruction. -/
def Instr.numbers : Instr → List Quantity
  | .codecEncode value fs n t _ => [value, fs, n, t]
  | .codecDecode word fs n t _ => [word, fs, n, t]
  | .dacInit _ _ => []
  | .dacWrite _ voltage ref _ _ => [voltage, ref]
  | .ddsTone amp ampRef phase freq sysclk => [amp, ampRef, phase, freq, sysclk]
  | .ddsRamp _ start stop dec inc negRate posRate ref => [start, stop, dec, inc, negRate, posRate, ref]
  | .ddsLoad => []
  | .ddsReset => []
  | .ddsRampoff => []
  | .frame _ _ _ => []
  | .parse _ => []
  | .rx _ => []
  | .frameDacInit _ => []
  | .frameDacWriteText _ => []
  | .frameDacWriteBinary _ => []
  | .frameDdsTone _ => []
  | .frameDdsRampSetup _ => []
  | .frameDdsRampParams _ => []
  | .frameDdsRampDisable _ => []
  | .frameDdsLoad _ => []
  | .frameDdsReset _ => []

/-- The wire form in which an instruction's header is read, where its row depends on one (30_encoding.md R97). -/
def Instr.wireForm? : Instr → Option WireForm
  | .codecEncode _ _ _ _ _ => none
  | .codecDecode _ _ _ _ _ => none
  | .dacInit _ _ => none
  | .dacWrite _ _ _ _ _ => none
  | .ddsTone _ _ _ _ _ => none
  | .ddsRamp _ _ _ _ _ _ _ _ => none
  | .ddsLoad => none
  | .ddsReset => none
  | .ddsRampoff => none
  | .frame _ _ _ => none
  | .parse _ => none
  | .rx _ => none
  | .frameDacInit _ => none
  | .frameDacWriteText _ => some .text
  | .frameDacWriteBinary _ => some .binary
  | .frameDdsTone _ => none
  | .frameDdsRampSetup _ => none
  | .frameDdsRampParams _ => none
  | .frameDdsRampDisable _ => none
  | .frameDdsLoad _ => none
  | .frameDdsReset _ => none

/-- An instruction that can be presented to an instance with configuration `cfg`: its numbers are expressible, and its
row is one of the instance's wire form. -/
def Instr.wellFormed (cfg : Config) (i : Instr) : Bool :=
  i.numbers.all (Quantity.expressible cfg.numerics) &&
    (i.wireForm?.all fun w => decide (w = cfg.wireForm))

end Sys2Proof
end

