-- ==== Sys2Proof/Decode.lean ====
section
/-!
DEFINITION. From submissions to instructions and back: the operation codes of 30_encoding.md R71, the wire headers of
R97, and the numbering of spec/opcode_table.json.
-/

namespace Sys2Proof

/-- Why a submission is no instruction. -/
inductive DecodeError
  /-- A reserved operation code (30_encoding.md R72). -/
  | reservedOp (op : BitVec 4)
  /-- The operands are not the record that the operation takes (30_encoding.md R70, R71; log 8). -/
  | operandRecord (op : BitVec 4)
  deriving DecidableEq, Repr

/-- The reserved operation codes 0x0, 0xD, 0xE and 0xF (30_encoding.md R72). -/
def reservedOp (op : BitVec 4) : Bool :=
  op == 0x0#4 || op == 0xD#4 || op == 0xE#4 || op == 0xF#4

/-- 30_encoding.md R71. -/
def decodeRequest (r : Request) : Except DecodeError Instr :=
  match r.op.toNat, r.operands with
  | 0x1, [.num value, .num fs, .num n, .num t, .flag b] => .ok (.codecEncode value fs n t b)
  | 0x2, [.num word, .num fs, .num n, .num t, .flag b] => .ok (.codecDecode word fs n t b)
  | 0x3, [.code gain, .code pol] => .ok (.dacInit gain pol)
  | 0x4, [.code addr, .num v, .num ref, .code gain, .code pol] => .ok (.dacWrite addr v ref gain pol)
  | 0x5, [.num amp, .num ampRef, .num phase, .num freq, .num sysclk] =>
    .ok (.ddsTone amp ampRef phase freq sysclk)
  | 0x6, [.code param, .num start, .num stop, .num dec, .num inc, .num negRate, .num posRate, .num ref] =>
    .ok (.ddsRamp param start stop dec inc negRate posRate ref)
  | 0x7, [] => .ok .ddsLoad
  | 0x8, [] => .ok .ddsReset
  | 0x9, [] => .ok .ddsRampoff
  | 0xA, [.byte dev, .byte opc, .bytes payload] => .ok (.frame dev opc payload)
  | 0xB, [.bytes s] => .ok (.parse s)
  | 0xC, [.byte b] => .ok (.rx b)
  | _, _ => .error (if reservedOp r.op then .reservedOp r.op else .operandRecord r.op)

/-- The DDS rows of 30_encoding.md R97, for the bytes after `DDS_IND`. -/
def decodeDdsFrame (c : CodeTable) : List Byte → Option Instr
  | opc :: rest =>
    if opc = c.opTone then some (.frameDdsTone rest)
    else if opc = c.opDrg then
      match rest with
      | sub :: rest' =>
        if sub = c.subSetup then some (.frameDdsRampSetup rest')
        else if sub = c.subParams then some (.frameDdsRampParams rest')
        else if sub = c.subDisable then some (.frameDdsRampDisable rest')
        else none
      | [] => none
    else if opc = c.opLoad then
      match rest with
      | b :: rest' => if b = terminator then some (.frameDdsLoad rest') else none
      | [] => none
    else if opc = c.opReset then
      match rest with
      | b :: rest' => if b = terminator then some (.frameDdsReset rest') else none
      | [] => none
    else none
  | [] => none

/-- The DAC rows of 30_encoding.md R97, for the bytes after `'D'`. `WIRE_FORM` picks between the two write rows. -/
def decodeDacFrame (cfg : Config) : List Byte → Option Instr
  | opc :: rest =>
    if opc = cfg.codes.opDacInit then some (.frameDacInit rest)
    else if opc = cfg.codes.opDacWrite then
      match cfg.wireForm with
      | .text => some (.frameDacWriteText rest)
      | .binary => some (.frameDacWriteBinary rest)
    else none
  | [] => none

/-- The row of 30_encoding.md R97 whose header a byte sequence begins with, if there is one. -/
def decodeFrame (cfg : Config) : List Byte → Option Instr
  | dev :: rest =>
    if dev = dacInd then decodeDacFrame cfg rest
    else if dev = cfg.ddsInd then decodeDdsFrame cfg.codes rest
    else none
  | [] => none

/-- The instruction of a submission. A byte sequence that begins with no row's header is read by the parser all the
same, which raises the error that 30_encoding.md R93 names (log 6). -/
def decode (cfg : Config) : Submission → Except DecodeError Instr
  | .request r => decodeRequest r
  | .wire s => .ok ((decodeFrame cfg s).getD (.parse s))

/-- The bytes of a wire row's header: 30_encoding.md R75 to R78 and R85 to R89. -/
def Instr.header (cfg : Config) : Instr → List Byte
  | .codecEncode _ _ _ _ _ => []
  | .codecDecode _ _ _ _ _ => []
  | .dacInit _ _ => []
  | .dacWrite _ _ _ _ _ => []
  | .ddsTone _ _ _ _ _ => []
  | .ddsRamp _ _ _ _ _ _ _ _ => []
  | .ddsLoad => []
  | .ddsReset => []
  | .ddsRampoff => []
  | .frame _ _ _ => []
  | .parse _ => []
  | .rx _ => []
  | .frameDacInit _ => [dacInd, cfg.codes.opDacInit]
  | .frameDacWriteText _ => [dacInd, cfg.codes.opDacWrite]
  | .frameDacWriteBinary _ => [dacInd, cfg.codes.opDacWrite]
  | .frameDdsTone _ => [cfg.ddsInd, cfg.codes.opTone]
  | .frameDdsRampSetup _ => [cfg.ddsInd, cfg.codes.opDrg, cfg.codes.subSetup]
  | .frameDdsRampParams _ => [cfg.ddsInd, cfg.codes.opDrg, cfg.codes.subParams]
  | .frameDdsRampDisable _ => [cfg.ddsInd, cfg.codes.opDrg, cfg.codes.subDisable]
  | .frameDdsLoad _ => [cfg.ddsInd, cfg.codes.opLoad, terminator]
  | .frameDdsReset _ => [cfg.ddsInd, cfg.codes.opReset, terminator]

/-- How an instruction is presented: 30_encoding.md R71 for requests, R97 for wire frames. -/
def encode (cfg : Config) (i : Instr) : Submission :=
  match i with
  | .codecEncode value fs n t b => .request ⟨0x1, [.num value, .num fs, .num n, .num t, .flag b]⟩
  | .codecDecode word fs n t b => .request ⟨0x2, [.num word, .num fs, .num n, .num t, .flag b]⟩
  | .dacInit gain pol => .request ⟨0x3, [.code gain, .code pol]⟩
  | .dacWrite addr v ref gain pol => .request ⟨0x4, [.code addr, .num v, .num ref, .code gain, .code pol]⟩
  | .ddsTone amp ampRef phase freq sysclk =>
    .request ⟨0x5, [.num amp, .num ampRef, .num phase, .num freq, .num sysclk]⟩
  | .ddsRamp param start stop dec inc negRate posRate ref =>
    .request ⟨0x6, [.code param, .num start, .num stop, .num dec, .num inc, .num negRate, .num posRate, .num ref]⟩
  | .ddsLoad => .request ⟨0x7, []⟩
  | .ddsReset => .request ⟨0x8, []⟩
  | .ddsRampoff => .request ⟨0x9, []⟩
  | .frame dev opc payload => .request ⟨0xA, [.byte dev, .byte opc, .bytes payload]⟩
  | .parse s => .request ⟨0xB, [.bytes s]⟩
  | .rx b => .request ⟨0xC, [.byte b]⟩
  | .frameDacInit rest => .wire (i.header cfg ++ rest)
  | .frameDacWriteText rest => .wire (i.header cfg ++ rest)
  | .frameDacWriteBinary rest => .wire (i.header cfg ++ rest)
  | .frameDdsTone rest => .wire (i.header cfg ++ rest)
  | .frameDdsRampSetup rest => .wire (i.header cfg ++ rest)
  | .frameDdsRampParams rest => .wire (i.header cfg ++ rest)
  | .frameDdsRampDisable rest => .wire (i.header cfg ++ rest)
  | .frameDdsLoad rest => .wire (i.header cfg ++ rest)
  | .frameDdsReset rest => .wire (i.header cfg ++ rest)

/-- The operand record of zeros that an operation code takes (30_encoding.md R71). -/
def zeroOperands (op : BitVec 4) : List Operand :=
  let z : Operand := .num (.real 0)
  match op.toNat with
  | 0x1 => [z, z, z, z, .flag false]
  | 0x2 => [z, z, z, z, .flag false]
  | 0x3 => [.code 0, .code 0]
  | 0x4 => [.code 0, z, z, .code 0, .code 0]
  | 0x5 => [z, z, z, z, z]
  | 0x6 => [.code 0, z, z, z, z, z, z, z]
  | 0xA => [.byte 0, .byte 0, .bytes []]
  | 0xB => [.bytes []]
  | 0xC => [.byte 0]
  | _ => []

/-- How many bytes follow the header in the shortest frame of a wire row (30_encoding.md R97). -/
def Instr.shortestRest : Instr → Nat
  | .codecEncode _ _ _ _ _ => 0
  | .codecDecode _ _ _ _ _ => 0
  | .dacInit _ _ => 0
  | .dacWrite _ _ _ _ _ => 0
  | .ddsTone _ _ _ _ _ => 0
  | .ddsRamp _ _ _ _ _ _ _ _ => 0
  | .ddsLoad => 0
  | .ddsReset => 0
  | .ddsRampoff => 0
  | .frame _ _ _ => 0
  | .parse _ => 0
  | .rx _ => 0
  | .frameDacInit _ => 3
  | .frameDacWriteText _ => 3
  | .frameDacWriteBinary _ => 4
  | .frameDdsTone _ => 6
  | .frameDdsRampSetup _ => 2
  | .frameDdsRampParams _ => 13
  | .frameDdsRampDisable _ => 1
  | .frameDdsLoad _ => 0
  | .frameDdsReset _ => 0

/-- The `k` low bytes of `w`, most significant first: 30_encoding.md R97 reads a header as one big-endian number. -/
def bigEndianBytes : Nat → Nat → List Byte
  | 0, _ => []
  | k + 1, w => bigEndianBytes k (w / 256) ++ [BitVec.ofNat 8 w]

/-- The submission that stands for a row's bits as spec/opcode_table.json numbers them (log 7): up to one byte, the
4-bit operation code with operands of zeros; more, a wire header with the bytes of its shortest frame zero. -/
def tableSubmission (cfg : Config) (nbits w : Nat) : Submission :=
  if nbits ≤ 8 then .request ⟨BitVec.ofNat 4 w, zeroOperands (BitVec.ofNat 4 w)⟩
  else
    let hdr := bigEndianBytes (nbits / 8) w
    .wire (hdr ++ List.replicate ((decodeFrame cfg hdr).elim 0 Instr.shortestRest) 0#8)

/-- The instruction that the decoder reads from a row's bits, in the standard configuration (log 7). -/
def decodeTableWord (nbits w : Nat) : Option Instr :=
  match decode .standard (tableSubmission .standard nbits w) with
  | .ok i => some i
  | .error _ => none

end Sys2Proof
end

