-- ==== Sys2Proof/Machine/Result.lean ====
section
/-!
DEFINITION. What the result port carries: values, parsed commands and errors (10_state.md R33, R34;
43_framer_parser.md R207; 60_exceptions.md R240, R241).
-/

namespace Sys2Proof.Machine

open Sys2Proof

/-- The reasons of `OutOfRange` (60_exceptions.md R241). -/
inductive RangeReason
  | value | reference | width | rate | nonfinite
  deriving DecidableEq, Repr

/-- The reasons of `InvalidRampBounds` (60_exceptions.md R241). -/
inductive RampReason
  | startNotBelowStop | incrementTooLarge | decrementTooLarge
  deriving DecidableEq, Repr

/-- The reasons of `FramingError` (60_exceptions.md R241). -/
inductive FramingReason
  | badDevice | badOpcode | badPayloadByte | overlong | badTerminator | unterminated | trailing | badField
  | terminatorInPayload | badSubopcode
  deriving DecidableEq, Repr

/-- The reasons of `UnsupportedParameter` (60_exceptions.md R241). -/
inductive ParameterReason
  | polarity | address | rampParameter
  deriving DecidableEq, Repr

/-- The five error kinds, each with what it records (60_exceptions.md R240, R243). Only `FramingError` has an offset. -/
inductive Err
  | outOfRange (r : RangeReason)
  | invalidRampBounds (r : RampReason)
  | framingError (r : FramingReason) (offset : Nat)
  | unsupportedGainMode
  | unsupportedParameter (r : ParameterReason)
  deriving DecidableEq, Repr

/-- 10_state.md R33. -/
structure FixedPointWord where
  bitWidth : Nat
  slot : Nat
  value : Nat
  deriving DecidableEq, Repr

/-- The decoded forms of 43_framer_parser.md R207. -/
inductive Decoded
  | dacInit (polarity : PolarityMode) (gain : GainMode)
  | dacWrite (address : DeviceAddress) (w : Nat)
  | ddsTone (a p f : Nat)
  | rampSetup (param : RampParameter)
  | rampParams (param : RampParameter) (ws we wd wi rn rp : Nat)
  | rampDisable
  | load
  | reset
  deriving DecidableEq, Repr

/-- The parsed command of 43_framer_parser.md R207: the Command record's four fields, and the decoded form. -/
structure ParsedCommand where
  deviceIndicator : Byte
  opcode : Byte
  payload : List Byte
  terminator : Byte
  decoded : Decoded
  deriving DecidableEq, Repr

/-- The values of an `Ok` result (10_state.md R34). -/
inductive Value
  | word (w : FixedPointWord)
  | number (x : Rat)
  | bytes (s : List Byte)
  | command (c : ParsedCommand)
  | pending
  deriving DecidableEq, Repr

/-- A result (10_state.md R34). -/
inductive Result
  | ok (v : Value)
  | err (e : Err)
  deriving DecidableEq, Repr

end Sys2Proof.Machine
end

