-- ==== Sys2Proof/Machine/State.lean ====
section
/-!
DEFINITION. The state of the block (10_state.md R25, R27, R35), with the model's own fields for its ports, and why a
step can stop.
-/

namespace Sys2Proof.Machine

open Sys2Proof

/-- The states of the streaming parser (10_state.md R27). `Done` is never stored (R28). -/
inductive PState
  | expectDevice | expectOpcode | readPayload | expectTerminator | discard
  deriving DecidableEq, Repr

/-- The streaming parser's state (10_state.md R27). -/
structure Parser where
  pstate : PState
  pdev : Option Byte
  popc : Option Byte
  pbuf : List Byte
  pbin : Bool
  poff : Nat
  deriving DecidableEq, Repr

/-- The parser's reset values (10_state.md R35). -/
def Parser.reset : Parser where
  pstate := .expectDevice
  pdev := none
  popc := none
  pbuf := []
  pbin := false
  poff := 0

/-- The whole machine. `tx` and `parser` are the block's state (10_state.md R25, R27); `cfg` is the instance's
configuration, which nothing changes (R29; log 1); `inputs`, `result` and `writes` are its ports: what the environment
presents next (log 2), the last answer (log 3), and the `write(bytes)` calls made, oldest first (log 4). -/
structure State where
  tx : List Byte
  parser : Parser
  cfg : Config
  inputs : List Input
  result : Option Result
  writes : List (List Byte)
  deriving DecidableEq, Repr

/-- Why the machine faults. -/
inductive Fault
  /-- Raised where `codec` is evaluated outside its precondition (93 I6). Safe: the machine stops. No request reaches
  it (40_codec.md R117). -/
  | codecPrecondition
  /-- Raised where stage 2 of the parser has no row to apply (43_framer_parser.md R207; log 14). Safe: the machine
  stops. Stage 1 gives no such frame from a parser state that a run reaches. -/
  | noFrameRow
  deriving DecidableEq, Repr

/-- Why the machine refuses. -/
inductive Refusal
  /-- Raised by the dispatch for an instruction without a meaning. Safe: the machine stops. No arm raises it. -/
  | notModelled (mnemonic : String)
  /-- Raised by the step for a submission that is no instruction: a reserved operation code (30_encoding.md R72), or an
  operand record that is not the operation's (log 8). Safe: the machine stops. -/
  | undecodable (e : DecodeError)
  /-- Raised by a request that carries a number which is not a rational to an EXACT instance (95 V-NUM-4: "not
  expressible"; log 9). Safe: the machine stops. -/
  | inexpressibleOperand
  deriving DecidableEq, Repr

/-- The machine right after reset (10_state.md R35, 70_reset_and_hazards.md R270), in the standard configuration, with
nothing presented yet. -/
def State.reset : State where
  tx := []
  parser := .reset
  cfg := .standard
  inputs := []
  result := none
  writes := []

end Sys2Proof.Machine
end

