-- ==== Sys2Proof/Machine/Numerics.lean ====
section
/-!
DEFINITION. Rounding to binary64 and the numbers an operand stands for (00_scope.md R13, 40_codec.md R114).
-/

namespace Sys2Proof.Machine

open Sys2Proof

/-- `num / den` rounded to the nearest natural, ties to even. -/
def roundHalfEven (num den : Nat) : Nat :=
  let q := num / den
  let r := num % den
  if 2 * r < den then q
  else if den < 2 * r then q + 1
  else if q % 2 = 0 then q else q + 1

/-- `2 ^ e` as a rational. -/
def pow2 (e : Int) : Rat :=
  if 0 ≤ e then (2 ^ e.toNat : Nat) else mkRat 1 (2 ^ (-e).toNat)

/-- `floor (log2 (num / den))` for positive `num` and `den`. -/
def ilog2 (num den : Nat) : Int :=
  let e : Int := (Nat.log2 num : Int) - (Nat.log2 den : Int)
  let below : Bool := if 0 ≤ e then decide (num < den * 2 ^ e.toNat) else decide (num * 2 ^ (-e).toNat < den)
  if below then e - 1 else e

/-- The exponent of the last place of a binary64 value in the binade of `num / den`: 53 significant bits, and no finer
than `2 ^ -1074` (log 10). -/
def lastPlace (num den : Nat) : Int :=
  max (ilog2 num den - 52) (-1074)

/-- `num / den` in units of the last place, rounded to nearest even. -/
def significand (num den : Nat) : Nat :=
  let k := lastPlace num den
  if 0 ≤ k then roundHalfEven num (den * 2 ^ k.toNat) else roundHalfEven (num * 2 ^ (-k).toNat) den

/-- `fl`: rounding to the nearest binary64 value, ties to even (40_codec.md R114). `none` where the rounded value falls
outside the format's finite range. -/
def fl (q : Rat) : Option Rat :=
  let a : Rat := (significand q.num.natAbs q.den : Nat) * pow2 (lastPlace q.num.natAbs q.den)
  if q = 0 then some 0
  else if a < pow2 1024 then some (if q < 0 then -a else a)
  else none

/-- The value of one arithmetic operation whose exact result is `q`: exact, or rounded once (00_scope.md R13). -/
def rnd (m : Numerics) (q : Rat) : Option Rat :=
  match m with
  | .exact => some q
  | .binary64 => fl q

/-- The rational that an operand stands for, if it is finite (00_scope.md R13; log 10). -/
def finite? (m : Numerics) : Quantity → Option Rat
  | .real q => rnd m q
  | .inf _ => none
  | .nan => none

/-- The rationals of several operands, if every one is finite. -/
def finites? (m : Numerics) : List Quantity → Option (List Rat)
  | [] => some []
  | x :: xs =>
    match finite? m x, finites? m xs with
    | some q, some qs => some (q :: qs)
    | _, _ => none

/-- The natural number that an operand stands for, if it is one: "integer" in 40_codec.md R120, R121 and 42_dds.md
R167. -/
def natural? (m : Numerics) (x : Quantity) : Option Nat :=
  (finite? m x).bind fun q => if q.den = 1 ∧ 0 ≤ q.num then some q.num.toNat else none

end Sys2Proof.Machine
end

