-- ==== Sys2Proof/Machine/Operands.lean ====
section
/-!
DEFINITION. Operand forms: the 2-bit codes of the request port, the wire codes, and decimal fields.
-/

namespace Sys2Proof.Machine

open Sys2Proof

/-- 30_encoding.md R73. -/
def gain? (c : BitVec 2) : Option GainMode :=
  if c = 0 then some .x2 else if c = 1 then some .x4 else if c = 2 then some .x432 else none

/-- 30_encoding.md R73. -/
def polarity? (c : BitVec 2) : Option PolarityMode :=
  if c = 0 then some .unipolar else if c = 1 then some .bipolar else none

/-- 30_encoding.md R73. -/
def address? (c : BitVec 2) : Option DeviceAddress :=
  if c = 0 then some .dacA else if c = 1 then some .dacB else if c = 2 then some .dacBoth else none

/-- 30_encoding.md R73. -/
def rampParameter? (c : BitVec 2) : Option RampParameter :=
  if c = 0 then some .frequency else if c = 1 then some .phase else if c = 2 then some .amplitude else none

/-- `POLCODE` (30_encoding.md R80). -/
def polCode (t : CodeTable) : PolarityMode → Byte
  | .unipolar => t.unipolar
  | .bipolar => t.bipolar

/-- `GAINCODE` (30_encoding.md R81). -/
def gainCode (t : CodeTable) : GainMode → Byte
  | .x2 => t.x2
  | .x4 => t.x4
  | .x432 => t.x432

/-- `ADDRCODE` (30_encoding.md R82). -/
def addrCode (t : CodeTable) : DeviceAddress → Byte
  | .dacA => t.dacA
  | .dacB => t.dacB
  | .dacBoth => t.dacBoth

/-- `PARAMCODE` (30_encoding.md R84). -/
def paramCode (t : CodeTable) : RampParameter → Byte
  | .frequency => t.frequency
  | .phase => t.phase
  | .amplitude => t.amplitude

/-- The polarity that a wire code names, if any (30_encoding.md R80). -/
def polOfCode (t : CodeTable) (b : Byte) : Option PolarityMode :=
  if b = t.unipolar then some .unipolar else if b = t.bipolar then some .bipolar else none

/-- The gain that a wire code names, if any (30_encoding.md R81). -/
def gainOfCode (t : CodeTable) (b : Byte) : Option GainMode :=
  if b = t.x2 then some .x2 else if b = t.x4 then some .x4 else if b = t.x432 then some .x432 else none

/-- The address that a wire code names, if any (30_encoding.md R82). -/
def addrOfCode (t : CodeTable) (b : Byte) : Option DeviceAddress :=
  if b = t.dacA then some .dacA else if b = t.dacB then some .dacB
  else if b = t.dacBoth then some .dacBoth else none

/-- The ramp parameter that a wire code names, if any (30_encoding.md R84). -/
def paramOfCode (t : CodeTable) (b : Byte) : Option RampParameter :=
  if b = t.frequency then some .frequency else if b = t.phase then some .phase
  else if b = t.amplitude then some .amplitude else none

/-- The ASCII digit of `d < 10`. -/
def digit (d : Nat) : Byte := BitVec.ofNat 8 (0x30 + d)

/-- The digits of `n` before `acc`, most significant first; `fuel` bounds their number. -/
def decDigits : Nat → Nat → List Byte → List Byte
  | 0, _, acc => acc
  | fuel + 1, n, acc =>
    if n < 10 then digit n :: acc else decDigits fuel (n / 10) (digit (n % 10) :: acc)

/-- `dec(n)`: the decimal numeral, with no sign and no leading zero (00_scope.md R16). -/
def dec (n : Nat) : List Byte := decDigits (n + 1) n []

/-- `hi8(w)` (00_scope.md R16). -/
def hi8 (w : Nat) : Byte := BitVec.ofNat 8 (w / 256)

/-- `lo8(w)` (00_scope.md R16). -/
def lo8 (w : Nat) : Byte := BitVec.ofNat 8 w

/-- `'0'..'9'`. -/
def isDigit (b : Byte) : Bool := decide (0x30#8 ≤ b) && decide (b ≤ 0x39#8)

/-- The number that digits spell in base 10, most significant first (43_framer_parser.md R220). -/
def spelled (s : List Byte) : Nat := s.foldl (fun n b => 10 * n + (b.toNat - 0x30)) 0

/-- `s = "0"` or `s[0] != '0'` (43_framer_parser.md R220). -/
def noLeadingZero : List Byte → Bool
  | [] => true
  | b :: rest => b != 0x30#8 || rest.isEmpty

/-- `field(s, bound)` (43_framer_parser.md R220). -/
def field (s : List Byte) (bound : Nat) : Option Nat :=
  if s ≠ [] ∧ s.all isDigit = true ∧ noLeadingZero s = true ∧ spelled s < bound then some (spelled s) else none

/-- The parts of `s` between its `','` bytes (43_framer_parser.md R220). -/
def splitFields : List Byte → List (List Byte)
  | [] => [[]]
  | b :: rest =>
    if b = separator then [] :: splitFields rest
    else
      match splitFields rest with
      | part :: parts => (b :: part) :: parts
      | [] => [[b]]

/-- Each part within its bound, as many parts as bounds. -/
def fieldList : List (List Byte) → List Nat → Option (List Nat)
  | [], [] => some []
  | part :: parts, bound :: bounds =>
    match field part bound, fieldList parts bounds with
    | some n, some ns => some (n :: ns)
    | _, _ => none
  | _, _ => none

/-- `fields(s, bounds)` (43_framer_parser.md R220). -/
def fields (s : List Byte) (bounds : List Nat) : Option (List Nat) := fieldList (splitFields s) bounds

/-- Decimal fields separated by `','` (30_encoding.md R90). -/
def joinFields : List Nat → List Byte
  | [] => []
  | [n] => dec n
  | n :: ns => dec n ++ separator :: joinFields ns

end Sys2Proof.Machine
end

