-- ==== Sys2Proof/Machine/Ops.lean ====
section
/-!
DEFINITION. The named operations over the state: `Emit`, answering a request, raising an error, resetting the block,
and how a request ends.
-/

namespace Sys2Proof.Machine

open Sys2Proof

/-- What the checks and computations of a request come to: an `Ok` value, a raised error, or a fault of the model. -/
inductive Reply (α : Type)
  | ok (v : α)
  | raise (e : Err)
  | fault (f : Fault)
  deriving DecidableEq, Repr

/-- The same reply with its value mapped. -/
def Reply.map {α β : Type} (f : α → β) : Reply α → Reply β
  | .ok v => .ok (f v)
  | .raise e => .raise e
  | .fault x => .fault x

/-- `Emit(f)`: appends `f` to `tx` as one unit and hands it to the transport as one `write(bytes)` call (00_scope.md R17,
20_memory.md R52). -/
def State.emit (f : List Byte) (s : State) : State :=
  { s with tx := s.tx ++ f, writes := s.writes ++ [f] }

/-- The result port answers `r` (10_state.md R24). -/
def State.answer (r : Result) (s : State) : State :=
  { s with result := some r }

/-- `raise`: an error ends the request with `Err(kind, info)` on the result port and changes nothing else
(00_scope.md R17, 60_exceptions.md R246). There is no return operation: the next request is accepted at once, with no
recovery action (R247). -/
def State.raise (e : Err) (s : State) : State :=
  s.answer (.err e)

/-- `S <- S'` of RX (43_framer_parser.md R209). -/
def State.setParser (p : Parser) (s : State) : State :=
  { s with parser := p }

/-- Reset: every piece of state takes its value of 10_state.md R35; the configuration stays (70_reset_and_hazards.md
R270, R271), and so does what the environment presents next (log 5). -/
def State.blockReset (s : State) : State :=
  { State.reset with cfg := s.cfg, inputs := s.inputs }

/-- The end of a request that only returns: `Return(v)` or `raise` (00_scope.md R17). -/
def finish (r : Reply Value) (s : State) : Host.Outcome State Fault Refusal :=
  match r with
  | .ok v => .next (s.answer (.ok v))
  | .raise e => .next (s.raise e)
  | .fault f => .fault f

/-- The end of a builder: `Emit(f); Return(f)`, or `raise` with nothing emitted (60_exceptions.md R246). -/
def finishEmit (r : Reply (List Byte)) (s : State) : Host.Outcome State Fault Refusal :=
  match r with
  | .ok f => .next ((s.emit f).answer (.ok (.bytes f)))
  | .raise e => .next (s.raise e)
  | .fault f => .fault f

/-- A request whose numbers the instance cannot express is refused (00_scope.md R13; log 9). -/
def withNumbers (xs : List Quantity) (s : State) (k : Host.Outcome State Fault Refusal) :
    Host.Outcome State Fault Refusal :=
  if xs.all (Quantity.expressible s.cfg.numerics) then k else .refused .inexpressibleOperand

/-- Takes the head of what the environment presents. -/
def State.takeInput (rest : List Input) (s : State) : State :=
  { s with inputs := rest }

end Sys2Proof.Machine
end

