-- ==== Sys2Proof/Machine/Codec.lean ====
section
/-!
DEFINITION. The fixed-point quantizer (40_codec.md R110 to R119) and its two requests, ENCODE and DECODE.
-/

namespace Sys2Proof.Machine

open Sys2Proof

/-- 40_codec.md R110, R115, R124: floor, saturating only at `f = 1`. -/
def quantize (f : Rat) (n : Nat) : Nat :=
  let raw := (f * 2 ^ n).floor.toNat
  if raw = 2 ^ n then 2 ^ n - 1 else raw

/-- The bipolar fraction where `2 * fs` rounds to infinity, for `t1` the rounded `v + fs` (log 18). The corner cases of
40_codec.md R120 give full scale and mid-scale; any other finite `t1` over infinity is 0 in binary64 (00_scope.md R13);
infinity over infinity is `none`. -/
def fractionAtInfinity (v fs : Rat) (t1 : Option Rat) : Option Rat :=
  if v = fs then some 1
  else if v = 0 then some (1 / 2)
  else t1.map fun _ => 0

/-- The fraction of `v` at full scale `fs`, each operation rounded as the instance does, in the order of 40_codec.md
R114 (R111 unipolar, R112 bipolar). `none` where the quotient is no number. -/
def fraction (m : Numerics) (v fs : Rat) (bipolar : Bool) : Option Rat :=
  if bipolar then
    match rnd m (v + fs), rnd m (2 * fs) with
    | some t1, some t2 => rnd m (t1 / t2)
    | t1, none => fractionAtInfinity v fs t1
    | none, some _ => none
  else rnd m (v / fs)

/-- The N-bit raw word of `v` (40_codec.md R113, R114). A free value below `2 ^ n` where the fraction is no number
(log 11). -/
def rawWord (m : Numerics) (v fs : Rat) (n : Nat) (bipolar : Bool) : Nat :=
  match fraction m v fs bipolar with
  | some f => quantize f n
  | none => Config.codecOverflow v fs n % 2 ^ n

/-- The lower end of the legal interval (40_codec.md R117). -/
def lowerEnd (fs : Rat) (bipolar : Bool) : Rat := if bipolar then -fs else 0

/-- The legal widths (40_codec.md R117). -/
def legalWidths (n t : Nat) : Bool := decide (1 ≤ n) && decide (n ≤ t) && decide (t ≤ 32)

/-- The precondition of `codec` (40_codec.md R117). -/
def codecPre (v fs : Rat) (n t : Nat) (bipolar : Bool) : Bool :=
  legalWidths n t && decide (0 < fs) && decide (lowerEnd fs bipolar ≤ v) && decide (v ≤ fs)

/-- `codec` (40_codec.md R113, R116): the raw word, left-justified. `none` outside its precondition (93 I6). -/
def codec (m : Numerics) (v fs : Rat) (n t : Nat) (bipolar : Bool) : Option Nat :=
  if codecPre v fs n t bipolar then some (rawWord m v fs n bipolar * 2 ^ (t - n)) else none

/-- The quantization step (00_scope.md R18). -/
def quantStep (fs : Rat) (n : Nat) (bipolar : Bool) : Rat := if bipolar then 2 * fs / 2 ^ n else fs / 2 ^ n

/-- A reply that needs a word of `codec`: a fault outside its precondition (93 I6). -/
def withWord {α : Type} (w : Option Nat) (k : Nat → Reply α) : Reply α :=
  match w with
  | some x => k x
  | none => .fault .codecPrecondition

/-- `red360` (40_codec.md R118): the floor-modulus, rounded once, with 360 taken as 0. The modulus is below 360, so that
its rounding never falls outside the number format. -/
def red360 (m : Numerics) (p : Rat) : Rat :=
  match rnd m (p - 360 * (p / 360).floor) with
  | some r => if r = 360 then 0 else r
  | none => 0

/-- `mult` (10_state.md R31); under BINARY64 the binary64 value nearest 4.32 (40_codec.md R119). -/
def mult (m : Numerics) : GainMode → Rat
  | .x2 => 2
  | .x4 => 4
  | .x432 => (rnd m (432 / 100)).getD (432 / 100)

/-- `mult(gain) * ref` (40_codec.md R119), rounded once. -/
def fullScale (m : Numerics) (g : GainMode) (ref : Rat) : Option Rat := rnd m (mult m g * ref)

/-- `N` and `T`, if they are integers with `1 <= N <= T <= 32` (40_codec.md R120). -/
def widths? (m : Numerics) (n t : Quantity) : Option (Nat × Nat) :=
  match natural? m n, natural? m t with
  | some n', some t' => if legalWidths n' t' then some (n', t') else none
  | _, _ => none

/-- The pseudocode of ENCODE (40_codec.md R120). -/
def encodeReply (cfg : Config) (value fs n t : Quantity) (bipolar : Bool) : Reply FixedPointWord :=
  match finites? cfg.numerics [value, fs] with
  | some [v, f] =>
    match widths? cfg.numerics n t with
    | none => .raise (.outOfRange .width)
    | some (n', t') =>
      if ¬ 0 < f then .raise (.outOfRange .reference)
      else if ¬ (lowerEnd f bipolar ≤ v ∧ v ≤ f) then .raise (.outOfRange .value)
      else withWord (codec cfg.numerics v f n' t' bipolar) fun w => .ok ⟨n', t', w⟩
  | _ => .raise (.outOfRange .nonfinite)

/-- ENCODE (40_codec.md R120). -/
def execCodecEncode (value fs n t : Quantity) (bipolar : Bool) (s : State) : Host.Outcome State Fault Refusal :=
  withNumbers [value, fs, n, t] s (finish ((encodeReply s.cfg value fs n t bipolar).map .word) s)

/-- DECODE's rational where a product falls outside the number format: the corner cases of 40_codec.md R121 give the least
word `-fs` or 0 and the greatest `fs - step`, rounded once (log 18); any other is a free value (log 12). -/
def decodedAtInfinity (m : Numerics) (raw : Nat) (fs : Rat) (n : Nat) (bipolar : Bool) : Rat :=
  if raw = 0 then lowerEnd fs bipolar
  else if raw = 2 ^ n - 1 then (rnd m (fs - quantStep fs n bipolar)).getD 0
  else Config.decodeOverflow raw fs n bipolar

/-- The rational that DECODE returns for a raw word, each operation rounded in the order of 40_codec.md R121. -/
def decodedNumber (m : Numerics) (raw : Nat) (fs : Rat) (n : Nat) (bipolar : Bool) : Rat :=
  let scale : Option Rat := if bipolar then rnd m (2 * fs) else some fs
  let x : Option Rat := do
    let k ← scale
    let p ← rnd m (raw * k)
    let q ← rnd m (p / 2 ^ n)
    if bipolar then rnd m (q - fs) else some q
  x.getD (decodedAtInfinity m raw fs n bipolar)

/-- The pseudocode of DECODE (40_codec.md R121). -/
def decodeReply (cfg : Config) (word fs n t : Quantity) (bipolar : Bool) : Reply Rat :=
  match finite? cfg.numerics fs with
  | none => .raise (.outOfRange .nonfinite)
  | some f =>
    match widths? cfg.numerics n t with
    | none => .raise (.outOfRange .width)
    | some (n', t') =>
      if ¬ 0 < f then .raise (.outOfRange .reference)
      else
        match natural? cfg.numerics word with
        | none => .raise (.outOfRange .value)
        | some w =>
          if ¬ w < 2 ^ t' then .raise (.outOfRange .value)
          else .ok (decodedNumber cfg.numerics (w / 2 ^ (t' - n')) f n' bipolar)

/-- DECODE (40_codec.md R121). -/
def execCodecDecode (word fs n t : Quantity) (bipolar : Bool) (s : State) : Host.Outcome State Fault Refusal :=
  withNumbers [word, fs, n, t] s (finish ((decodeReply s.cfg word fs n t bipolar).map .number) s)

end Sys2Proof.Machine
end

