-- ==== Sys2Proof/Machine/Dac.lean ====
section
/-!
DEFINITION. The DAC register-word encoder: DAC.INIT and DAC.WRITE (41_dac.md).
-/

namespace Sys2Proof.Machine

open Sys2Proof

/-- The DAC init frame (30_encoding.md R75). -/
def dacInitFrame (cfg : Config) (p : PolarityMode) (g : GainMode) : List Byte :=
  [dacInd, cfg.codes.opDacInit, polCode cfg.codes p, gainCode cfg.codes g, terminator]

/-- The pseudocode of DAC.INIT (41_dac.md R140). -/
def dacInitReply (cfg : Config) (gain polarity : BitVec 2) : Reply (List Byte) :=
  match gain? gain with
  | none => .raise .unsupportedGainMode
  | some g =>
    match polarity? polarity with
    | none => .raise (.unsupportedParameter .polarity)
    | some p => .ok (dacInitFrame cfg p g)

/-- DAC.INIT (41_dac.md R140). -/
def execDacInit (gain polarity : BitVec 2) (s : State) : Host.Outcome State Fault Refusal :=
  finishEmit (dacInitReply s.cfg gain polarity) s

/-- The word in the DAC write frame: decimal (30_encoding.md R76), or two bytes, high byte first (R77, 20_memory.md
R55). -/
def dacWordBytes (w : WireForm) (word : Nat) : List Byte :=
  match w with
  | .text => dec word
  | .binary => [hi8 word, lo8 word]

/-- The DAC write frame (30_encoding.md R76, R77). -/
def dacWriteFrame (cfg : Config) (a : DeviceAddress) (word : Nat) : List Byte :=
  [dacInd, cfg.codes.opDacWrite, addrCode cfg.codes a] ++ dacWordBytes cfg.wireForm word ++ [terminator]

/-- The reference voltage check (41_dac.md R143). -/
def legalDacReference (ref : Rat) : Bool := decide (2 ≤ ref) && decide (ref ≤ 3)

/-- Whether a polarity is the bipolar one (41_dac.md R141). -/
def isBipolar : PolarityMode → Bool
  | .unipolar => false
  | .bipolar => true

/-- The part of DAC.WRITE after its operands are read: the range check and the frame (41_dac.md R141, R142). -/
def dacWordReply (cfg : Config) (a : DeviceAddress) (v fs : Rat) (bipolar : Bool) : Reply (List Byte) :=
  if ¬ (lowerEnd fs bipolar ≤ v ∧ v ≤ fs) then .raise (.outOfRange .value)
  else withWord (codec cfg.numerics v fs dacBits dacSlot bipolar) fun w => .ok (dacWriteFrame cfg a w)

/-- The pseudocode of DAC.WRITE (41_dac.md R141). A full scale outside the number format cannot arise, the reference
being at most 3. -/
def dacWriteReply (cfg : Config) (address : BitVec 2) (voltage ref : Quantity) (gain polarity : BitVec 2) :
    Reply (List Byte) :=
  match address? address with
  | none => .raise (.unsupportedParameter .address)
  | some a =>
    match gain? gain with
    | none => .raise .unsupportedGainMode
    | some g =>
      match polarity? polarity with
      | none => .raise (.unsupportedParameter .polarity)
      | some p =>
        match finites? cfg.numerics [voltage, ref] with
        | some [v, r] =>
          if ¬ legalDacReference r then .raise (.outOfRange .reference)
          else
            match fullScale cfg.numerics g r with
            | some fs => dacWordReply cfg a v fs (isBipolar p)
            | none => .fault .codecPrecondition
        | _ => .raise (.outOfRange .nonfinite)

/-- DAC.WRITE (41_dac.md R141). -/
def execDacWrite (address : BitVec 2) (voltage ref : Quantity) (gain polarity : BitVec 2) (s : State) :
    Host.Outcome State Fault Refusal :=
  withNumbers [voltage, ref] s (finishEmit (dacWriteReply s.cfg address voltage ref gain polarity) s)

end Sys2Proof.Machine
end

