-- ==== Sys2Proof/Machine/Dds.lean ====
section
/-!
DEFINITION. The DDS register-word encoder: DDS.TONE, DDS.RAMP, DDS.LOAD, DDS.RESET and DDS.RAMPOFF (42_dds.md).
-/

namespace Sys2Proof.Machine

open Sys2Proof

/-- `ASF` (42_dds.md R161). -/
def asf (m : Numerics) (amp ampRef : Rat) : Option Nat := codec m amp ampRef ampBits ampBits false

/-- `POW` (42_dds.md R162). -/
def pow (m : Numerics) (p : Rat) : Option Nat := codec m (red360 m p) 360 phaseBits phaseBits false

/-- `FTW` (42_dds.md R163). -/
def ftw (m : Numerics) (f sysclk : Rat) : Option Nat := codec m f sysclk freqBits freqBits false

/-- The single-tone frame (30_encoding.md R78). -/
def toneFrame (cfg : Config) (a p f : Nat) : List Byte :=
  [cfg.ddsInd, cfg.codes.opTone] ++ joinFields [a, p, f] ++ [terminator]

/-- The pseudocode of DDS.TONE (42_dds.md R160). -/
def ddsToneReply (cfg : Config) (amp ampRef phase freq sysclk : Quantity) : Reply (List Byte) :=
  match finites? cfg.numerics [amp, ampRef, phase, freq, sysclk] with
  | some [a, aRef, p, f, clk] =>
    if ¬ 0 < aRef then .raise (.outOfRange .reference)
    else if ¬ 0 < clk then .raise (.outOfRange .reference)
    else if ¬ (0 ≤ a ∧ a ≤ aRef) then .raise (.outOfRange .value)
    else if ¬ (0 ≤ f ∧ f ≤ clk) then .raise (.outOfRange .value)
    else
      withWord (asf cfg.numerics a aRef) fun wa =>
      withWord (pow cfg.numerics p) fun wp =>
      withWord (ftw cfg.numerics f clk) fun wf => .ok (toneFrame cfg wa wp wf)
  | _ => .raise (.outOfRange .nonfinite)

/-- DDS.TONE (42_dds.md R160). -/
def execDdsTone (amp ampRef phase freq sysclk : Quantity) (s : State) : Host.Outcome State Fault Refusal :=
  withNumbers [amp, ampRef, phase, freq, sysclk] s (finishEmit (ddsToneReply s.cfg amp ampRef phase freq sysclk) s)

/-- `x <= stop - start`, the difference rounded once (42_dds.md R164). A difference outside the number format is above
every finite `x` (log 13). -/
def stepFits (m : Numerics) (x start stop : Rat) : Bool :=
  match rnd m (stop - start) with
  | some d => decide (x ≤ d)
  | none => true

/-- Ramp validity (42_dds.md R164): the first check that fails, if any. -/
def rampBoundsError (m : Numerics) (start stop dec inc : Rat) : Option RampReason :=
  if ¬ start < stop then some .startNotBelowStop
  else if ¬ stepFits m inc start stop then some .incrementTooLarge
  else if ¬ stepFits m dec start stop then some .decrementTooLarge
  else none

/-- `rampScale` (42_dds.md R166): the quantizer width and the full scale. -/
def rampScale (p : RampParameter) (ref : Rat) : Nat × Rat :=
  match p with
  | .frequency => (freqBits, ref)
  | .phase => (phaseBits, 360)
  | .amplitude => (ampBits, ref)

/-- `0 <= x <= FS`. -/
def inScale (fs x : Rat) : Bool := decide (0 ≤ x) && decide (x ≤ fs)

/-- A ramp rate: an integer in `[0, 65535]` (42_dds.md R167). -/
def rate? (r : Rat) : Option Nat :=
  if r.den = 1 ∧ 0 ≤ r.num ∧ r.num ≤ 65535 then some r.num.toNat else none

/-- The ramp-setup frame (30_encoding.md R85). -/
def rampSetupFrame (cfg : Config) (p : RampParameter) : List Byte :=
  [cfg.ddsInd, cfg.codes.opDrg, cfg.codes.subSetup, paramCode cfg.codes p, terminator]

/-- The ramp-parameters frame (30_encoding.md R86). -/
def rampParamsFrame (cfg : Config) (p : RampParameter) (ws we wd wi rn rp : Nat) : List Byte :=
  [cfg.ddsInd, cfg.codes.opDrg, cfg.codes.subParams, paramCode cfg.codes p] ++
    joinFields [ws, we, wd, wi, rn, rp] ++ [terminator]

/-- The words and the two frames of DDS.RAMP, once every check has passed (42_dds.md R165). -/
def rampFrames (cfg : Config) (p : RampParameter) (n : Nat) (fs start stop dec inc : Rat) (rn rp : Nat) :
    Reply (List Byte) :=
  withWord (codec cfg.numerics start fs n n false) fun ws =>
  withWord (codec cfg.numerics stop fs n n false) fun we =>
  withWord (codec cfg.numerics dec fs n n false) fun wd =>
  withWord (codec cfg.numerics inc fs n n false) fun wi =>
    .ok (rampSetupFrame cfg p ++ rampParamsFrame cfg p ws we wd wi rn rp)

/-- The pseudocode of DDS.RAMP (42_dds.md R165). -/
def ddsRampReply (cfg : Config) (param : BitVec 2) (start stop dec inc negRate posRate ref : Quantity) :
    Reply (List Byte) :=
  match rampParameter? param with
  | none => .raise (.unsupportedParameter .rampParameter)
  | some p =>
    match finites? cfg.numerics [start, stop, dec, inc, negRate, posRate, ref] with
    | some [a, b, d, i, nr, pr, rf] =>
      match rampBoundsError cfg.numerics a b d i with
      | some r => .raise (.invalidRampBounds r)
      | none =>
        let (n, fs) := rampScale p rf
        if p ≠ .phase ∧ ¬ 0 < rf then .raise (.outOfRange .reference)
        else if ¬ [a, b, d, i].all (inScale fs) then .raise (.outOfRange .value)
        else
          match rate? nr, rate? pr with
          | some rn, some rp => rampFrames cfg p n fs a b d i rn rp
          | _, _ => .raise (.outOfRange .rate)
    | _ => .raise (.outOfRange .nonfinite)

/-- DDS.RAMP (42_dds.md R165). -/
def execDdsRamp (param : BitVec 2) (start stop dec inc negRate posRate ref : Quantity) (s : State) :
    Host.Outcome State Fault Refusal :=
  withNumbers [start, stop, dec, inc, negRate, posRate, ref] s
    (finishEmit (ddsRampReply s.cfg param start stop dec inc negRate posRate ref) s)

/-- The load frame (30_encoding.md R88). -/
def loadFrame (cfg : Config) : List Byte := [cfg.ddsInd, cfg.codes.opLoad, terminator]

/-- The reset frame (30_encoding.md R89). -/
def resetFrame (cfg : Config) : List Byte := [cfg.ddsInd, cfg.codes.opReset, terminator]

/-- The disable-ramp frame (30_encoding.md R87). -/
def rampDisableFrame (cfg : Config) : List Byte :=
  [cfg.ddsInd, cfg.codes.opDrg, cfg.codes.subDisable, terminator]

/-- DDS.LOAD (42_dds.md R168). -/
def execDdsLoad (s : State) : Host.Outcome State Fault Refusal :=
  finishEmit (.ok (loadFrame s.cfg)) s

/-- DDS.RESET (42_dds.md R169). It resets nothing in the block (70_reset_and_hazards.md R272). -/
def execDdsReset (s : State) : Host.Outcome State Fault Refusal :=
  finishEmit (.ok (resetFrame s.cfg)) s

/-- DDS.RAMPOFF (42_dds.md R170). -/
def execDdsRampoff (s : State) : Host.Outcome State Fault Refusal :=
  finishEmit (.ok (rampDisableFrame s.cfg)) s

end Sys2Proof.Machine
end

