-- ==== Sys2Proof/Machine/Framer.lean ====
section
/-!
DEFINITION. The framer: FRAME (43_framer_parser.md R200).
-/

namespace Sys2Proof.Machine

open Sys2Proof

/-- The frame of the binary DAC write, whose payload may hold any byte (30_encoding.md R77). -/
def binaryPayload (cfg : Config) (dev opc : Byte) : Bool :=
  decide (cfg.wireForm = .binary) && dev == dacInd && opc == cfg.codes.opDacWrite

/-- The form of every frame (30_encoding.md R74). -/
def frameBytes (dev opc : Byte) (payload : List Byte) : List Byte :=
  dev :: opc :: (payload ++ [terminator])

/-- The pseudocode of FRAME (43_framer_parser.md R200). -/
def frameReply (cfg : Config) (dev opc : Byte) (payload : List Byte) : Reply (List Byte) :=
  if dev = terminator then .raise (.framingError .terminatorInPayload 0)
  else if opc = terminator then .raise (.framingError .terminatorInPayload 1)
  else if ¬ binaryPayload cfg dev opc ∧ terminator ∈ payload then
    .raise (.framingError .terminatorInPayload (2 + payload.idxOf terminator))
  else .ok (frameBytes dev opc payload)

/-- FRAME (43_framer_parser.md R200). Nothing is emitted. -/
def execFrame (dev opc : Byte) (payload : List Byte) (s : State) : Host.Outcome State Fault Refusal :=
  finish ((frameReply s.cfg dev opc payload).map .bytes) s

end Sys2Proof.Machine
end

