-- ==== Sys2Proof/Machine/Parse.lean ====
section
/-!
DEFINITION. The parser: stage 1 (43_framer_parser.md R201 to R206, R210), stage 2 (R207), and the requests PARSE and RX.
-/

namespace Sys2Proof.Machine

open Sys2Proof

/-- The events of stage 1 (43_framer_parser.md R201). -/
inductive Event
  | none
  | frame (dev opc : Byte) (payload : List Byte) (off : Nat)
  | error (r : FramingReason) (off : Nat)
  deriving DecidableEq, Repr

/-- Whether `opc` is an opcode listed for `dev` (30_encoding.md R83). -/
def listedOpcode (cfg : Config) (dev : Option Byte) (opc : Byte) : Bool :=
  match dev with
  | some d =>
    (d == dacInd && cfg.codes.dacOpcodes.contains opc) || (d == cfg.ddsInd && cfg.codes.ddsOpcodes.contains opc)
  | none => false

/-- Error handling in stage 1 (43_framer_parser.md R210): reset, then skip to the next terminator unless this byte is
one. -/
def stageError (r : FramingReason) (off : Nat) (b : Byte) : Parser × Event :=
  (if b = terminator then .reset else { Parser.reset with pstate := .discard }, .error r off)

/-- The frame that a terminator completes (43_framer_parser.md R204, R206): the state resets. -/
def stageFrame (p : Parser) : Parser × Event :=
  (.reset, .frame (p.pdev.getD 0) (p.popc.getD 0) p.pbuf p.poff)

/-- ExpectDevice (43_framer_parser.md R202). -/
def stepDevice (cfg : Config) (p : Parser) (b : Byte) : Parser × Event :=
  if b = dacInd ∨ b = cfg.ddsInd then ({ p with pdev := some b, poff := 1, pstate := .expectOpcode }, .none)
  else stageError .badDevice p.poff b

/-- ExpectOpcode (43_framer_parser.md R203). -/
def stepOpcode (cfg : Config) (p : Parser) (b : Byte) : Parser × Event :=
  if listedOpcode cfg p.pdev b then
    ({ p with
        popc := some b
        pbuf := []
        pbin := binaryPayload cfg (p.pdev.getD 0) b
        poff := 2
        pstate := .readPayload }, .none)
  else stageError .badOpcode p.poff b

/-- ReadPayload, text (43_framer_parser.md R204). -/
def stepText (p : Parser) (b : Byte) : Parser × Event :=
  if b = terminator then stageFrame p
  else if p.pbuf.length = maxPayload then stageError .overlong p.poff b
  else if b < 0x20#8 ∨ 0x7E#8 < b then stageError .badPayloadByte p.poff b
  else ({ p with pbuf := p.pbuf ++ [b], poff := p.poff + 1 }, .none)

/-- ReadPayload, binary (43_framer_parser.md R205). -/
def stepBinary (p : Parser) (b : Byte) : Parser × Event :=
  let buf := p.pbuf ++ [b]
  ({ p with
      pbuf := buf
      poff := p.poff + 1
      pstate := if buf.length = 3 then .expectTerminator else p.pstate }, .none)

/-- ExpectTerminator (43_framer_parser.md R206). -/
def stepTerminator (p : Parser) (b : Byte) : Parser × Event :=
  if b = terminator then stageFrame p else stageError .badTerminator p.poff b

/-- Discard (43_framer_parser.md R210). -/
def stepDiscard (p : Parser) (b : Byte) : Parser × Event :=
  (if b = terminator then { p with pstate := .expectDevice } else p, .none)

/-- Stage 1: `step1(S, b)` (43_framer_parser.md R201). -/
def step1 (cfg : Config) (p : Parser) (b : Byte) : Parser × Event :=
  match p.pstate with
  | .expectDevice => stepDevice cfg p b
  | .expectOpcode => stepOpcode cfg p b
  | .readPayload => if p.pbin then stepBinary p b else stepText p b
  | .expectTerminator => stepTerminator p b
  | .discard => stepDiscard p b

/-- `FramingError(BAD_FIELD)` at the terminator's offset (43_framer_parser.md R207). -/
def badField {α : Type} (off : Nat) : Reply α := .raise (.framingError .badField off)

/-- The row `'D'`, `'s'` of 43_framer_parser.md R207. -/
def interpretDacInit (c : CodeTable) (p : List Byte) (off : Nat) : Reply Decoded :=
  match p with
  | [b0, b1] =>
    match polOfCode c b0 with
    | none => .raise (.unsupportedParameter .polarity)
    | some pol =>
      match gainOfCode c b1 with
      | none => .raise .unsupportedGainMode
      | some g => .ok (.dacInit pol g)
  | _ => badField off

/-- The last condition of the rows `'D'`, `'w'`: `W mod 4 = 0` (43_framer_parser.md R207). -/
def interpretDacWord (a : DeviceAddress) (w : Nat) (off : Nat) : Reply Decoded :=
  if w % 4 = 0 then .ok (.dacWrite a w) else badField off

/-- The row `'D'`, `'w'`, text of 43_framer_parser.md R207. -/
def interpretDacWriteText (c : CodeTable) (p : List Byte) (off : Nat) : Reply Decoded :=
  match p with
  | b0 :: d :: ds =>
    match addrOfCode c b0 with
    | none => .raise (.unsupportedParameter .address)
    | some a =>
      match field (d :: ds) (2 ^ 16) with
      | none => badField off
      | some w => interpretDacWord a w off
  | _ => badField off

/-- The row `'D'`, `'w'`, binary of 43_framer_parser.md R207. Stage 1 gives three payload bytes (R205). -/
def interpretDacWriteBinary (c : CodeTable) (p : List Byte) (off : Nat) : Reply Decoded :=
  match p with
  | [b0, hi, lo] =>
    match addrOfCode c b0 with
    | none => .raise (.unsupportedParameter .address)
    | some a => interpretDacWord a (hi.toNat * 256 + lo.toNat) off
  | _ => .fault .noFrameRow

/-- The row `DDS_IND`, `'p'` of 43_framer_parser.md R207. -/
def interpretTone (p : List Byte) (off : Nat) : Reply Decoded :=
  match fields p [2 ^ 14, 2 ^ 16, 2 ^ 32] with
  | some [a, ph, f] => .ok (.ddsTone a ph f)
  | _ => badField off

/-- The bound of the ramp words (30_encoding.md R91). -/
def rampWordBound : RampParameter → Nat
  | .frequency => 2 ^ 32
  | .phase => 2 ^ 16
  | .amplitude => 2 ^ 14

/-- The row `'o'` + `'s'` of 43_framer_parser.md R207, for the payload after the sub-opcode. -/
def interpretRampSetup (c : CodeTable) (p : List Byte) (off : Nat) : Reply Decoded :=
  match p with
  | [b] =>
    match paramOfCode c b with
    | none => .raise (.unsupportedParameter .rampParameter)
    | some param => .ok (.rampSetup param)
  | _ => badField off

/-- The row `'o'` + `'p'` of 43_framer_parser.md R207, for the payload after the sub-opcode. -/
def interpretRampParams (c : CodeTable) (p : List Byte) (off : Nat) : Reply Decoded :=
  match p with
  | b :: rest =>
    match paramOfCode c b with
    | none => .raise (.unsupportedParameter .rampParameter)
    | some param =>
      let k := rampWordBound param
      match fields rest [k, k, k, k, 2 ^ 16, 2 ^ 16] with
      | some [ws, we, wd, wi, rn, rp] => .ok (.rampParams param ws we wd wi rn rp)
      | _ => badField off
  | [] => badField off

/-- The rows `DDS_IND`, `'o'` of 43_framer_parser.md R207. -/
def interpretDrg (c : CodeTable) (p : List Byte) (off : Nat) : Reply Decoded :=
  match p with
  | sub :: rest =>
    if sub = c.subSetup then interpretRampSetup c rest off
    else if sub = c.subParams then interpretRampParams c rest off
    else if sub = c.subDisable then (if rest = [] then .ok .rampDisable else badField off)
    else .raise (.framingError .badSubopcode off)
  | [] => .raise (.framingError .badSubopcode off)

/-- The rows of 43_framer_parser.md R207 for the device `'D'`. -/
def interpretDac (cfg : Config) (opc : Byte) (p : List Byte) (off : Nat) : Reply Decoded :=
  if opc = cfg.codes.opDacInit then interpretDacInit cfg.codes p off
  else if opc = cfg.codes.opDacWrite then
    match cfg.wireForm with
    | .text => interpretDacWriteText cfg.codes p off
    | .binary => interpretDacWriteBinary cfg.codes p off
  else .fault .noFrameRow

/-- The rows of 43_framer_parser.md R207 for the device `DDS_IND`. -/
def interpretDds (c : CodeTable) (opc : Byte) (p : List Byte) (off : Nat) : Reply Decoded :=
  if opc = c.opTone then interpretTone p off
  else if opc = c.opDrg then interpretDrg c p off
  else if opc = c.opLoad then (if p = [] then .ok .load else badField off)
  else if opc = c.opReset then (if p = [] then .ok .reset else badField off)
  else .fault .noFrameRow

/-- The decoded form of a frame (43_framer_parser.md R207). -/
def interpretDecoded (cfg : Config) (dev opc : Byte) (p : List Byte) (off : Nat) : Reply Decoded :=
  if dev = dacInd then interpretDac cfg opc p off
  else if dev = cfg.ddsInd then interpretDds cfg.codes opc p off
  else .fault .noFrameRow

/-- Stage 2: `interpret` (43_framer_parser.md R207). -/
def interpret (cfg : Config) (dev opc : Byte) (p : List Byte) (off : Nat) : Reply ParsedCommand :=
  (interpretDecoded cfg dev opc p off).map fun d => ⟨dev, opc, p, terminator, d⟩

/-- The loop of PARSE at byte `i` (43_framer_parser.md R208). -/
def parseFrom (cfg : Config) (p : Parser) (i : Nat) : List Byte → Reply ParsedCommand
  | [] => .raise (.framingError .unterminated i)
  | b :: rest =>
    match step1 cfg p b with
    | (_, .error r off) => .raise (.framingError r off)
    | (_, .frame dev opc payload off) =>
      if rest ≠ [] then .raise (.framingError .trailing (i + 1)) else interpret cfg dev opc payload off
    | (p', .none) => parseFrom cfg p' (i + 1) rest

/-- The pseudocode of PARSE (43_framer_parser.md R208): a private parser from its reset values. -/
def parseReply (cfg : Config) (s : List Byte) : Reply ParsedCommand := parseFrom cfg .reset 0 s

/-- PARSE (43_framer_parser.md R208). -/
def execParse (bytes : List Byte) (s : State) : Host.Outcome State Fault Refusal :=
  finish ((parseReply s.cfg bytes).map .command) s

/-- What RX returns for an event of stage 1 (43_framer_parser.md R209). -/
def rxReply (cfg : Config) (ev : Event) : Reply Value :=
  match ev with
  | .none => .ok .pending
  | .error r off => .raise (.framingError r off)
  | .frame dev opc payload off => (interpret cfg dev opc payload off).map .command

/-- RX (43_framer_parser.md R209): the parser state is written even when the request raises an error. -/
def execRx (b : Byte) (s : State) : Host.Outcome State Fault Refusal :=
  finish (rxReply s.cfg (step1 s.cfg s.parser b).2) (s.setParser (step1 s.cfg s.parser b).1)

end Sys2Proof.Machine
end

