-- ==== Sys2Proof/Machine/Wire.lean ====
section
/-!
DEFINITION. The wire frames of 30_encoding.md R97, each presented whole and read as PARSE reads it (log 6).
-/

namespace Sys2Proof.Machine

open Sys2Proof

/-- A whole wire frame is read by the parser of PARSE (43_framer_parser.md R208): header and the bytes after it. -/
def readFrame (bytes : List Byte) (s : State) : Host.Outcome State Fault Refusal :=
  finish ((parseReply s.cfg bytes).map .command) s

/-- FRAME.DAC_INIT (30_encoding.md R75). -/
def execFrameDacInit (rest : List Byte) (s : State) : Host.Outcome State Fault Refusal :=
  readFrame ([dacInd, s.cfg.codes.opDacInit] ++ rest) s

/-- FRAME.DAC_WRITE_TEXT (30_encoding.md R76). -/
def execFrameDacWriteText (rest : List Byte) (s : State) : Host.Outcome State Fault Refusal :=
  readFrame ([dacInd, s.cfg.codes.opDacWrite] ++ rest) s

/-- FRAME.DAC_WRITE_BINARY (30_encoding.md R77). The same header as the text row: `WIRE_FORM` decides how the bytes
after it are read (R94). -/
def execFrameDacWriteBinary (rest : List Byte) (s : State) : Host.Outcome State Fault Refusal :=
  readFrame ([dacInd, s.cfg.codes.opDacWrite] ++ rest) s

/-- FRAME.DDS_TONE (30_encoding.md R78). -/
def execFrameDdsTone (rest : List Byte) (s : State) : Host.Outcome State Fault Refusal :=
  readFrame ([s.cfg.ddsInd, s.cfg.codes.opTone] ++ rest) s

/-- FRAME.DDS_RAMP_SETUP (30_encoding.md R85). -/
def execFrameDdsRampSetup (rest : List Byte) (s : State) : Host.Outcome State Fault Refusal :=
  readFrame ([s.cfg.ddsInd, s.cfg.codes.opDrg, s.cfg.codes.subSetup] ++ rest) s

/-- FRAME.DDS_RAMP_PARAMS (30_encoding.md R86). -/
def execFrameDdsRampParams (rest : List Byte) (s : State) : Host.Outcome State Fault Refusal :=
  readFrame ([s.cfg.ddsInd, s.cfg.codes.opDrg, s.cfg.codes.subParams] ++ rest) s

/-- FRAME.DDS_RAMP_DISABLE (30_encoding.md R87). -/
def execFrameDdsRampDisable (rest : List Byte) (s : State) : Host.Outcome State Fault Refusal :=
  readFrame ([s.cfg.ddsInd, s.cfg.codes.opDrg, s.cfg.codes.subDisable] ++ rest) s

/-- FRAME.DDS_LOAD (30_encoding.md R88). -/
def execFrameDdsLoad (rest : List Byte) (s : State) : Host.Outcome State Fault Refusal :=
  readFrame ([s.cfg.ddsInd, s.cfg.codes.opLoad, terminator] ++ rest) s

/-- FRAME.DDS_RESET (30_encoding.md R89). -/
def execFrameDdsReset (rest : List Byte) (s : State) : Host.Outcome State Fault Refusal :=
  readFrame ([s.cfg.ddsInd, s.cfg.codes.opReset, terminator] ++ rest) s

end Sys2Proof.Machine
end

