-- ==== Sys2Proof/Machine/Dispatch.lean ====
section
/-!
DEFINITION. One arm per constructor of Instr.
-/

namespace Sys2Proof.Machine

open Sys2Proof

def exec (i : Instr) (s : State) : Host.Outcome State Fault Refusal :=
  match i with
  | .codecEncode value fs n t bipolar => Sys2Proof.Machine.execCodecEncode value fs n t bipolar s
  | .codecDecode word fs n t bipolar => Sys2Proof.Machine.execCodecDecode word fs n t bipolar s
  | .dacInit gain polarity => Sys2Proof.Machine.execDacInit gain polarity s
  | .dacWrite address voltage ref gain polarity => Sys2Proof.Machine.execDacWrite address voltage ref gain polarity s
  | .ddsTone amp ampRef phase freq sysclk => Sys2Proof.Machine.execDdsTone amp ampRef phase freq sysclk s
  | .ddsRamp param start stop dec inc negRate posRate ref => Sys2Proof.Machine.execDdsRamp param start stop dec inc negRate posRate ref s
  | .ddsLoad => Sys2Proof.Machine.execDdsLoad s
  | .ddsReset => Sys2Proof.Machine.execDdsReset s
  | .ddsRampoff => Sys2Proof.Machine.execDdsRampoff s
  | .frame dev opc payload => Sys2Proof.Machine.execFrame dev opc payload s
  | .parse bytes => Sys2Proof.Machine.execParse bytes s
  | .rx b => Sys2Proof.Machine.execRx b s
  | .frameDacInit rest => Sys2Proof.Machine.execFrameDacInit rest s
  | .frameDacWriteText rest => Sys2Proof.Machine.execFrameDacWriteText rest s
  | .frameDacWriteBinary rest => Sys2Proof.Machine.execFrameDacWriteBinary rest s
  | .frameDdsTone rest => Sys2Proof.Machine.execFrameDdsTone rest s
  | .frameDdsRampSetup rest => Sys2Proof.Machine.execFrameDdsRampSetup rest s
  | .frameDdsRampParams rest => Sys2Proof.Machine.execFrameDdsRampParams rest s
  | .frameDdsRampDisable rest => Sys2Proof.Machine.execFrameDdsRampDisable rest s
  | .frameDdsLoad rest => Sys2Proof.Machine.execFrameDdsLoad rest s
  | .frameDdsReset rest => Sys2Proof.Machine.execFrameDdsReset rest s

end Sys2Proof.Machine
end

