-- ==== Sys2Proof/Machine/Step.lean ====
section
/-!
DEFINITION. One step: the block takes what the environment presents next and performs it to completion (10_state.md R21,
R24, 20_memory.md R60).
-/

namespace Sys2Proof.Machine

open Sys2Proof

/-- One step. With nothing presented the block does nothing (log 2); the reset input resets it (70_reset_and_hazards.md
R270); a submission is decoded and performed, or refused where it is no instruction (30_encoding.md R72). -/
def step (s : State) : Host.Outcome State Fault Refusal :=
  match s.inputs with
  | [] => .next s
  | .reset :: rest => .next (s.takeInput rest).blockReset
  | .submit x :: rest =>
    match decode s.cfg x with
    | .ok i => exec i (s.takeInput rest)
    | .error e => .refused (.undecodable e)

/-- `s` with the row's bits, as spec/opcode_table.json numbers them, presented next (log 7). -/
def State.withFetchWord (s : State) (nbits w : Nat) : State :=
  { s with inputs := .submit (tableSubmission s.cfg nbits w) :: s.inputs }

end Sys2Proof.Machine
end

