-- ==== Sys2Proof/Machine/Flags.lean ====
section
/-!
DEFINITION. The block has no condition flags (10_state.md R22): an outcome is reported only through the result. This
file gives the numbers by which a result is reported (60_exceptions.md R240, R241, R243).
-/

namespace Sys2Proof.Machine

open Sys2Proof

/-- The kind codes of 60_exceptions.md R240. -/
def Err.kindCode : Err → Nat
  | .outOfRange _ => 1
  | .invalidRampBounds _ => 2
  | .framingError _ _ => 3
  | .unsupportedGainMode => 4
  | .unsupportedParameter _ => 5

/-- The kind code of a result: 0 for `Ok` (60_exceptions.md R240). -/
def Result.kindCode : Result → Nat
  | .ok _ => 0
  | .err e => e.kindCode

/-- 60_exceptions.md R241. -/
def RangeReason.code : RangeReason → Nat
  | .value => 1
  | .reference => 2
  | .width => 3
  | .rate => 4
  | .nonfinite => 5

/-- 60_exceptions.md R241. -/
def RampReason.code : RampReason → Nat
  | .startNotBelowStop => 1
  | .incrementTooLarge => 2
  | .decrementTooLarge => 3

/-- 60_exceptions.md R241. -/
def FramingReason.code : FramingReason → Nat
  | .badDevice => 1
  | .badOpcode => 2
  | .badPayloadByte => 3
  | .overlong => 4
  | .badTerminator => 5
  | .unterminated => 6
  | .trailing => 7
  | .badField => 8
  | .terminatorInPayload => 9
  | .badSubopcode => 10

/-- 60_exceptions.md R241. -/
def ParameterReason.code : ParameterReason → Nat
  | .polarity => 2
  | .address => 3
  | .rampParameter => 4

/-- The reason code that an error records (60_exceptions.md R241, R243). -/
def Err.reasonCode : Err → Nat
  | .outOfRange r => r.code
  | .invalidRampBounds r => r.code
  | .framingError r _ => r.code
  | .unsupportedGainMode => 1
  | .unsupportedParameter r => r.code

/-- The offset that an error records: defined for `FramingError` only (60_exceptions.md R243). -/
def Err.offset? : Err → Option Nat
  | .outOfRange _ => none
  | .invalidRampBounds _ => none
  | .framingError _ off => some off
  | .unsupportedGainMode => none
  | .unsupportedParameter _ => none

end Sys2Proof.Machine
end

