-- ==== Sys2Proof/Safety.lean ====
section
/-!
DEFINITION. The terms of the statements: how a request ends, the parser states that a run can reach, transmit streams
made of whole frames, and what a frame's decoded form must hold.
-/

namespace Sys2Proof.Machine

open Sys2Proof

/-- The request ends with the result `r`, and nothing but the result port changes. -/
def Answers (i : Instr) (s : State) (r : Result) : Prop := exec i s = .next (s.answer r)

/-- The builder emits `f` as one unit and returns it, and nothing else changes (10_state.md R34, R36). -/
def Emits (i : Instr) (s : State) (f : List Byte) : Prop := exec i s = .next ((s.emit f).answer (.ok (.bytes f)))

/-- The builder requests (10_state.md R36). -/
def isBuilder : Instr → Bool
  | .dacInit _ _ => true
  | .dacWrite _ _ _ _ _ => true
  | .ddsTone _ _ _ _ _ => true
  | .ddsRamp _ _ _ _ _ _ _ _ => true
  | .ddsLoad => true
  | .ddsReset => true
  | .ddsRampoff => true
  | .codecEncode _ _ _ _ _ => false
  | .codecDecode _ _ _ _ _ => false
  | .frame _ _ _ => false
  | .parse _ => false
  | .rx _ => false
  | .frameDacInit _ => false
  | .frameDacWriteText _ => false
  | .frameDacWriteBinary _ => false
  | .frameDdsTone _ => false
  | .frameDdsRampSetup _ => false
  | .frameDdsRampParams _ => false
  | .frameDdsRampDisable _ => false
  | .frameDdsLoad _ => false
  | .frameDdsReset _ => false

/-- The values that the 2-bit codes of 30_encoding.md R73 name. A code in no row is unsupported. -/
def gainRows : List (BitVec 2 × GainMode) := [(0, .x2), (1, .x4), (2, .x432)]

/-- 30_encoding.md R73. -/
def polarityRows : List (BitVec 2 × PolarityMode) := [(0, .unipolar), (1, .bipolar)]

/-- 30_encoding.md R73. -/
def addressRows : List (BitVec 2 × DeviceAddress) := [(0, .dacA), (1, .dacB), (2, .dacBoth)]

/-- 30_encoding.md R73. -/
def parameterRows : List (BitVec 2 × RampParameter) := [(0, .frequency), (1, .phase), (2, .amplitude)]

/-- The bounds of the six fields of a ramp-parameters payload (30_encoding.md R91). -/
def rampBounds : RampParameter → List Nat
  | .frequency => [2 ^ 32, 2 ^ 32, 2 ^ 32, 2 ^ 32, 2 ^ 16, 2 ^ 16]
  | .phase => [2 ^ 16, 2 ^ 16, 2 ^ 16, 2 ^ 16, 2 ^ 16, 2 ^ 16]
  | .amplitude => [2 ^ 14, 2 ^ 14, 2 ^ 14, 2 ^ 14, 2 ^ 16, 2 ^ 16]

/-- `dev`, `opc` and `payload` are those of a frame that satisfies 30_encoding.md R75 to R91, with decoded form `d`. -/
def LegalFrame (cfg : Config) (dev opc : Byte) (payload : List Byte) (d : Decoded) : Prop :=
  match d with
  | .dacInit p g => dev = 0x44 ∧ opc = cfg.codes.opDacInit ∧ payload = [polCode cfg.codes p, gainCode cfg.codes g]
  | .dacWrite a w => dev = 0x44 ∧ opc = cfg.codes.opDacWrite ∧ w < 2 ^ 16 ∧ w % 4 = 0 ∧
      (cfg.wireForm = .text → payload = addrCode cfg.codes a :: dec w) ∧
      (cfg.wireForm = .binary →
        payload = [addrCode cfg.codes a, BitVec.ofNat 8 (w / 256), BitVec.ofNat 8 w])
  | .ddsTone a p f => dev = cfg.ddsInd ∧ opc = cfg.codes.opTone ∧ a < 2 ^ 14 ∧ p < 2 ^ 16 ∧ f < 2 ^ 32 ∧
      payload = dec a ++ [0x2C] ++ dec p ++ [0x2C] ++ dec f
  | .rampSetup p =>
    dev = cfg.ddsInd ∧ opc = cfg.codes.opDrg ∧ payload = [cfg.codes.subSetup, paramCode cfg.codes p]
  | .rampParams p ws we wd wi rn rp => dev = cfg.ddsInd ∧ opc = cfg.codes.opDrg ∧
      List.Forall₂ (· < ·) [ws, we, wd, wi, rn, rp] (rampBounds p) ∧
      payload = [cfg.codes.subParams, paramCode cfg.codes p] ++ dec ws ++ [0x2C] ++ dec we ++ [0x2C] ++ dec wd ++
        [0x2C] ++ dec wi ++ [0x2C] ++ dec rn ++ [0x2C] ++ dec rp
  | .rampDisable => dev = cfg.ddsInd ∧ opc = cfg.codes.opDrg ∧ payload = [cfg.codes.subDisable]
  | .load => dev = cfg.ddsInd ∧ opc = cfg.codes.opLoad ∧ payload = []
  | .reset => dev = cfg.ddsInd ∧ opc = cfg.codes.opReset ∧ payload = []

/-- The request RX. -/
def isRx (i : Instr) : Prop := ∃ b, i = .rx b

/-- The request DDS.RAMP. -/
def isRamp (i : Instr) : Prop := ∃ param start stop dec inc nr pr ref, i = .ddsRamp param start stop dec inc nr pr ref

/-- Device and opcode of the frame that the parser is receiving: a row of 30_encoding.md R83. -/
def Parser.header (cfg : Config) (p : Parser) : Bool :=
  match p.pdev, p.popc with
  | some d, some o => listedOpcode cfg (some d) o && (p.pbin == binaryPayload cfg d o)
  | _, _ => false

/-- The parser states that stage 1 can be in (10_state.md R27; 43_framer_parser.md R202 to R206, R210): the fields fit
the FSM state, the payload is within `MAX_PAYLOAD`, and `poff` counts the bytes of the frame. -/
def Parser.wf (cfg : Config) (p : Parser) : Bool :=
  match p.pstate with
  | .expectDevice => p == .reset
  | .discard => p == { Parser.reset with pstate := .discard }
  | .expectOpcode =>
    p.pdev.any (fun d => d == dacInd || d == cfg.ddsInd) && p.popc == none && p.pbuf == [] && !p.pbin && p.poff == 1
  | .readPayload =>
    p.header cfg && p.poff == 2 + p.pbuf.length &&
      (if p.pbin then decide (p.pbuf.length < 3)
       else decide (p.pbuf.length ≤ maxPayload) && p.pbuf.all payloadByte)
  | .expectTerminator => p.header cfg && p.pbin && p.pbuf.length == 3 && p.poff == 5

/-- The parser after bytes that stage 1 takes without an event; `none` where one of them raises an error or ends a frame
(43_framer_parser.md R201). -/
def Parser.taking (cfg : Config) : List Byte → Parser → Option Parser
  | [], p => some p
  | b :: rest, p => if (step1 cfg p b).2 = .none then (step1 cfg p b).1.taking cfg rest else none

/-- The decoded form of a frame, if PARSE accepts it. -/
def parsed? (cfg : Config) (f : List Byte) : Option Decoded :=
  match parseReply cfg f with
  | .ok c => some c.decoded
  | .raise _ => none
  | .fault _ => none

/-- What one `Emit` hands to the transport: one frame that PARSE accepts, or a ramp-setup frame and the ramp-parameters
frame for the same parameter (20_memory.md R53, R54; 70_reset_and_hazards.md R277). -/
def WireUnit (cfg : Config) (w : List Byte) : Prop :=
  (∃ d, parsed? cfg w = some d) ∨
    ∃ f1 f2 p ws we wd wi rn rp, w = f1 ++ f2 ∧ parsed? cfg f1 = some (.rampSetup p) ∧
      parsed? cfg f2 = some (.rampParams p ws we wd wi rn rp)

/-- The transmit stream is the concatenation of the writes, each a unit (20_memory.md R52, R53). -/
def State.WholeFrames (s : State) : Prop :=
  s.tx = s.writes.flatten ∧ ∀ w ∈ s.writes, WireUnit s.cfg w

/-- The parser after a stage-1 error on byte `b` (43_framer_parser.md R210). -/
def errorParser (b : Byte) : Parser :=
  if b = terminator then .reset else { Parser.reset with pstate := .discard }

/-- A good state: a legal configuration, a parser state that stage 1 can be in, and whole frames in `tx`. -/
def State.Good (s : State) : Prop := s.cfg.legal = true ∧ s.parser.wf s.cfg = true ∧ s.WholeFrames

/-- Bytes fed one per RX request, with the result of each. -/
def State.feed : List Byte → State → Option (State × List Result)
  | [], s => some (s, [])
  | b :: bs, s =>
    match exec (.rx b) s with
    | .next t =>
      match t.feed bs, t.result with
      | some (u, rs), some r => some (u, r :: rs)
      | _, _ => none
    | .fault _ => none
    | .refused _ => none

/-- The finite binary64 values: `c * 2 ^ k` with a significand below `2 ^ 53` and an exponent from -1074 to 971. -/
def IsBinary64 (x : Rat) : Prop :=
  ∃ (c : Nat) (k : Int), c < 2 ^ 53 ∧ -1074 ≤ k ∧ k ≤ 971 ∧ |x| = c * (2 : Rat) ^ k

/-- The decoded form holds the codes and words that the builder computes from its operands (43_framer_parser.md R221;
41_dac.md R140, R141; 42_dds.md R160 to R163, R168 to R170). -/
def Built (cfg : Config) (i : Instr) (d : Decoded) : Prop :=
  match i with
  | .dacInit gain pol => ∃ g p, gain? gain = some g ∧ polarity? pol = some p ∧ d = .dacInit p g
  | .dacWrite addr volts ref gain pol => ∃ a g p v r fs w, address? addr = some a ∧ gain? gain = some g ∧
      polarity? pol = some p ∧ finites? cfg.numerics [volts, ref] = some [v, r] ∧
      rnd cfg.numerics (mult cfg.numerics g * r) = some fs ∧
      codec cfg.numerics v fs 14 16 (isBipolar p) = some w ∧ d = .dacWrite a w
  | .ddsTone amp ampRef phase freq sysclk => ∃ a r p f k wa wp wf,
      finites? cfg.numerics [amp, ampRef, phase, freq, sysclk] = some [a, r, p, f, k] ∧
      codec cfg.numerics a r 14 14 false = some wa ∧
      codec cfg.numerics (red360 cfg.numerics p) 360 16 16 false = some wp ∧
      codec cfg.numerics f k 32 32 false = some wf ∧ d = .ddsTone wa wp wf
  | .ddsLoad => d = .load
  | .ddsReset => d = .reset
  | .ddsRampoff => d = .rampDisable
  | .ddsRamp _ _ _ _ _ _ _ _ => False
  | .codecEncode _ _ _ _ _ => False
  | .codecDecode _ _ _ _ _ => False
  | .frame _ _ _ => False
  | .parse _ => False
  | .rx _ => False
  | .frameDacInit _ => False
  | .frameDacWriteText _ => False
  | .frameDacWriteBinary _ => False
  | .frameDdsTone _ => False
  | .frameDdsRampSetup _ => False
  | .frameDdsRampParams _ => False
  | .frameDdsRampDisable _ => False
  | .frameDdsLoad _ => False
  | .frameDdsReset _ => False

/-- The two decoded forms of a ramp pair hold the code, words and rates that DDS.RAMP computes (42_dds.md R165 to
R167). -/
def BuiltRamp (cfg : Config) (i : Instr) (d1 d2 : Decoded) : Prop :=
  ∃ param start stop dec inc nr pr ref p a b d c rn rp rf n fs ws we wd wi,
    i = .ddsRamp param start stop dec inc nr pr ref ∧ rampParameter? param = some p ∧
    finites? cfg.numerics [start, stop, dec, inc, nr, pr, ref] = some [a, b, d, c, ((rn : Nat) : Rat), ((rp : Nat) : Rat), rf] ∧
    rampScale p rf = (n, fs) ∧ codec cfg.numerics a fs n n false = some ws ∧
    codec cfg.numerics b fs n n false = some we ∧ codec cfg.numerics d fs n n false = some wd ∧
    codec cfg.numerics c fs n n false = some wi ∧ d1 = .rampSetup p ∧ d2 = .rampParams p ws we wd wi rn rp

/-- PARSE accepts `f` as the frame of the command `c`, whose four fields spell `f` (43_framer_parser.md R221). -/
def ParsesTo (s : State) (f : List Byte) (c : ParsedCommand) : Prop :=
  Answers (.parse f) s (.ok (.command c)) ∧
    [c.deviceIndicator, c.opcode] ++ c.payload ++ [c.terminator] = f

end Sys2Proof.Machine
end

