-- ==== Sys2Proof/Certificates/Slice0/Obligations.lean ====
section
/-!
DEFINITION. The statements for the provers.
-/

open Sys2Proof Sys2Proof.Machine

/-! ## Encoding and the step -/

/-- 30_encoding.md R71, R97: in a legal configuration, decoding the submission that encodes a well-formed instruction
gives that instruction back. -/
def Obligations.DecodeOfEncode : Prop :=
  ∀ (cfg : Config) (i : Instr), cfg.legal = true → i.wellFormed cfg = true → decode cfg (encode cfg i) = .ok i

/-- 10_state.md R24, 20_memory.md R60: the step takes the first submission and performs exactly the instruction it
decodes to, on the state with that submission taken. How submissions are presented is the model's choice (log 2). -/
def Obligations.StepRunsDecodedInstruction : Prop :=
  ∀ (s : State) (x : Submission) (rest : List Input) (i : Instr),
    s.inputs = .submit x :: rest → decode s.cfg x = .ok i → i.wellFormed s.cfg = true →
      step s = exec i (s.takeInput rest) ∧ (s.takeInput rest).inputs = rest ∧ (s.takeInput rest).tx = s.tx ∧
        (s.takeInput rest).parser = s.parser ∧ (s.takeInput rest).cfg = s.cfg

/-- 30_encoding.md R71, R97: operation codes, and the header of every wire row, written out as the tables give them. That
a whole wire frame is a submission that decodes to its row is the model's choice (log 6), and that the header of the load
and reset rows holds the terminator is read from spec/opcode_table.json (log 7). -/
def Obligations.WrittenWordsDecode : Prop :=
  decode .standard (.request ⟨0x3#4, [.code 0, .code 1]⟩) = .ok (.dacInit 0 1) ∧
  decode .standard (.request ⟨0x7#4, []⟩) = .ok .ddsLoad ∧
  decode .standard (.request ⟨0xC#4, [.byte 0x44]⟩) = .ok (.rx 0x44) ∧
  decode .standard (.wire [0x44, 0x73, 0x62, 0x31, 0x21]) = .ok (.frameDacInit [0x62, 0x31, 0x21]) ∧
  decode .standard (.wire [0x44, 0x77, 0x62, 0x30, 0x21]) = .ok (.frameDacWriteText [0x62, 0x30, 0x21]) ∧
  decode { Config.standard with wireForm := .binary } (.wire [0x44, 0x77, 0x62, 0x00, 0x04, 0x21]) =
    .ok (.frameDacWriteBinary [0x62, 0x00, 0x04, 0x21]) ∧
  decode .standard (.wire [0x64, 0x70, 0x30, 0x2C, 0x30, 0x2C, 0x30, 0x21]) =
    .ok (.frameDdsTone [0x30, 0x2C, 0x30, 0x2C, 0x30, 0x21]) ∧
  decode .standard (.wire [0x64, 0x6F, 0x73, 0x66, 0x21]) = .ok (.frameDdsRampSetup [0x66, 0x21]) ∧
  decode .standard (.wire [0x64, 0x6F, 0x70, 0x70, 0x21]) = .ok (.frameDdsRampParams [0x70, 0x21]) ∧
  decode .standard (.wire [0x64, 0x6F, 0x78, 0x21]) = .ok (.frameDdsRampDisable [0x21]) ∧
  decode .standard (.wire [0x64, 0x6C, 0x21]) = .ok (.frameDdsLoad []) ∧
  decode .standard (.wire [0x64, 0x72, 0x21]) = .ok (.frameDdsReset [])

/-- 00_scope.md R11 to R13, 30_encoding.md R79 to R84: the default configuration, each code by the value it stands for.
That the configuration is a field of State, and that State.reset holds the defaults in it, is the model's choice
(log 1). -/
def Obligations.StandardCodes : Prop :=
  State.reset.cfg.wireForm = .text ∧ State.reset.cfg.numerics = .exact ∧ State.reset.cfg.ddsInd = 0x64 ∧
    [PolarityMode.unipolar, .bipolar].map (polCode State.reset.cfg.codes) = [0x75, 0x62] ∧
    [GainMode.x2, .x4, .x432].map (gainCode State.reset.cfg.codes) = [0x31, 0x32, 0x33] ∧
    [DeviceAddress.dacA, .dacB, .dacBoth].map (addrCode State.reset.cfg.codes) = [0x61, 0x62, 0x63] ∧
    [RampParameter.frequency, .phase, .amplitude].map (paramCode State.reset.cfg.codes) = [0x66, 0x70, 0x61] ∧
    State.reset.cfg.codes.opDacInit = 0x73 ∧ State.reset.cfg.codes.opDacWrite = 0x77 ∧
    State.reset.cfg.codes.opTone = 0x70 ∧ State.reset.cfg.codes.opDrg = 0x6F ∧ State.reset.cfg.codes.opLoad = 0x6C ∧
    State.reset.cfg.codes.opReset = 0x72 ∧ State.reset.cfg.codes.subSetup = 0x73 ∧
    State.reset.cfg.codes.subParams = 0x70 ∧ State.reset.cfg.codes.subDisable = 0x78

/-- 30_encoding.md R72, 60_exceptions.md R250: a request with a reserved operation code is refused, whatever its
operands, and no request with another operation code is refused for its code. -/
def Obligations.ReservedOperationRefused : Prop :=
  ∀ (s : State) (r : Request) (rest : List Input), s.inputs = .submit (.request r) :: rest →
    (step s = .refused (.undecodable (.reservedOp r.op)) ↔ r.op ∈ [0x0#4, 0xD#4, 0xE#4, 0xF#4])

/-! ## Reset -/

/-- 10_state.md R35, 70_reset_and_hazards.md R270: the reset values. -/
def Obligations.ResetValues : Prop :=
  State.reset.tx = [] ∧ State.reset.parser.pstate = .expectDevice ∧ State.reset.parser.pdev = none ∧
    State.reset.parser.popc = none ∧ State.reset.parser.pbuf = [] ∧ State.reset.parser.pbin = false ∧
    State.reset.parser.poff = 0

/-- 70_reset_and_hazards.md R270, R271: the reset input gives every piece of state its reset value from any state, in
the middle of a received frame too, and leaves the configuration. The next byte is read in ExpectDevice. How the reset
input is presented, and that later inputs stay, is the model's choice (log 5). -/
def Obligations.ResetInputResetsBlock : Prop :=
  ∀ (s : State) (rest : List Input), s.inputs = .reset :: rest →
    ∃ t, step s = .next t ∧ t.tx = [] ∧ t.parser = ⟨.expectDevice, none, none, [], false, 0⟩ ∧ t.cfg = s.cfg ∧
      t.inputs = rest ∧ ∀ b, step1 t.cfg t.parser b = stepDevice t.cfg t.parser b

/-- The reset state is good: the premise of the invariants below holds of it. -/
def Obligations.ResetIsGood : Prop := State.reset.Good

/-! ## Invariants of every step -/

/-- 10_state.md R27, R28: from a parser state that stage 1 can be in, every step leads to one: the payload stays within
MAX_PAYLOAD, `poff` counts the bytes received, and the fields fit `pstate`. -/
def Obligations.StepKeepsParserWellFormed : Prop :=
  ∀ s t : State, s.cfg.legal = true → s.parser.wf s.cfg = true → step s = .next t →
    t.cfg = s.cfg ∧ t.parser.wf t.cfg = true

/-- 20_memory.md R52 to R54: from a good state, every step leads to a good state. `tx` stays the concatenation of whole
units, each a frame that PARSE accepts or a ramp-setup frame followed by its ramp-parameters frame, under either
wire form and either arithmetic. The record of the writes is the model's (log 4). -/
def Obligations.StepKeepsWholeFrames : Prop :=
  ∀ s t : State, s.Good → step s = .next t → t.Good

/-- 10_state.md R25: a step other than a reset only appends to `tx`, and every byte appended is handed over in one
write (log 4). -/
def Obligations.TransmitStreamOnlyGrows : Prop :=
  ∀ s t : State, (∀ rest, s.inputs ≠ .reset :: rest) → step s = .next t →
    (t.tx = s.tx ∧ t.writes = s.writes) ∨ ∃ f, t.tx = s.tx ++ f ∧ t.writes = s.writes ++ [f]

/-- 10_state.md R24: from a legal configuration and a parser state that stage 1 can be in, every well-formed instruction
completes, with a result on the result port: none is refused and none faults. Some of the answers rest on the model's
choices: wire frames are read as PARSE reads them (log 6), and ENCODE and DECODE answer a free value where the binary64
arithmetic gives none (logs 11 and 12). -/
def Obligations.EveryRequestIsAnswered : Prop :=
  ∀ (s : State) (i : Instr), s.cfg.legal = true → s.parser.wf s.cfg = true → i.wellFormed s.cfg = true →
    ∃ t r, exec i s = .next t ∧ t.result = some r

/-- 40_codec.md R117: `codec` has a value exactly inside its precondition, and no request, in any state, evaluates it
outside. -/
def Obligations.CodecNeverOutsidePrecondition : Prop :=
  (∀ (m : Numerics) (v fs : Rat) (n t : Nat) (bip : Bool),
    (codec m v fs n t bip).isSome = true ↔
      (1 ≤ n ∧ n ≤ t ∧ t ≤ 32 ∧ 0 < fs ∧ (if bip then -fs else 0) ≤ v ∧ v ≤ fs)) ∧
  ∀ (s : State) (i : Instr), exec i s ≠ .fault .codecPrecondition

/-! ## What requests read and write -/

/-- 10_state.md R36: a builder writes no state but `tx`, RX writes only the parser state, and the other requests write
no state at all. The configuration and what is presented next never change. -/
def Obligations.RequestsWriteOnlyTheirState : Prop :=
  ∀ (s t : State) (i : Instr), exec i s = .next t →
    t.cfg = s.cfg ∧ t.inputs = s.inputs ∧ (¬ isRx i → t.parser = s.parser) ∧
      (isBuilder i = false → t.tx = s.tx ∧ t.writes = s.writes)

/-- 10_state.md R36, R37, 60_exceptions.md R253: no request reads `tx`, and only RX reads the parser state. Two states of
one configuration, with the same parser state for RX, give the same result, append the same bytes and leave the
same parser state. -/
def Obligations.RequestsReadOnlyTheirState : Prop :=
  ∀ (s s' t : State) (i : Instr), s.cfg = s'.cfg → (isRx i → s.parser = s'.parser) → exec i s = .next t →
    ∃ t' f, exec i s' = .next t' ∧ t'.result = t.result ∧ t.tx = s.tx ++ f ∧ t'.tx = s'.tx ++ f ∧
      (isRx i → t'.parser = t.parser)

/-- 60_exceptions.md R246: an error is precise. It emits nothing, and the state after it is the state before but for the
result port; RX also writes its parser state, which a stage-2 error leaves reset. -/
def Obligations.ErrorsArePrecise : Prop :=
  ∀ (s t : State) (i : Instr) (e : Err), exec i s = .next t → t.result = some (.err e) →
    (¬ isRx i → t = s.answer (.err e)) ∧
      ∀ b, i = .rx b → t = (s.setParser (step1 s.cfg s.parser b).1).answer (.err e) ∧
        ((∀ r off, (step1 s.cfg s.parser b).2 ≠ .error r off) → t.parser = .reset) ∧
        (∀ r off, (step1 s.cfg s.parser b).2 = .error r off → t.parser = errorParser b)

/-- 60_exceptions.md R247: after an error the next request runs exactly as it would have run without the erroring one. -/
def Obligations.ErrorLeavesNextRequestAlone : Prop :=
  ∀ (s t : State) (i j : Instr) (e : Err), ¬ isRx i → exec i s = .next t → t.result = some (.err e) →
    exec j t = exec j s

/-- 60_exceptions.md R242: no builder answers `FramingError`. -/
def Obligations.BuildersNeverRaiseFramingError : Prop :=
  ∀ (s t : State) (i : Instr), isBuilder i = true → exec i s = .next t →
    ∀ r off, t.result ≠ some (.err (.framingError r off))

/-! ## Quantizer -/

/-- 40_codec.md R120: ENCODE. The checks in their order, each with its error; past them, the word of `codec`, with floor
and saturation at full scale, of the fraction `q`: exact (R113), or rounded operation by operation (R114). -/
def Obligations.EncodeFollowsRule : Prop :=
  ∀ (s : State) (value fs n t : Quantity) (bip : Bool),
    [value, fs, n, t].all (Quantity.expressible s.cfg.numerics) = true →
    ((finite? s.cfg.numerics value = none ∨ finite? s.cfg.numerics fs = none) →
      Answers (.codecEncode value fs n t bip) s (.err (.outOfRange .nonfinite))) ∧
    ∀ v f, finite? s.cfg.numerics value = some v → finite? s.cfg.numerics fs = some f →
      ((¬ ∃ n' t', natural? s.cfg.numerics n = some n' ∧ natural? s.cfg.numerics t = some t' ∧ 1 ≤ n' ∧ n' ≤ t' ∧
          t' ≤ 32) → Answers (.codecEncode value fs n t bip) s (.err (.outOfRange .width))) ∧
      ∀ n' t', natural? s.cfg.numerics n = some n' → natural? s.cfg.numerics t = some t' → 1 ≤ n' → n' ≤ t' → t' ≤ 32 →
        (f ≤ 0 → Answers (.codecEncode value fs n t bip) s (.err (.outOfRange .reference))) ∧
        (0 < f → ¬ ((if bip then -f else 0) ≤ v ∧ v ≤ f) →
          Answers (.codecEncode value fs n t bip) s (.err (.outOfRange .value))) ∧
        (0 < f → (if bip then -f else 0) ≤ v → v ≤ f →
          ∀ q, (s.cfg.numerics = .exact ∧ q = (if bip then (v + f) / (2 * f) else v / f) ∨
              s.cfg.numerics = .binary64 ∧ bip = false ∧ fl (v / f) = some q ∨
              s.cfg.numerics = .binary64 ∧ bip = true ∧
                ∃ t1 t2, fl (v + f) = some t1 ∧ fl (2 * f) = some t2 ∧ fl (t1 / t2) = some q) →
            Answers (.codecEncode value fs n t bip) s
              (.ok (.word ⟨n', t', min (2 ^ n' - 1) (Int.toNat ⌊q * (2 : Rat) ^ n'⌋) * 2 ^ (t' - n')⟩)))

/-- 40_codec.md R120, its corner cases, under either arithmetic and for every legal full scale: `value = fs` gives the
maximum word, the lower end gives 0, and the bipolar 0 gives mid-scale. That they hold where `2 * FS` rounds to infinity
too is log 18. -/
def Obligations.EncodeCornerCases : Prop :=
  ∀ (s : State) (value fs n t : Quantity) (bip : Bool) (v f : Rat) (n' t' : Nat),
    [value, fs, n, t].all (Quantity.expressible s.cfg.numerics) = true →
    finite? s.cfg.numerics value = some v → finite? s.cfg.numerics fs = some f → 0 < f →
    natural? s.cfg.numerics n = some n' → natural? s.cfg.numerics t = some t' → 1 ≤ n' → n' ≤ t' → t' ≤ 32 →
      (v = f → Answers (.codecEncode value fs n t bip) s (.ok (.word ⟨n', t', (2 ^ n' - 1) * 2 ^ (t' - n')⟩))) ∧
      (v = (if bip then -f else 0) → Answers (.codecEncode value fs n t bip) s (.ok (.word ⟨n', t', 0⟩))) ∧
      (bip = true → v = 0 →
        Answers (.codecEncode value fs n t bip) s (.ok (.word ⟨n', t', 2 ^ (n' - 1) * 2 ^ (t' - n')⟩)))

/-- 40_codec.md R114, read with the infinities of IEEE 754 (00_scope.md R13; log 18): where `2 * FS` rounds to infinity and
`v + FS` does not, the bipolar raw word is 0, but for `v = FS` and `v = 0`, which `EncodeCornerCases` states. -/
def Obligations.EncodeOverInfiniteScale : Prop :=
  ∀ (s : State) (value fs n t : Quantity) (v f : Rat) (n' t' : Nat), s.cfg.numerics = .binary64 →
    finite? .binary64 value = some v → finite? .binary64 fs = some f → 0 < f → -f ≤ v → v < f → v ≠ 0 →
    natural? .binary64 n = some n' → natural? .binary64 t = some t' → 1 ≤ n' → n' ≤ t' → t' ≤ 32 →
    fl (2 * f) = none → fl (v + f) ≠ none →
      Answers (.codecEncode value fs n t true) s (.ok (.word ⟨n', t', 0⟩))

/-- Past their checks ENCODE and DECODE answer on every operand: ENCODE a left-justified word whose raw word has N bits,
DECODE a rational. Where the binary64 arithmetic gives no value, which one is the model's choice to leave free (logs 11
and 12). -/
def Obligations.CodecRequestsAlwaysAnswer : Prop :=
  ∀ (s : State) (x fs n t : Quantity) (bip : Bool) (f : Rat) (n' t' : Nat),
    [x, fs, n, t].all (Quantity.expressible s.cfg.numerics) = true → finite? s.cfg.numerics fs = some f → 0 < f →
    natural? s.cfg.numerics n = some n' → natural? s.cfg.numerics t = some t' → 1 ≤ n' → n' ≤ t' → t' ≤ 32 →
    (∀ v, finite? s.cfg.numerics x = some v → (if bip then -f else 0) ≤ v → v ≤ f →
      ∃ raw, raw < 2 ^ n' ∧ Answers (.codecEncode x fs n t bip) s (.ok (.word ⟨n', t', raw * 2 ^ (t' - n')⟩))) ∧
    ∀ w, natural? s.cfg.numerics x = some w → w < 2 ^ t' →
      ∃ y, Answers (.codecDecode x fs n t bip) s (.ok (.number y))

/-- 10_state.md R33: every word that ENCODE returns has `1 <= N <= T <= 32`, lies below `2^T`, and has its low `T - N`
bits zero. -/
def Obligations.EncodedWordIsLeftJustified : Prop :=
  ∀ (s t : State) (i : Instr) (w : FixedPointWord), exec i s = .next t → t.result = some (.ok (.word w)) →
    1 ≤ w.bitWidth ∧ w.bitWidth ≤ w.slot ∧ w.slot ≤ 32 ∧ w.value < 2 ^ w.slot ∧
      w.value % 2 ^ (w.slot - w.bitWidth) = 0

/-- 40_codec.md R121: DECODE. The checks in their order; past them the lower edge of the quantization cell of the word's
high N bits, under BINARY64 with each operation rounded in the order of the rule. -/
def Obligations.DecodeFollowsRule : Prop :=
  ∀ (s : State) (word fs n t : Quantity) (bip : Bool),
    [word, fs, n, t].all (Quantity.expressible s.cfg.numerics) = true →
    (finite? s.cfg.numerics fs = none →
      Answers (.codecDecode word fs n t bip) s (.err (.outOfRange .nonfinite))) ∧
    ∀ f, finite? s.cfg.numerics fs = some f →
      ((¬ ∃ n' t', natural? s.cfg.numerics n = some n' ∧ natural? s.cfg.numerics t = some t' ∧ 1 ≤ n' ∧ n' ≤ t' ∧
          t' ≤ 32) → Answers (.codecDecode word fs n t bip) s (.err (.outOfRange .width))) ∧
      ∀ n' t', natural? s.cfg.numerics n = some n' → natural? s.cfg.numerics t = some t' → 1 ≤ n' → n' ≤ t' → t' ≤ 32 →
        (f ≤ 0 → Answers (.codecDecode word fs n t bip) s (.err (.outOfRange .reference))) ∧
        (0 < f → (¬ ∃ w, natural? s.cfg.numerics word = some w ∧ w < 2 ^ t') →
          Answers (.codecDecode word fs n t bip) s (.err (.outOfRange .value))) ∧
        ∀ w, 0 < f → natural? s.cfg.numerics word = some w → w < 2 ^ t' →
          (s.cfg.numerics = .exact → Answers (.codecDecode word fs n t bip) s (.ok (.number
            (if bip then ((w >>> (t' - n') : Nat) : Rat) * (2 * f) / 2 ^ n' - f
             else ((w >>> (t' - n') : Nat) : Rat) * f / 2 ^ n')))) ∧
          (s.cfg.numerics = .binary64 → bip = false → ∀ p x, fl (((w >>> (t' - n') : Nat) : Rat) * f) = some p →
            fl (p / 2 ^ n') = some x →
            Answers (.codecDecode word fs n t bip) s (.ok (.number x))) ∧
          (s.cfg.numerics = .binary64 → bip = true → ∀ k p y x, fl (2 * f) = some k →
            fl (((w >>> (t' - n') : Nat) : Rat) * k) = some p → fl (p / 2 ^ n') = some y → fl (y - f) = some x →
            Answers (.codecDecode word fs n t bip) s (.ok (.number x)))

/-- 40_codec.md R121, its corner cases: a raw word of 0 gives `-fs` or 0 under either arithmetic, and the greatest raw word
gives `fs - step`: exactly under EXACT, and rounded once under BINARY64 where the product falls outside the format
(log 18). -/
def Obligations.DecodeCornerCases : Prop :=
  ∀ (s : State) (word fs n t : Quantity) (bip : Bool) (w : Nat) (f : Rat) (n' t' : Nat),
    [word, fs, n, t].all (Quantity.expressible s.cfg.numerics) = true →
    natural? s.cfg.numerics word = some w → w < 2 ^ t' → finite? s.cfg.numerics fs = some f → 0 < f →
    natural? s.cfg.numerics n = some n' → natural? s.cfg.numerics t = some t' → 1 ≤ n' → n' ≤ t' → t' ≤ 32 →
      (w < 2 ^ (t' - n') → Answers (.codecDecode word fs n t bip) s (.ok (.number (if bip then -f else 0)))) ∧
      (w >>> (t' - n') = 2 ^ n' - 1 →
        (s.cfg.numerics = .exact → Answers (.codecDecode word fs n t bip) s
          (.ok (.number (f - (if bip then 2 * f / 2 ^ n' else f / 2 ^ n'))))) ∧
        (s.cfg.numerics = .binary64 → fl (((2 ^ n' - 1 : Nat) : Rat) * (if bip then 2 * f else f)) = none →
          ∃ x, fl (f - (if bip then 2 * f / 2 ^ n' else f / 2 ^ n')) = some x ∧
            Answers (.codecDecode word fs n t bip) s (.ok (.number x))))

/-- 40_codec.md R122: the laws of `codec` under EXACT: range, monotone, endpoints, floor. -/
def Obligations.CodecLaws : Prop :=
  ∀ (fs : Rat) (n t : Nat) (bip : Bool), 1 ≤ n → n ≤ t → t ≤ 32 → 0 < fs →
    (∀ v, (if bip then -fs else 0) ≤ v → v ≤ fs →
      ∃ raw : Nat, codec .exact v fs n t bip = some (raw * 2 ^ (t - n)) ∧ raw ≤ 2 ^ n - 1 ∧
        ∀ k : Nat, k < 2 ^ n - 1 →
          (raw = k ↔ (k : Rat) ≤ (if bip then (v + fs) / (2 * fs) else v / fs) * 2 ^ n ∧
            (if bip then (v + fs) / (2 * fs) else v / fs) * 2 ^ n < k + 1)) ∧
    (∀ v1 v2 w1 w2, v1 ≤ v2 → codec .exact v1 fs n t bip = some w1 → codec .exact v2 fs n t bip = some w2 →
      w1 ≤ w2) ∧
    codec .exact (if bip then -fs else 0) fs n t bip = some 0 ∧
    codec .exact fs fs n t bip = some ((2 ^ n - 1) * 2 ^ (t - n))

/-- 40_codec.md R123: encoding a legal value and decoding the word gives a value at most one quantization step below,
and exactly one step below only at full scale. -/
def Obligations.RoundTripWithinOneStep : Prop :=
  ∀ (s : State) (v fs : Rat) (n t : Nat) (bip : Bool), s.cfg.numerics = .exact → 1 ≤ n → n ≤ t → t ≤ 32 → 0 < fs →
    (if bip then -fs else 0) ≤ v → v ≤ fs →
    ∃ w x, Answers (.codecEncode (.real v) (.real fs) (.real n) (.real t) bip) s (.ok (.word ⟨n, t, w⟩)) ∧
      Answers (.codecDecode (.real w) (.real fs) (.real n) (.real t) bip) s (.ok (.number x)) ∧
      x ≤ v ∧ v ≤ x + (if bip then 2 * fs / 2 ^ n else fs / 2 ^ n) ∧
      (v = x + (if bip then 2 * fs / 2 ^ n else fs / 2 ^ n) ↔ v = fs)

/-! ## Binary64 -/

/-- 40_codec.md R114 (`fl`, rounding to nearest, ties to even): the rounded value is a binary64 value, none is nearer,
and of two equally near it has the even significand; rounding overflows exactly from half a unit above the largest
binary64 value on. That the subnormal numbers are kept is log 10. -/
def Obligations.RoundsToNearestEven : Prop :=
  ∀ q : Rat, (fl q = none ↔ (2 : Rat) ^ 1024 - 2 ^ 970 ≤ |q|) ∧
    ∀ x, fl q = some x → IsBinary64 x ∧ (∀ y, IsBinary64 y → |x - q| ≤ |y - q|) ∧
      ∀ y, IsBinary64 y → y ≠ x → |y - q| = |x - q| →
        ∃ (c : Nat) (k : Int), c % 2 = 0 ∧ |x| = c * (2 : Rat) ^ k ∧ |y - x| = (2 : Rat) ^ k

/-- What an operand stands for and how an operation rounds (00_scope.md R13, 40_codec.md R114; log 10): a rational itself
under EXACT, the nearest binary64 value under BINARY64; an integer operand is one whose value is a natural number. -/
def Obligations.NumbersOfOperands : Prop :=
  ∀ (q : Rat) (b : Bool) (m : Numerics) (x : Quantity) (k : Nat),
    finite? .exact (.real q) = some q ∧ finite? .binary64 (.real q) = fl q ∧ finite? m (.inf b) = none ∧
      finite? m .nan = none ∧ rnd .exact q = some q ∧ rnd .binary64 q = fl q ∧
      (natural? m x = some k ↔ finite? m x = some (k : Rat))

/-- 00_scope.md R13, 93 I5: where no operation overflows (`2 * FS` stays in the format in bipolar mode), the raw words
of the two arithmetics differ by at most one least significant bit. -/
def Obligations.ArithmeticsDifferByOneLsb : Prop :=
  ∀ (v fs : Rat) (n : Nat) (bip : Bool), fl v = some v → fl fs = some fs → 0 < fs → (if bip then -fs else 0) ≤ v →
    v ≤ fs → 1 ≤ n → n ≤ 32 → (bip = true → fl (2 * fs) ≠ none) →
    rawWord .binary64 v fs n bip ≤ rawWord .exact v fs n bip + 1 ∧
      rawWord .exact v fs n bip ≤ rawWord .binary64 v fs n bip + 1

/-! ## DAC -/

/-- 41_dac.md R140: DAC.INIT, with its checks in order. -/
def Obligations.DacInitFollowsRule : Prop :=
  ∀ (s : State) (gain pol : BitVec 2),
    (gain = 3 → Answers (.dacInit gain pol) s (.err .unsupportedGainMode)) ∧
    (gain ≠ 3 → pol.toNat ≥ 2 → Answers (.dacInit gain pol) s (.err (.unsupportedParameter .polarity))) ∧
    ∀ g p, (gain, g) ∈ gainRows → (pol, p) ∈ polarityRows →
      Emits (.dacInit gain pol) s
        [0x44, s.cfg.codes.opDacInit, polCode s.cfg.codes p, gainCode s.cfg.codes g, 0x21]

/-- 41_dac.md R141 to R143: DAC.WRITE. The checks in their order, each with its error; past them the frame of the wire
form, with the word of `codec` at full scale `k * ref`, rounded once, for the multiplier `k` of the gain (10_state.md R31,
40_codec.md R119). -/
def Obligations.DacWriteFollowsRule : Prop :=
  ∀ (s : State) (addr : BitVec 2) (volts ref : Quantity) (gain pol : BitVec 2),
    [volts, ref].all (Quantity.expressible s.cfg.numerics) = true →
    (addr = 3 → Answers (.dacWrite addr volts ref gain pol) s (.err (.unsupportedParameter .address))) ∧
    (addr ≠ 3 → gain = 3 → Answers (.dacWrite addr volts ref gain pol) s (.err .unsupportedGainMode)) ∧
    (addr ≠ 3 → gain ≠ 3 → pol.toNat ≥ 2 →
      Answers (.dacWrite addr volts ref gain pol) s (.err (.unsupportedParameter .polarity))) ∧
    ∀ a g p, (addr, a) ∈ addressRows → (gain, g) ∈ gainRows → (pol, p) ∈ polarityRows →
      ((finite? s.cfg.numerics volts = none ∨ finite? s.cfg.numerics ref = none) →
        Answers (.dacWrite addr volts ref gain pol) s (.err (.outOfRange .nonfinite))) ∧
      ∀ v r, finite? s.cfg.numerics volts = some v → finite? s.cfg.numerics ref = some r →
        (¬ (2 ≤ r ∧ r ≤ 3) → Answers (.dacWrite addr volts ref gain pol) s (.err (.outOfRange .reference))) ∧
        (2 ≤ r → r ≤ 3 → ∃ k fs, (g = .x2 → k = 2) ∧ (g = .x4 → k = 4) ∧
          (g = .x432 → rnd s.cfg.numerics (432 / 100) = some k) ∧ rnd s.cfg.numerics (k * r) = some fs ∧ 0 < fs ∧
          (¬ ((if p = .bipolar then -fs else 0) ≤ v ∧ v ≤ fs) →
            Answers (.dacWrite addr volts ref gain pol) s (.err (.outOfRange .value))) ∧
          ((if p = .bipolar then -fs else 0) ≤ v → v ≤ fs →
            ∃ w, codec s.cfg.numerics v fs 14 16 (p = .bipolar) = some w ∧
              (s.cfg.wireForm = .text → Emits (.dacWrite addr volts ref gain pol) s
                ([0x44, s.cfg.codes.opDacWrite, addrCode s.cfg.codes a] ++ dec w ++ [0x21])) ∧
              (s.cfg.wireForm = .binary → Emits (.dacWrite addr volts ref gain pol) s
                [0x44, s.cfg.codes.opDacWrite, addrCode s.cfg.codes a, BitVec.ofNat 8 (w / 256), BitVec.ofNat 8 w,
                  0x21])))

/-- 41_dac.md R145: the bipolar word is offset binary. Under EXACT it is 0 at `-fs`, 0x8000 at 0 V, 0xFFFC at the top
step and at `fs`; under BINARY64, for a full scale that is a binary64 value, the same at `-fs`, 0 V and `fs` (log 18
where `2 * fs` rounds to infinity). -/
def Obligations.BipolarWordIsOffsetBinary : Prop :=
  ∀ fs : Rat, 0 < fs →
    codec .exact (-fs) fs 14 16 true = some 0 ∧ codec .exact 0 fs 14 16 true = some 0x8000 ∧
      codec .exact (fs - 2 * fs / 2 ^ 14) fs 14 16 true = some 0xFFFC ∧ codec .exact fs fs 14 16 true = some 0xFFFC ∧
      (fl fs = some fs → codec .binary64 (-fs) fs 14 16 true = some 0 ∧ codec .binary64 0 fs 14 16 true = some 0x8000 ∧
        codec .binary64 fs fs 14 16 true = some 0xFFFC)

/-! ## DDS -/

/-- 42_dds.md R160 to R163: DDS.TONE. The checks in their order; past them the tone frame with the three words. -/
def Obligations.DdsToneFollowsRule : Prop :=
  ∀ (s : State) (amp ampRef phase freq sysclk : Quantity),
    [amp, ampRef, phase, freq, sysclk].all (Quantity.expressible s.cfg.numerics) = true →
    (finites? s.cfg.numerics [amp, ampRef, phase, freq, sysclk] = none →
      Answers (.ddsTone amp ampRef phase freq sysclk) s (.err (.outOfRange .nonfinite))) ∧
    ∀ a r p f k, finites? s.cfg.numerics [amp, ampRef, phase, freq, sysclk] = some [a, r, p, f, k] →
      (r ≤ 0 ∨ k ≤ 0 → Answers (.ddsTone amp ampRef phase freq sysclk) s (.err (.outOfRange .reference))) ∧
      (0 < r → 0 < k → ¬ (0 ≤ a ∧ a ≤ r ∧ 0 ≤ f ∧ f ≤ k) →
        Answers (.ddsTone amp ampRef phase freq sysclk) s (.err (.outOfRange .value))) ∧
      (0 < r → 0 < k → 0 ≤ a → a ≤ r → 0 ≤ f → f ≤ k →
        ∃ wa wp wf, codec s.cfg.numerics a r 14 14 false = some wa ∧
          codec s.cfg.numerics (red360 s.cfg.numerics p) 360 16 16 false = some wp ∧
          codec s.cfg.numerics f k 32 32 false = some wf ∧
          Emits (.ddsTone amp ampRef phase freq sysclk) s
            ([s.cfg.ddsInd, s.cfg.codes.opTone] ++ dec wa ++ [0x2C] ++ dec wp ++ [0x2C] ++ dec wf ++ [0x21]))

/-- 40_codec.md R118, 42_dds.md R162: the reduced phase is the floor-modulus, under BINARY64 rounded once with 360 taken
as 0; it lies in [0, 360) under either arithmetic, whole turns encode as 0, and under EXACT the phase word is the floor
of the reduced phase over a full turn, the same for phases a whole number of turns apart. -/
def Obligations.PhaseWordIsCircular : Prop :=
  (∀ p : Rat, red360 .exact p = p - 360 * (⌊p / 360⌋ : Rat)) ∧
  (∀ p : Rat, ∃ x, fl (p - 360 * (⌊p / 360⌋ : Rat)) = some x ∧ red360 .binary64 p = if x = 360 then 0 else x) ∧
  (∀ (m : Numerics) (p : Rat), 0 ≤ red360 m p ∧ red360 m p < 360) ∧
  (∀ (m : Numerics) (k : Int), pow m (360 * k) = some 0) ∧
  (∀ p : Rat, pow .exact p = some (Int.toNat ⌊(p / 360 - (⌊p / 360⌋ : Rat)) * 65536⌋)) ∧
  ∀ (p : Rat) (k : Int), pow .exact (p + 360 * k) = pow .exact p

/-- 42_dds.md R164 to R167: DDS.RAMP. The checks in their order; past them the two frames as one unit. The step checks are
stated where `stop - start` stays in the number format (log 13). -/
def Obligations.DdsRampFollowsRule : Prop :=
  ∀ (s : State) (param : BitVec 2) (start stop dec' inc nr pr ref : Quantity),
    [start, stop, dec', inc, nr, pr, ref].all (Quantity.expressible s.cfg.numerics) = true →
    (param = 3 →
      Answers (.ddsRamp param start stop dec' inc nr pr ref) s (.err (.unsupportedParameter .rampParameter))) ∧
    (param ≠ 3 → finites? s.cfg.numerics [start, stop, dec', inc, nr, pr, ref] = none →
      Answers (.ddsRamp param start stop dec' inc nr pr ref) s (.err (.outOfRange .nonfinite))) ∧
    ∀ p a b d c rn rp rf, (param, p) ∈ parameterRows →
      finites? s.cfg.numerics [start, stop, dec', inc, nr, pr, ref] = some [a, b, d, c, rn, rp, rf] →
      (¬ a < b →
        Answers (.ddsRamp param start stop dec' inc nr pr ref) s (.err (.invalidRampBounds .startNotBelowStop))) ∧
      ∀ diff, rnd s.cfg.numerics (b - a) = some diff → a < b →
        (¬ c ≤ diff →
          Answers (.ddsRamp param start stop dec' inc nr pr ref) s (.err (.invalidRampBounds .incrementTooLarge))) ∧
        (c ≤ diff → ¬ d ≤ diff →
          Answers (.ddsRamp param start stop dec' inc nr pr ref) s (.err (.invalidRampBounds .decrementTooLarge))) ∧
        (c ≤ diff → d ≤ diff → p ≠ .phase → rf ≤ 0 →
          Answers (.ddsRamp param start stop dec' inc nr pr ref) s (.err (.outOfRange .reference))) ∧
        ∀ (n : Nat) (fs : Rat), c ≤ diff → d ≤ diff →
          (p = .frequency ∧ n = 32 ∧ fs = rf ∧ 0 < rf ∨ p = .phase ∧ n = 16 ∧ fs = 360 ∨
            p = .amplitude ∧ n = 14 ∧ fs = rf ∧ 0 < rf) →
          (¬ (∀ x ∈ [a, b, d, c], 0 ≤ x ∧ x ≤ fs) →
            Answers (.ddsRamp param start stop dec' inc nr pr ref) s (.err (.outOfRange .value))) ∧
          ((∀ x ∈ [a, b, d, c], 0 ≤ x ∧ x ≤ fs) →
            (¬ (∃ k1 k2 : Nat, rn = k1 ∧ rp = k2 ∧ k1 ≤ 65535 ∧ k2 ≤ 65535) →
              Answers (.ddsRamp param start stop dec' inc nr pr ref) s (.err (.outOfRange .rate))) ∧
            ∀ k1 k2 : Nat, rn = k1 → rp = k2 → k1 ≤ 65535 → k2 ≤ 65535 →
              ∃ ws we wd wi, codec s.cfg.numerics a fs n n false = some ws ∧
                codec s.cfg.numerics b fs n n false = some we ∧ codec s.cfg.numerics d fs n n false = some wd ∧
                codec s.cfg.numerics c fs n n false = some wi ∧
                Emits (.ddsRamp param start stop dec' inc nr pr ref) s
                  ([s.cfg.ddsInd, s.cfg.codes.opDrg, s.cfg.codes.subSetup, paramCode s.cfg.codes p, 0x21] ++
                    [s.cfg.ddsInd, s.cfg.codes.opDrg, s.cfg.codes.subParams, paramCode s.cfg.codes p] ++
                    dec ws ++ [0x2C] ++ dec we ++ [0x2C] ++ dec wd ++ [0x2C] ++ dec wi ++ [0x2C] ++
                    dec k1 ++ [0x2C] ++ dec k2 ++ [0x21]))

/-- 42_dds.md R168 to R170, 70_reset_and_hazards.md R272: DDS.LOAD, DDS.RESET and DDS.RAMPOFF emit their frames from every
state, and change nothing else: DDS.RESET resets nothing in the block. -/
def Obligations.FixedDdsCommands : Prop :=
  ∀ s : State, Emits .ddsLoad s [s.cfg.ddsInd, s.cfg.codes.opLoad, 0x21] ∧
    Emits .ddsReset s [s.cfg.ddsInd, s.cfg.codes.opReset, 0x21] ∧
    Emits .ddsRampoff s [s.cfg.ddsInd, s.cfg.codes.opDrg, s.cfg.codes.subDisable, 0x21]

/-- 70_reset_and_hazards.md R280: a legal ramp whose words break the ramp bound by one, because `stop = FS` saturates. -/
def Obligations.SaturatedRampBreaksWordBound : Prop :=
  ∀ s : State, s.cfg = .standard →
    Emits (.ddsRamp 2 (.real (1 / 4)) (.real 1) (.real (1 / 2)) (.real (3 / 4)) (.real 1) (.real 1) (.real 1)) s
      ([0x64, 0x6F, 0x73, 0x61, 0x21] ++ [0x64, 0x6F, 0x70, 0x61] ++ dec 4096 ++ [0x2C] ++ dec 16383 ++ [0x2C] ++
        dec 8192 ++ [0x2C] ++ dec 12288 ++ [0x2C] ++ dec 1 ++ [0x2C] ++ dec 1 ++ [0x21]) ∧
      12288 > 16383 - 4096

/-! ## Framer and parser -/

/-- 43_framer_parser.md R200: FRAME. -/
def Obligations.FrameFollowsRule : Prop :=
  ∀ (s : State) (dev opc : Byte) (payload : List Byte),
    (dev = 0x21 → Answers (.frame dev opc payload) s (.err (.framingError .terminatorInPayload 0))) ∧
    (dev ≠ 0x21 → opc = 0x21 → Answers (.frame dev opc payload) s (.err (.framingError .terminatorInPayload 1))) ∧
    (dev ≠ 0x21 → opc ≠ 0x21 → ¬ (s.cfg.wireForm = .binary ∧ dev = 0x44 ∧ opc = s.cfg.codes.opDacWrite) →
      ∀ pre post, payload = pre ++ 0x21 :: post → 0x21 ∉ pre →
        Answers (.frame dev opc payload) s (.err (.framingError .terminatorInPayload (2 + pre.length)))) ∧
    (dev ≠ 0x21 → opc ≠ 0x21 →
      (s.cfg.wireForm = .binary ∧ dev = 0x44 ∧ opc = s.cfg.codes.opDacWrite ∨ 0x21 ∉ payload) →
        Answers (.frame dev opc payload) s (.ok (.bytes ([dev, opc] ++ payload ++ [0x21]))))

/-- 43_framer_parser.md R202 to R206, R209: RX, state by state, with the parser state that each byte leads to. -/
def Obligations.RxFollowsStageOne : Prop :=
  ∀ (s : State) (b : Byte),
    (s.parser.pstate = .expectDevice →
      ((b = 0x44 ∨ b = s.cfg.ddsInd) → exec (.rx b) s = .next ((s.setParser { s.parser with
        pdev := some b, poff := 1, pstate := .expectOpcode }).answer (.ok .pending))) ∧
      (¬ (b = 0x44 ∨ b = s.cfg.ddsInd) → exec (.rx b) s = .next ((s.setParser (errorParser b)).answer
        (.err (.framingError .badDevice s.parser.poff))))) ∧
    (∀ d, s.parser.pstate = .expectOpcode → s.parser.pdev = some d →
      (listedOpcode s.cfg (some d) b = true → exec (.rx b) s = .next ((s.setParser { s.parser with
        popc := some b, pbuf := [],
        pbin := decide (s.cfg.wireForm = .binary ∧ d = 0x44 ∧ b = s.cfg.codes.opDacWrite),
        poff := 2, pstate := .readPayload }).answer (.ok .pending))) ∧
      (listedOpcode s.cfg (some d) b = false → exec (.rx b) s = .next ((s.setParser (errorParser b)).answer
        (.err (.framingError .badOpcode s.parser.poff))))) ∧
    (s.parser.pstate = .readPayload → s.parser.pbin = false → b ≠ 0x21 →
      (s.parser.pbuf.length = 64 → exec (.rx b) s = .next ((s.setParser (errorParser b)).answer
        (.err (.framingError .overlong s.parser.poff)))) ∧
      (s.parser.pbuf.length ≠ 64 → (b < 0x20 ∨ 0x7E < b) → exec (.rx b) s = .next ((s.setParser (errorParser b)).answer
        (.err (.framingError .badPayloadByte s.parser.poff)))) ∧
      (s.parser.pbuf.length ≠ 64 → 0x20 ≤ b → b ≤ 0x7E → exec (.rx b) s = .next ((s.setParser { s.parser with
        pbuf := s.parser.pbuf ++ [b], poff := s.parser.poff + 1 }).answer (.ok .pending)))) ∧
    (s.parser.pstate = .readPayload → s.parser.pbin = true → exec (.rx b) s = .next ((s.setParser { s.parser with
        pbuf := s.parser.pbuf ++ [b], poff := s.parser.poff + 1,
        pstate := if s.parser.pbuf.length + 1 = 3 then .expectTerminator else .readPayload }).answer
          (.ok .pending))) ∧
    (s.parser.pstate = .expectTerminator → b ≠ 0x21 → exec (.rx b) s = .next ((s.setParser (errorParser b)).answer
        (.err (.framingError .badTerminator s.parser.poff)))) ∧
    (∀ d o, s.parser.pdev = some d → s.parser.popc = some o → b = 0x21 →
      (s.parser.pstate = .readPayload ∧ s.parser.pbin = false ∨ s.parser.pstate = .expectTerminator) →
      exec (.rx b) s = finish ((interpret s.cfg d o s.parser.pbuf s.parser.poff).map .command) (s.setParser .reset))

/-- 43_framer_parser.md R210: after a stage-1 error the parser discards to the next terminator, which RX reports as
pending, and is then back in ExpectDevice with its reset values. -/
def Obligations.RxDiscardsToTerminator : Prop :=
  ∀ (s : State) (b : Byte),
    (∀ r off, (step1 s.cfg s.parser b).2 = .error r off →
      (b ≠ 0x21 → (step1 s.cfg s.parser b).1 = ⟨.discard, none, none, [], false, 0⟩) ∧
      (b = 0x21 → (step1 s.cfg s.parser b).1 = ⟨.expectDevice, none, none, [], false, 0⟩)) ∧
    (s.parser = ⟨.discard, none, none, [], false, 0⟩ →
      (b ≠ 0x21 → exec (.rx b) s = .next (s.answer (.ok .pending))) ∧
      (b = 0x21 → exec (.rx b) s = .next
        ((s.setParser ⟨.expectDevice, none, none, [], false, 0⟩).answer (.ok .pending))))

/-- 70_reset_and_hazards.md R275: in the text form a terminator brings the parser to its reset values from every state
that stage 1 can be in, so that the next frame is read from its start. -/
def Obligations.TextFormResynchronises : Prop :=
  ∀ s : State, s.cfg.legal = true → s.cfg.wireForm = .text → s.parser.wf s.cfg = true →
    ∃ r, exec (.rx 0x21) s = .next ((s.setParser .reset).answer r)

/-- 43_framer_parser.md R220, 30_encoding.md R90: `field` accepts exactly the canonical spelling of a number below its
bound, and a payload of decimal fields is read back as the numbers it denotes. -/
def Obligations.FieldReadsExactlyDec : Prop :=
  (∀ (s : List Byte) (bound n : Nat), field s bound = some n ↔ s = dec n ∧ n < bound) ∧
  ∀ (ns bounds : List Nat), ns ≠ [] → List.Forall₂ (· < ·) ns bounds → fields (joinFields ns) bounds = some ns

/-- 43_framer_parser.md R208: PARSE, for every sequence. After bytes that stage 1 takes from its reset values without an
event, the sequence that ends there is UNTERMINATED, and the next byte's event decides: a stage-1 error is raised with its
offset, a frame with bytes after it is TRAILING, and a frame at the end is interpreted. -/
def Obligations.ParseFollowsRule : Prop :=
  ∀ (s : State) (pre : List Byte) (p : Parser), Parser.reset.taking s.cfg pre = some p →
    Answers (.parse pre) s (.err (.framingError .unterminated pre.length)) ∧
    ∀ (b : Byte) (rest : List Byte),
      (∀ r off, (step1 s.cfg p b).2 = .error r off →
        Answers (.parse (pre ++ b :: rest)) s (.err (.framingError r off))) ∧
      ∀ dev opc payload off, (step1 s.cfg p b).2 = .frame dev opc payload off →
        (rest ≠ [] → Answers (.parse (pre ++ b :: rest)) s (.err (.framingError .trailing (pre.length + 1)))) ∧
        (rest = [] →
          exec (.parse (pre ++ b :: rest)) s = finish ((interpret s.cfg dev opc payload off).map .command) s)

/-- 30_encoding.md R74, R77, 43_framer_parser.md R204 to R206, R208: the stage-1 errors of PARSE, spelled out. In a text
payload a byte that is not printable is BAD_PAYLOAD_BYTE and a byte after 64 others OVERLONG, each at its own offset; in
the binary DAC write frame a byte other than the terminator at offset 5 is BAD_TERMINATOR. -/
def Obligations.ParseStageErrorsAreNamed : Prop :=
  ∀ (s : State) (dev opc b : Byte) (payload rest : List Byte), s.cfg.legal = true →
    (dev = 0x44 ∧ opc ∈ [s.cfg.codes.opDacInit, s.cfg.codes.opDacWrite] ∨
      dev = s.cfg.ddsInd ∧ opc ∈ [s.cfg.codes.opTone, s.cfg.codes.opDrg, s.cfg.codes.opLoad, s.cfg.codes.opReset]) →
    b ≠ 0x21 →
    (¬ (s.cfg.wireForm = .binary ∧ dev = 0x44 ∧ opc = s.cfg.codes.opDacWrite) → payload.all payloadByte = true →
      (payload.length < 64 → (b < 0x20 ∨ 0x7E < b) → Answers (.parse ([dev, opc] ++ payload ++ b :: rest)) s
        (.err (.framingError .badPayloadByte (2 + payload.length)))) ∧
      (payload.length = 64 → Answers (.parse ([dev, opc] ++ payload ++ b :: rest)) s
        (.err (.framingError .overlong 66)))) ∧
    (s.cfg.wireForm = .binary → dev = 0x44 → opc = s.cfg.codes.opDacWrite → payload.length = 3 →
      Answers (.parse ([dev, opc] ++ payload ++ b :: rest)) s (.err (.framingError .badTerminator 5)))

/-- 43_framer_parser.md R208: where PARSE accepts `f`, it raises TRAILING at the end of `f` on every longer sequence, and
UNTERMINATED at its length on every proper prefix. -/
def Obligations.ParseTrailingAndUnterminated : Prop :=
  ∀ (s : State) (f x : List Byte) (c : ParsedCommand), Answers (.parse f) s (.ok (.command c)) →
    (x ≠ [] → Answers (.parse (f ++ x)) s (.err (.framingError .trailing f.length))) ∧
      ∀ k, k < f.length → Answers (.parse (f.take k)) s (.err (.framingError .unterminated k))

/-- 43_framer_parser.md R221 (b): where `(dev, opc, payload)` are those of a frame that satisfies 30_encoding.md R75 to R91,
FRAME frames them and PARSE of the frame answers the command with exactly those fields, decoded; and every command that
PARSE returns for a framed triple has its fields. -/
def Obligations.ParseRecoversFramedFields : Prop :=
  ∀ (s : State) (dev opc : Byte) (payload : List Byte),
    (∀ d, s.cfg.legal = true → LegalFrame s.cfg dev opc payload d →
      Answers (.frame dev opc payload) s (.ok (.bytes ([dev, opc] ++ payload ++ [0x21]))) ∧
        exec (.parse ([dev, opc] ++ payload ++ [0x21])) s =
          .next (s.answer (.ok (.command ⟨dev, opc, payload, 0x21, d⟩)))) ∧
    ∀ c, Answers (.parse ([dev, opc] ++ payload ++ [0x21])) s (.ok (.command c)) →
      c.deviceIndicator = dev ∧ c.opcode = opc ∧ c.payload = payload ∧ c.terminator = 0x21

/-- 43_framer_parser.md R221 (a): PARSE accepts every frame that a builder emits under the same legal configuration; the
command's fields spell the frame, and its decoded form holds the codes and words that the builder computed. For DDS.RAMP
this holds of each of its two frames. -/
def Obligations.BuilderFramesParseBack : Prop :=
  ∀ (s t : State) (i : Instr) (f : List Byte), s.cfg.legal = true → isBuilder i = true → exec i s = .next t →
    t.result = some (.ok (.bytes f)) →
      (¬ isRamp i → ∃ c, ParsesTo t f c ∧ Built s.cfg i c.decoded) ∧
      (isRamp i → ∃ f1 f2 c1 c2, f = f1 ++ f2 ∧ ParsesTo t f1 c1 ∧ ParsesTo t f2 c2 ∧
        BuiltRamp s.cfg i c1.decoded c2.decoded)

/-- 43_framer_parser.md R221 (c): fed byte by byte from the parser's reset values, a concatenation of frames that PARSE
accepts gives one parsed command per frame, in order, and the parser is back at its reset values. -/
def Obligations.StreamingGivesOneCommandPerFrame : Prop :=
  ∀ (s : State) (frames : List (List Byte)) (cmds : List ParsedCommand), s.parser = .reset →
    frames.map (parseReply s.cfg) = cmds.map .ok →
      ∃ t rs, s.feed frames.flatten = some (t, rs) ∧ rs.length = frames.flatten.length ∧
        rs.filter (· != .ok .pending) = cmds.map (fun c => .ok (.command c)) ∧ t.parser = .reset ∧ t.tx = s.tx

/-- 30_encoding.md R97, 00_scope.md R14: the lengths of the frames that builders emit. -/
def Obligations.FrameLengths : Prop :=
  ∀ (s t : State) (i : Instr) (f : List Byte), exec i s = .next t → t.result = some (.ok (.bytes f)) →
    (∀ g p, i = .dacInit g p → f.length = 5) ∧
    (∀ a v r g p, i = .dacWrite a v r g p →
      (s.cfg.wireForm = .text → 5 ≤ f.length ∧ f.length ≤ 9) ∧ (s.cfg.wireForm = .binary → f.length = 6)) ∧
    (∀ a r p q k, i = .ddsTone a r p q k → 8 ≤ f.length ∧ f.length ≤ 25) ∧
    (∀ p a b d c nr pr r, i = .ddsRamp p a b d c nr pr r → 5 + 16 ≤ f.length ∧ f.length ≤ 5 + 60) ∧
    (i = .ddsLoad ∨ i = .ddsReset → f.length = 3) ∧ (i = .ddsRampoff → f.length = 4)

/-! ## Wire frames. That a wire frame presented whole is read as PARSE reads it is the model's choice (log 6). -/

/-- 30_encoding.md R75, 43_framer_parser.md R207: the DAC init frame, and the errors of a payload that is none: an
unlisted polarity or gain code, and every printable payload of another length. -/
def Obligations.DacInitFrameIsRead : Prop :=
  ∀ (s : State), s.cfg.legal = true →
    (∀ p g, Answers (.frameDacInit [polCode s.cfg.codes p, gainCode s.cfg.codes g, 0x21]) s
      (.ok (.command ⟨0x44, s.cfg.codes.opDacInit, [polCode s.cfg.codes p, gainCode s.cfg.codes g], 0x21,
        .dacInit p g⟩))) ∧
    ∀ b0 b1, payloadByte b0 = true → payloadByte b1 = true →
      (polOfCode s.cfg.codes b0 = none →
        Answers (.frameDacInit [b0, b1, 0x21]) s (.err (.unsupportedParameter .polarity))) ∧
      (∀ p, polOfCode s.cfg.codes b0 = some p → gainOfCode s.cfg.codes b1 = none →
        Answers (.frameDacInit [b0, b1, 0x21]) s (.err .unsupportedGainMode)) ∧
      ∀ payload : List Byte, payload.all payloadByte = true → payload.length ≤ 64 → payload.length ≠ 2 →
        Answers (.frameDacInit (payload ++ [0x21])) s (.err (.framingError .badField (2 + payload.length)))

/-- 30_encoding.md R76, R77, R91, R94, 43_framer_parser.md R207: the DAC write frames, each in its wire form: words that
are multiples of 4 are read, others are BAD_FIELD. `DacWriteFrameErrorsAreNamed` states the other errors. -/
def Obligations.DacWriteFrameIsRead : Prop :=
  ∀ (s : State) (a : DeviceAddress) (w : Nat), s.cfg.legal = true → w < 2 ^ 16 →
    (s.cfg.wireForm = .text →
      (w % 4 = 0 → Answers (.frameDacWriteText (addrCode s.cfg.codes a :: dec w ++ [0x21])) s
        (.ok (.command ⟨0x44, s.cfg.codes.opDacWrite, addrCode s.cfg.codes a :: dec w, 0x21, .dacWrite a w⟩))) ∧
      (w % 4 ≠ 0 → Answers (.frameDacWriteText (addrCode s.cfg.codes a :: dec w ++ [0x21])) s
        (.err (.framingError .badField (3 + (dec w).length))))) ∧
    (s.cfg.wireForm = .binary →
      (w % 4 = 0 →
        Answers (.frameDacWriteBinary [addrCode s.cfg.codes a, BitVec.ofNat 8 (w / 256), BitVec.ofNat 8 w, 0x21]) s
          (.ok (.command ⟨0x44, s.cfg.codes.opDacWrite,
            [addrCode s.cfg.codes a, BitVec.ofNat 8 (w / 256), BitVec.ofNat 8 w], 0x21, .dacWrite a w⟩))) ∧
      (w % 4 ≠ 0 →
        Answers (.frameDacWriteBinary [addrCode s.cfg.codes a, BitVec.ofNat 8 (w / 256), BitVec.ofNat 8 w, 0x21]) s
          (.err (.framingError .badField 5))))

/-- 30_encoding.md R91, R93, 43_framer_parser.md R207: the errors of the DAC write frames. An address byte in no row is the
error ADDRESS, in the text form where a byte follows it. In the text form a payload of fewer than two bytes, and what is
not the numeral of a multiple of 4 below 2^16, are BAD_FIELD at the terminator's offset. -/
def Obligations.DacWriteFrameErrorsAreNamed : Prop :=
  ∀ s : State, s.cfg.legal = true →
    (s.cfg.wireForm = .text →
      Answers (.frameDacWriteText [0x21]) s (.err (.framingError .badField 2)) ∧
      (∀ b, payloadByte b = true → Answers (.frameDacWriteText [b, 0x21]) s (.err (.framingError .badField 3))) ∧
      (∀ b ds, payloadByte b = true → ds.all payloadByte = true → ds ≠ [] → ds.length ≤ 63 →
        b ∉ [s.cfg.codes.dacA, s.cfg.codes.dacB, s.cfg.codes.dacBoth] →
          Answers (.frameDacWriteText (b :: ds ++ [0x21])) s (.err (.unsupportedParameter .address))) ∧
      ∀ (a : DeviceAddress) (ds : List Byte), ds.all payloadByte = true → ds.length ≤ 63 →
        (¬ ∃ w, w < 2 ^ 16 ∧ w % 4 = 0 ∧ ds = dec w) →
          Answers (.frameDacWriteText (addrCode s.cfg.codes a :: ds ++ [0x21])) s
            (.err (.framingError .badField (3 + ds.length)))) ∧
    (s.cfg.wireForm = .binary → ∀ b hi lo : Byte, b ∉ [s.cfg.codes.dacA, s.cfg.codes.dacB, s.cfg.codes.dacBoth] →
      Answers (.frameDacWriteBinary [b, hi, lo, 0x21]) s (.err (.unsupportedParameter .address)))

/-- 30_encoding.md R78, R91, 43_framer_parser.md R207: the single-tone frame: words within their bounds are read, and every
printable payload that is not three numerals within their bounds is BAD_FIELD. -/
def Obligations.ToneFrameIsRead : Prop :=
  ∀ (s : State) (a p f : Nat), s.cfg.legal = true →
    (∀ payload : List Byte, payload.all payloadByte = true → payload.length ≤ 64 →
      (¬ ∃ ns, List.Forall₂ (· < ·) ns [2 ^ 14, 2 ^ 16, 2 ^ 32] ∧ payload = joinFields ns) →
        Answers (.frameDdsTone (payload ++ [0x21])) s (.err (.framingError .badField (2 + payload.length)))) ∧
    (a < 2 ^ 14 → p < 2 ^ 16 → f < 2 ^ 32 →
      Answers (.frameDdsTone (dec a ++ [0x2C] ++ dec p ++ [0x2C] ++ dec f ++ [0x21])) s
        (.ok (.command ⟨s.cfg.ddsInd, s.cfg.codes.opTone, dec a ++ [0x2C] ++ dec p ++ [0x2C] ++ dec f, 0x21,
          .ddsTone a p f⟩))) ∧
    (¬ (a < 2 ^ 14 ∧ p < 2 ^ 16 ∧ f < 2 ^ 32) → (dec a ++ [0x2C] ++ dec p ++ [0x2C] ++ dec f).length ≤ 64 →
      Answers (.frameDdsTone (dec a ++ [0x2C] ++ dec p ++ [0x2C] ++ dec f ++ [0x21])) s
        (.err (.framingError .badField (2 + (dec a ++ [0x2C] ++ dec p ++ [0x2C] ++ dec f).length))))

/-- 30_encoding.md R85 to R87, R91, 43_framer_parser.md R207, R222: the DRG frames. The ramp words need not satisfy the
ramp bounds. -/
def Obligations.RampFramesAreRead : Prop :=
  ∀ (s : State) (p : RampParameter), s.cfg.legal = true →
    Answers (.frameDdsRampSetup [paramCode s.cfg.codes p, 0x21]) s
      (.ok (.command ⟨s.cfg.ddsInd, s.cfg.codes.opDrg, [s.cfg.codes.subSetup, paramCode s.cfg.codes p], 0x21,
        .rampSetup p⟩)) ∧
    Answers (.frameDdsRampDisable [0x21]) s
      (.ok (.command ⟨s.cfg.ddsInd, s.cfg.codes.opDrg, [s.cfg.codes.subDisable], 0x21, .rampDisable⟩)) ∧
    ∀ k ws we wd wi rn rp : Nat,
      (p = .frequency ∧ k = 2 ^ 32 ∨ p = .phase ∧ k = 2 ^ 16 ∨ p = .amplitude ∧ k = 2 ^ 14) →
      (∀ w ∈ [ws, we, wd, wi], w < k) → rn < 2 ^ 16 → rp < 2 ^ 16 →
      Answers (.frameDdsRampParams (paramCode s.cfg.codes p :: joinFields [ws, we, wd, wi, rn, rp] ++ [0x21])) s
        (.ok (.command ⟨s.cfg.ddsInd, s.cfg.codes.opDrg,
          s.cfg.codes.subParams :: paramCode s.cfg.codes p :: joinFields [ws, we, wd, wi, rn, rp], 0x21,
          .rampParams p ws we wd wi rn rp⟩))

/-- 30_encoding.md R91, R93, 43_framer_parser.md R207: the errors of the three DRG frames, at the terminator's offset. A
parameter byte in no row is the error RAMP_PARAMETER; a setup payload of another length, bytes after the disable
sub-opcode, a missing parameter byte, and fields that are not six numerals within their bounds are BAD_FIELD. -/
def Obligations.RampFrameErrorsAreNamed : Prop :=
  ∀ s : State, s.cfg.legal = true →
    (∀ b rest, payloadByte b = true → rest.all payloadByte = true → rest.length ≤ 62 →
      b ∉ [s.cfg.codes.frequency, s.cfg.codes.phase, s.cfg.codes.amplitude] →
        (rest = [] → Answers (.frameDdsRampSetup [b, 0x21]) s (.err (.unsupportedParameter .rampParameter))) ∧
        Answers (.frameDdsRampParams (b :: rest ++ [0x21])) s (.err (.unsupportedParameter .rampParameter))) ∧
    (∀ rest : List Byte, rest.all payloadByte = true → rest.length ≤ 63 → rest.length ≠ 1 →
      Answers (.frameDdsRampSetup (rest ++ [0x21])) s (.err (.framingError .badField (3 + rest.length)))) ∧
    (∀ rest : List Byte, rest.all payloadByte = true → rest.length ≤ 63 → rest ≠ [] →
      Answers (.frameDdsRampDisable (rest ++ [0x21])) s (.err (.framingError .badField (3 + rest.length)))) ∧
    Answers (.frameDdsRampParams [0x21]) s (.err (.framingError .badField 3)) ∧
    ∀ (p : RampParameter) (rest : List Byte), rest.all payloadByte = true → rest.length ≤ 62 →
      (¬ ∃ ns, List.Forall₂ (· < ·) ns (rampBounds p) ∧ rest = joinFields ns) →
        Answers (.frameDdsRampParams (paramCode s.cfg.codes p :: rest ++ [0x21])) s
          (.err (.framingError .badField (4 + rest.length)))

/-- 30_encoding.md R88, R89, 43_framer_parser.md R207, R208: the load and reset frames; bytes after the terminator are
TRAILING. With a payload such a frame has no row's header (spec/opcode_table.json puts the terminator into it), so it is
read as PARSE (log 6), which raises BAD_FIELD at the terminator's offset. -/
def Obligations.LoadAndResetFramesAreRead : Prop :=
  ∀ s : State, s.cfg.legal = true →
    Answers (.frameDdsLoad []) s (.ok (.command ⟨s.cfg.ddsInd, s.cfg.codes.opLoad, [], 0x21, .load⟩)) ∧
    Answers (.frameDdsReset []) s (.ok (.command ⟨s.cfg.ddsInd, s.cfg.codes.opReset, [], 0x21, .reset⟩)) ∧
    (∀ b rest, Answers (.frameDdsLoad (b :: rest)) s (.err (.framingError .trailing 3)) ∧
      Answers (.frameDdsReset (b :: rest)) s (.err (.framingError .trailing 3))) ∧
    ∀ (o : Byte) (p : List Byte), o = s.cfg.codes.opLoad ∨ o = s.cfg.codes.opReset → p ≠ [] →
      p.all payloadByte = true → p.length ≤ 64 →
        decode s.cfg (.wire ([s.cfg.ddsInd, o] ++ p ++ [0x21])) = .ok (.parse ([s.cfg.ddsInd, o] ++ p ++ [0x21])) ∧
          Answers (.parse ([s.cfg.ddsInd, o] ++ p ++ [0x21])) s (.err (.framingError .badField (2 + p.length)))

/-- The model's choice (log 6): each wire-frame row is read exactly as PARSE reads its header and the bytes after it, so
that what holds of PARSE holds of every form of the row. -/
def Obligations.WireFramesReadAsParse : Prop :=
  ∀ (s : State) (rest : List Byte),
    exec (.frameDacInit rest) s = exec (.parse ([0x44, s.cfg.codes.opDacInit] ++ rest)) s ∧
    exec (.frameDacWriteText rest) s = exec (.parse ([0x44, s.cfg.codes.opDacWrite] ++ rest)) s ∧
    exec (.frameDacWriteBinary rest) s = exec (.parse ([0x44, s.cfg.codes.opDacWrite] ++ rest)) s ∧
    exec (.frameDdsTone rest) s = exec (.parse ([s.cfg.ddsInd, s.cfg.codes.opTone] ++ rest)) s ∧
    exec (.frameDdsRampSetup rest) s =
      exec (.parse ([s.cfg.ddsInd, s.cfg.codes.opDrg, s.cfg.codes.subSetup] ++ rest)) s ∧
    exec (.frameDdsRampParams rest) s =
      exec (.parse ([s.cfg.ddsInd, s.cfg.codes.opDrg, s.cfg.codes.subParams] ++ rest)) s ∧
    exec (.frameDdsRampDisable rest) s =
      exec (.parse ([s.cfg.ddsInd, s.cfg.codes.opDrg, s.cfg.codes.subDisable] ++ rest)) s ∧
    exec (.frameDdsLoad rest) s = exec (.parse ([s.cfg.ddsInd, s.cfg.codes.opLoad, 0x21] ++ rest)) s ∧
    exec (.frameDdsReset rest) s = exec (.parse ([s.cfg.ddsInd, s.cfg.codes.opReset, 0x21] ++ rest)) s

/-- 30_encoding.md R93, 43_framer_parser.md R202, R203, R207: PARSE names the illegal header: the device, the opcode, a
missing or unlisted DRG sub-opcode. -/
def Obligations.IllegalHeadersAreNamed : Prop :=
  ∀ (s : State) (b o : Byte) (rest : List Byte), s.cfg.legal = true →
    (b ≠ 0x44 → b ≠ s.cfg.ddsInd → Answers (.parse (b :: rest)) s (.err (.framingError .badDevice 0))) ∧
    (o ∉ [s.cfg.codes.opDacInit, s.cfg.codes.opDacWrite] →
      Answers (.parse (0x44 :: o :: rest)) s (.err (.framingError .badOpcode 1))) ∧
    (o ∉ [s.cfg.codes.opTone, s.cfg.codes.opDrg, s.cfg.codes.opLoad, s.cfg.codes.opReset] →
      Answers (.parse (s.cfg.ddsInd :: o :: rest)) s (.err (.framingError .badOpcode 1))) ∧
    Answers (.parse [s.cfg.ddsInd, s.cfg.codes.opDrg, 0x21]) s (.err (.framingError .badSubopcode 2)) ∧
    (payloadByte b = true → b ∉ [s.cfg.codes.subSetup, s.cfg.codes.subParams, s.cfg.codes.subDisable] →
      ∀ payload : List Byte, payload.all payloadByte = true → payload.length ≤ 63 →
        Answers (.parse ([s.cfg.ddsInd, s.cfg.codes.opDrg, b] ++ payload ++ [0x21])) s
          (.err (.framingError .badSubopcode (3 + payload.length))))

/-! ## Codes of errors -/

/-- 60_exceptions.md R240, R241, R243: kind codes, reason codes, and the offset of `FramingError` alone. -/
def Obligations.ErrorCodes : Prop :=
  (∀ v, (Result.ok v).kindCode = 0) ∧ (∀ r, (Err.outOfRange r).kindCode = 1) ∧
    (∀ r, (Err.invalidRampBounds r).kindCode = 2) ∧ (∀ r off, (Err.framingError r off).kindCode = 3) ∧
    Err.unsupportedGainMode.kindCode = 4 ∧ (∀ r, (Err.unsupportedParameter r).kindCode = 5) ∧
    [RangeReason.value, .reference, .width, .rate, .nonfinite].map (fun r => (Err.outOfRange r).reasonCode) =
      [1, 2, 3, 4, 5] ∧
    [RampReason.startNotBelowStop, .incrementTooLarge, .decrementTooLarge].map
      (fun r => (Err.invalidRampBounds r).reasonCode) = [1, 2, 3] ∧
    [FramingReason.badDevice, .badOpcode, .badPayloadByte, .overlong, .badTerminator, .unterminated, .trailing,
      .badField, .terminatorInPayload, .badSubopcode].map (fun r => (Err.framingError r 0).reasonCode) =
      [1, 2, 3, 4, 5, 6, 7, 8, 9, 10] ∧
    Err.unsupportedGainMode.reasonCode = 1 ∧
    [ParameterReason.polarity, .address, .rampParameter].map (fun r => (Err.unsupportedParameter r).reasonCode) =
      [2, 3, 4] ∧
    ∀ e : Err, e.offset?.isSome = true ↔ ∃ r off, e = .framingError r off
end

