-- ==== Sys2Proof/Laws/Decode.lean ====
section
/-!
SUPPORT. Lemmas of decoding: one for each wire row, by its header.
-/

namespace Sys2Proof

theorem decodeFrame_dac (cfg : Config) (s : List Byte) :
    decodeFrame cfg (dacInd :: s) = decodeDacFrame cfg s := by
  simp [decodeFrame]

theorem decodeFrame_dds {cfg : Config} (h : cfg.ddsInd ≠ dacInd) (s : List Byte) :
    decodeFrame cfg (cfg.ddsInd :: s) = decodeDdsFrame cfg.codes s := by
  simp [decodeFrame, h]

/-- What legality says of the indicators and the opcode tables. -/
theorem Config.legal_headers {cfg : Config} (h : cfg.legal = true) :
    cfg.ddsInd ≠ dacInd ∧ cfg.ddsInd ≠ terminator ∧ cfg.codes.dacOpcodes.Nodup ∧ cfg.codes.ddsOpcodes.Nodup ∧
      [cfg.codes.subSetup, cfg.codes.subParams, cfg.codes.subDisable].Nodup := by
  simp only [Config.legal, CodeTable.injective, Bool.and_eq_true, decide_eq_true_eq, bne_iff_ne] at h
  obtain ⟨⟨⟨⟨⟨-, -, -, h1, h2, h3, -⟩, -⟩, -⟩, h4⟩, h5⟩ := h
  exact ⟨h4, h5, h1, h2, h3⟩

end Sys2Proof
end

