-- ==== Sys2Proof/Laws/Numerics.lean ====
section
/-!
SUPPORT. Lemmas of the numeric operands and of the quantizer's parts.
-/

namespace Sys2Proof.Machine

open Sys2Proof

@[simp] theorem rnd_exact (q : Rat) : rnd .exact q = some q := rfl

@[simp] theorem rnd_binary64 (q : Rat) : rnd .binary64 q = fl q := rfl

@[simp] theorem fl_zero : fl 0 = some 0 := by simp [fl]

@[simp] theorem finite?_exact (q : Rat) : finite? .exact (.real q) = some q := rfl

@[simp] theorem finite?_inf (m : Numerics) (b : Bool) : finite? m (.inf b) = none := rfl

@[simp] theorem finite?_nan (m : Numerics) : finite? m .nan = none := rfl

@[simp] theorem finites?_nil (m : Numerics) : finites? m [] = some [] := rfl

/-- Several operands are finite when each is. -/
theorem finites?_cons_eq_some {m : Numerics} {x : Quantity} {xs : List Quantity} {qs : List Rat} :
    finites? m (x :: xs) = some qs ↔ ∃ q qs', finite? m x = some q ∧ finites? m xs = some qs' ∧ qs = q :: qs' := by
  rw [finites?]
  cases finite? m x <;> cases finites? m xs <;> simp [eq_comm]

/-- As many rationals as operands. -/
theorem finites?_length {m : Numerics} {xs : List Quantity} {qs : List Rat} (h : finites? m xs = some qs) :
    qs.length = xs.length := by
  induction xs generalizing qs with
  | nil => cases h; rfl
  | cons x xs ih =>
    obtain ⟨q, qs', -, h', rfl⟩ := finites?_cons_eq_some.mp h
    simp [ih h']

/-- An operand that is an integer from 0 on. -/
theorem natural?_eq_some {m : Numerics} {x : Quantity} {k : Nat} :
    natural? m x = some k ↔ finite? m x = some (k : Rat) := by
  unfold natural?
  cases hx : finite? m x with
  | none => simp
  | some q =>
    simp only [Option.bind_some, Option.some.injEq]
    constructor
    · intro h
      split at h
      · rename_i hq
        cases h
        rw [← Rat.num_div_den q, hq.1]
        simp only [Nat.cast_one, div_one]
        exact_mod_cast (Int.toNat_of_nonneg hq.2).symm
      · cases h
    · rintro rfl
      simp

/-- A ramp rate is a natural number up to 65535. -/
theorem rate?_eq_some {r : Rat} {k : Nat} : rate? r = some k ↔ r = k ∧ k ≤ 65535 := by
  unfold rate?
  constructor
  · intro h
    split at h
    · rename_i hq
      cases h
      refine ⟨?_, by omega⟩
      rw [← Rat.num_div_den r, hq.1]
      simp only [Nat.cast_one, div_one]
      exact_mod_cast (Int.toNat_of_nonneg hq.2.1).symm
    · cases h
  · rintro ⟨rfl, hk⟩
    simp [hk]

/-- The bounds of the free raw word, and the two cases of the raw word. -/
theorem rawWord_cases (m : Numerics) (v fs : Rat) (n : Nat) (bip : Bool) :
    (∃ f, fraction m v fs bip = some f ∧ rawWord m v fs n bip = quantize f n) ∨
      (fraction m v fs bip = none ∧ rawWord m v fs n bip < 2 ^ n) := by
  unfold rawWord
  cases fraction m v fs bip with
  | some f => exact .inl ⟨f, rfl, rfl⟩
  | none => exact .inr ⟨rfl, Nat.mod_lt _ (Nat.two_pow_pos n)⟩

/-- Under EXACT the fraction is the one of 40_codec.md R111 and R112. -/
theorem fraction_exact (v fs : Rat) (bip : Bool) :
    fraction .exact v fs bip = some (if bip then (v + fs) / (2 * fs) else v / fs) := by
  cases bip <;> rfl

/-- In unipolar mode one rounding gives the fraction. -/
@[simp] theorem fraction_unipolar (m : Numerics) (v fs : Rat) : fraction m v fs false = rnd m (v / fs) := rfl

/-- In bipolar mode, where neither sum nor scale leaves the format, the quotient rounded (40_codec.md R114). -/
theorem fraction_bipolar {m : Numerics} {v fs t1 t2 : Rat} (h1 : rnd m (v + fs) = some t1)
    (h2 : rnd m (2 * fs) = some t2) : fraction m v fs true = rnd m (t1 / t2) := by
  simp [fraction, h1, h2]

/-- In bipolar mode over an infinite scale. -/
theorem fraction_at_infinity {m : Numerics} {v fs : Rat} (h : rnd m (2 * fs) = none) :
    fraction m v fs true = fractionAtInfinity v fs (rnd m (v + fs)) := by
  cases h1 : rnd m (v + fs) <;> simp [fraction, h, h1]

/-- The fractions over an infinite scale. -/
theorem fractionAtInfinity_cases {v fs f : Rat} {t1 : Option Rat} (h : fractionAtInfinity v fs t1 = some f) :
    v = fs ∧ f = 1 ∨ v = 0 ∧ f = 1 / 2 ∨ f = 0 := by
  unfold fractionAtInfinity at h
  split at h
  · exact .inl ⟨‹_›, (Option.some.inj h).symm⟩
  · split at h
    · exact .inr (.inl ⟨‹_›, (Option.some.inj h).symm⟩)
    · obtain ⟨_, -, h⟩ := Option.map_eq_some_iff.mp h
      exact .inr (.inr h.symm)

/-- DECODE, unipolar, where the product stays in the format (40_codec.md R121). -/
theorem decodedNumber_unipolar {m : Numerics} {raw n : Nat} {fs p x : Rat} (h1 : rnd m (raw * fs) = some p)
    (h2 : rnd m (p / 2 ^ n) = some x) : decodedNumber m raw fs n false = x := by
  simp [decodedNumber, h1, h2]

/-- DECODE, bipolar, where each operation stays in the format (40_codec.md R121). -/
theorem decodedNumber_bipolar {m : Numerics} {raw n : Nat} {fs k p y x : Rat} (h1 : rnd m (2 * fs) = some k)
    (h2 : rnd m (raw * k) = some p) (h3 : rnd m (p / 2 ^ n) = some y) (h4 : rnd m (y - fs) = some x) :
    decodedNumber m raw fs n true = x := by
  simp [decodedNumber, h1, h2, h3, h4]

/-- A fraction of at most 1 quantizes to a word of `n` bits. -/
theorem quantize_lt {f : Rat} {n : Nat} (h : f ≤ 1) : quantize f n < 2 ^ n := by
  have hp : (0 : Rat) < 2 ^ n := by positivity
  have hfl : (f * 2 ^ n).floor ≤ 2 ^ n := by
    have h1 : f * 2 ^ n ≤ ((2 ^ n : Int) : Rat) := by push_cast; nlinarith
    have h2 : ((f * 2 ^ n).floor : Rat) ≤ f * 2 ^ n := Rat.floor_le _
    exact_mod_cast h2.trans h1
  have hpos : 0 < 2 ^ n := Nat.two_pow_pos n
  unfold quantize
  simp only
  split
  · omega
  · have : (f * 2 ^ n).floor.toNat ≤ 2 ^ n := by
      rw [Int.toNat_le]
      exact_mod_cast hfl
    omega

end Sys2Proof.Machine
end

