-- ==== Sys2Proof/Laws/Operands.lean ====
section
/-!
SUPPORT. Lemmas of decimal numerals and of decimal fields.
-/

namespace Sys2Proof.Machine

open Sys2Proof

theorem decDigits_ne_nil {fuel n : Nat} {acc : List Byte} (h : fuel ≠ 0 ∨ acc ≠ []) : decDigits fuel n acc ≠ [] := by
  induction fuel generalizing n acc with
  | zero => simpa [decDigits] using h
  | succ fuel ih =>
    rw [decDigits]
    split
    · simp
    · exact ih (.inr (by simp))

/-- A numeral has a digit. -/
theorem dec_ne_nil (n : Nat) : dec n ≠ [] := decDigits_ne_nil (.inl (by simp))

@[simp] theorem joinFields_nil : joinFields [] = [] := rfl

@[simp] theorem joinFields_singleton (n : Nat) : joinFields [n] = dec n := rfl

theorem joinFields_cons_cons (n m : Nat) (ns : List Nat) :
    joinFields (n :: m :: ns) = dec n ++ separator :: joinFields (m :: ns) := rfl

/-- Fields of at least one number are not empty. -/
theorem joinFields_ne_nil {ns : List Nat} (h : ns ≠ []) : joinFields ns ≠ [] := by
  match ns, h with
  | [n], _ => exact dec_ne_nil n
  | n :: m :: ns, _ => simp [joinFields_cons_cons, dec_ne_nil]

end Sys2Proof.Machine
end

