-- ==== Sys2Proof/Laws/State.lean ====
section
/-!
SUPPORT. One lemma per field of State and per state operation.
-/

namespace Sys2Proof.Machine

open Sys2Proof

@[simp] theorem State.emit_tx (f : List Byte) (s : State) : (s.emit f).tx = s.tx ++ f := rfl

@[simp] theorem State.emit_parser (f : List Byte) (s : State) : (s.emit f).parser = s.parser := rfl

@[simp] theorem State.emit_cfg (f : List Byte) (s : State) : (s.emit f).cfg = s.cfg := rfl

@[simp] theorem State.emit_inputs (f : List Byte) (s : State) : (s.emit f).inputs = s.inputs := rfl

@[simp] theorem State.emit_result (f : List Byte) (s : State) : (s.emit f).result = s.result := rfl

@[simp] theorem State.emit_writes (f : List Byte) (s : State) : (s.emit f).writes = s.writes ++ [f] := rfl

@[simp] theorem State.answer_tx (r : Result) (s : State) : (s.answer r).tx = s.tx := rfl

@[simp] theorem State.answer_parser (r : Result) (s : State) : (s.answer r).parser = s.parser := rfl

@[simp] theorem State.answer_cfg (r : Result) (s : State) : (s.answer r).cfg = s.cfg := rfl

@[simp] theorem State.answer_inputs (r : Result) (s : State) : (s.answer r).inputs = s.inputs := rfl

@[simp] theorem State.answer_result (r : Result) (s : State) : (s.answer r).result = some r := rfl

@[simp] theorem State.answer_writes (r : Result) (s : State) : (s.answer r).writes = s.writes := rfl

@[simp] theorem State.raise_tx (e : Err) (s : State) : (s.raise e).tx = s.tx := rfl

@[simp] theorem State.raise_parser (e : Err) (s : State) : (s.raise e).parser = s.parser := rfl

@[simp] theorem State.raise_cfg (e : Err) (s : State) : (s.raise e).cfg = s.cfg := rfl

@[simp] theorem State.raise_inputs (e : Err) (s : State) : (s.raise e).inputs = s.inputs := rfl

@[simp] theorem State.raise_result (e : Err) (s : State) : (s.raise e).result = some (.err e) := rfl

@[simp] theorem State.raise_writes (e : Err) (s : State) : (s.raise e).writes = s.writes := rfl

@[simp] theorem State.setParser_tx (p : Parser) (s : State) : (s.setParser p).tx = s.tx := rfl

@[simp] theorem State.setParser_parser (p : Parser) (s : State) : (s.setParser p).parser = p := rfl

@[simp] theorem State.setParser_cfg (p : Parser) (s : State) : (s.setParser p).cfg = s.cfg := rfl

@[simp] theorem State.setParser_inputs (p : Parser) (s : State) : (s.setParser p).inputs = s.inputs := rfl

@[simp] theorem State.setParser_result (p : Parser) (s : State) : (s.setParser p).result = s.result := rfl

@[simp] theorem State.setParser_writes (p : Parser) (s : State) : (s.setParser p).writes = s.writes := rfl

@[simp] theorem State.takeInput_tx (rest : List Input) (s : State) : (s.takeInput rest).tx = s.tx := rfl

@[simp] theorem State.takeInput_parser (rest : List Input) (s : State) : (s.takeInput rest).parser = s.parser := rfl

@[simp] theorem State.takeInput_cfg (rest : List Input) (s : State) : (s.takeInput rest).cfg = s.cfg := rfl

@[simp] theorem State.takeInput_inputs (rest : List Input) (s : State) : (s.takeInput rest).inputs = rest := rfl

@[simp] theorem State.takeInput_result (rest : List Input) (s : State) : (s.takeInput rest).result = s.result := rfl

@[simp] theorem State.takeInput_writes (rest : List Input) (s : State) : (s.takeInput rest).writes = s.writes := rfl

@[simp] theorem State.blockReset_tx (s : State) : (s.blockReset).tx = [] := rfl

@[simp] theorem State.blockReset_parser (s : State) : (s.blockReset).parser = .reset := rfl

@[simp] theorem State.blockReset_cfg (s : State) : (s.blockReset).cfg = s.cfg := rfl

@[simp] theorem State.blockReset_inputs (s : State) : (s.blockReset).inputs = s.inputs := rfl

@[simp] theorem State.blockReset_result (s : State) : (s.blockReset).result = none := rfl

@[simp] theorem State.blockReset_writes (s : State) : (s.blockReset).writes = [] := rfl

@[simp] theorem State.withFetchWord_tx (s : State) (nbits w : Nat) : (s.withFetchWord nbits w).tx = s.tx := rfl

@[simp] theorem State.withFetchWord_parser (s : State) (nbits w : Nat) : (s.withFetchWord nbits w).parser = s.parser := rfl

@[simp] theorem State.withFetchWord_cfg (s : State) (nbits w : Nat) : (s.withFetchWord nbits w).cfg = s.cfg := rfl

@[simp] theorem State.withFetchWord_inputs (s : State) (nbits w : Nat) : (s.withFetchWord nbits w).inputs = .submit (tableSubmission s.cfg nbits w) :: s.inputs := rfl

@[simp] theorem State.withFetchWord_result (s : State) (nbits w : Nat) : (s.withFetchWord nbits w).result = s.result := rfl

@[simp] theorem State.withFetchWord_writes (s : State) (nbits w : Nat) : (s.withFetchWord nbits w).writes = s.writes := rfl

/-- A later answer replaces an earlier one. -/
@[simp] theorem State.answer_answer (r r' : Result) (s : State) : (s.answer r).answer r' = s.answer r' := rfl

/-- `raise` is an answer. -/
theorem State.raise_eq_answer (e : Err) (s : State) : s.raise e = s.answer (.err e) := rfl

/-- Writing the parser state that is there changes nothing. -/
@[simp] theorem State.setParser_self (s : State) : s.setParser s.parser = s := rfl

end Sys2Proof.Machine
end

