-- ==== Sys2Proof/Laws/Ops.lean ====
section
/-!
SUPPORT. What the shared operations can do, said once: how a request ends, and the shapes of a next state.
-/

namespace Sys2Proof.Machine

open Sys2Proof

/-- A request that only returns changes the result port alone. -/
theorem finish_eq_next {r : Reply Value} {s t : State} :
    finish r s = .next t ↔
      (∃ v, r = .ok v ∧ t = s.answer (.ok v)) ∨ ∃ e, r = .raise e ∧ t = s.answer (.err e) := by
  cases r <;> simp [finish, State.raise, eq_comm]

/-- A builder emits and returns its frame, or raises and changes the result port alone. -/
theorem finishEmit_eq_next {r : Reply (List Byte)} {s t : State} :
    finishEmit r s = .next t ↔
      (∃ f, r = .ok f ∧ t = (s.emit f).answer (.ok (.bytes f))) ∨ ∃ e, r = .raise e ∧ t = s.answer (.err e) := by
  cases r <;> simp [finishEmit, State.raise, eq_comm]

theorem finish_eq_fault {r : Reply Value} {s : State} {x : Fault} : finish r s = .fault x ↔ r = .fault x := by
  cases r <;> simp [finish]

theorem finishEmit_eq_fault {r : Reply (List Byte)} {s : State} {x : Fault} :
    finishEmit r s = .fault x ↔ r = .fault x := by
  cases r <;> simp [finishEmit]

theorem finish_ne_refused {r : Reply Value} {s : State} {x : Refusal} : finish r s ≠ .refused x := by
  cases r <;> simp [finish]

theorem finishEmit_ne_refused {r : Reply (List Byte)} {s : State} {x : Refusal} : finishEmit r s ≠ .refused x := by
  cases r <;> simp [finishEmit]

theorem Reply.map_eq_ok {α β : Type} {f : α → β} {r : Reply α} {v : β} :
    r.map f = .ok v ↔ ∃ a, r = .ok a ∧ f a = v := by
  cases r <;> simp [Reply.map]

theorem Reply.map_eq_raise {α β : Type} {f : α → β} {r : Reply α} {e : Err} : r.map f = .raise e ↔ r = .raise e := by
  cases r <;> simp [Reply.map]

theorem Reply.map_eq_fault {α β : Type} {f : α → β} {r : Reply α} {x : Fault} :
    r.map f = .fault x ↔ r = .fault x := by
  cases r <;> simp [Reply.map]

/-- With numbers that the instance can express, a request runs. -/
theorem withNumbers_of_expressible {xs : List Quantity} {s : State} (k : Host.Outcome State Fault Refusal)
    (h : xs.all (Quantity.expressible s.cfg.numerics) = true) : withNumbers xs s k = k := by
  simp only [withNumbers, h, if_true]

theorem withNumbers_eq_next {xs : List Quantity} {s t : State} {k : Host.Outcome State Fault Refusal} :
    withNumbers xs s k = .next t ↔ xs.all (Quantity.expressible s.cfg.numerics) = true ∧ k = .next t := by
  unfold withNumbers
  split <;> simp_all

theorem withNumbers_eq_fault {xs : List Quantity} {s : State} {x : Fault} {k : Host.Outcome State Fault Refusal} :
    withNumbers xs s k = .fault x ↔ xs.all (Quantity.expressible s.cfg.numerics) = true ∧ k = .fault x := by
  unfold withNumbers
  split <;> simp_all

/-- A reply that needs a word: the continuation on that word, or the fault. -/
theorem withWord_eq_ok {α : Type} {w : Option Nat} {k : Nat → Reply α} {v : α} :
    withWord w k = .ok v ↔ ∃ x, w = some x ∧ k x = .ok v := by
  cases w <;> simp [withWord]

theorem withWord_eq_raise {α : Type} {w : Option Nat} {k : Nat → Reply α} {e : Err} :
    withWord w k = .raise e ↔ ∃ x, w = some x ∧ k x = .raise e := by
  cases w <;> simp [withWord]

@[simp] theorem withWord_some {α : Type} (x : Nat) (k : Nat → Reply α) : withWord (some x) k = k x := rfl

/-- The rows of 30_encoding.md R73 are the codes that the requests read. -/
theorem mem_gainRows {c : BitVec 2} {g : GainMode} : (c, g) ∈ gainRows ↔ gain? c = some g := by
  revert c; cases g <;> decide

theorem mem_polarityRows {c : BitVec 2} {p : PolarityMode} : (c, p) ∈ polarityRows ↔ polarity? c = some p := by
  revert c; cases p <;> decide

theorem mem_addressRows {c : BitVec 2} {a : DeviceAddress} : (c, a) ∈ addressRows ↔ address? c = some a := by
  revert c; cases a <;> decide

theorem mem_parameterRows {c : BitVec 2} {p : RampParameter} : (c, p) ∈ parameterRows ↔ rampParameter? c = some p := by
  revert c; cases p <;> decide

/-- Every next state of an instruction is one of three: an answer; a builder's emission with its answer; or RX's parser
state with its answer. -/
theorem exec_next_shape {i : Instr} {s t : State} (h : exec i s = .next t) :
    (∃ r, t = s.answer r) ∨
      (isBuilder i = true ∧ ∃ f, t = (s.emit f).answer (.ok (.bytes f))) ∨
      ∃ b r, i = .rx b ∧ t = (s.setParser (step1 s.cfg s.parser b).1).answer r := by
  have answered : ∀ {r : Reply Value} {u : State}, finish r s = .next u → ∃ r', u = s.answer r' := by
    intro r u hu
    rcases finish_eq_next.mp hu with ⟨v, -, rfl⟩ | ⟨e, -, rfl⟩ <;> exact ⟨_, rfl⟩
  have emitted : ∀ {r : Reply (List Byte)} {u : State}, finishEmit r s = .next u →
      (∃ r', u = s.answer r') ∨ ∃ f, u = (s.emit f).answer (.ok (.bytes f)) := by
    intro r u hu
    rcases finishEmit_eq_next.mp hu with ⟨f, -, rfl⟩ | ⟨e, -, rfl⟩
    · exact .inr ⟨f, rfl⟩
    · exact .inl ⟨_, rfl⟩
  have builder : isBuilder i = true →
      ((∃ r', t = s.answer r') ∨ ∃ f, t = (s.emit f).answer (.ok (.bytes f))) →
      (∃ r, t = s.answer r) ∨ (isBuilder i = true ∧ ∃ f, t = (s.emit f).answer (.ok (.bytes f))) ∨
        ∃ b r, i = .rx b ∧ t = (s.setParser (step1 s.cfg s.parser b).1).answer r :=
    fun hb ht => ht.elim .inl fun hf => .inr (.inl ⟨hb, hf⟩)
  cases i with
  | codecEncode => exact .inl (answered (withNumbers_eq_next.mp h).2)
  | codecDecode => exact .inl (answered (withNumbers_eq_next.mp h).2)
  | dacInit => exact builder rfl (emitted h)
  | dacWrite => exact builder rfl (emitted (withNumbers_eq_next.mp h).2)
  | ddsTone => exact builder rfl (emitted (withNumbers_eq_next.mp h).2)
  | ddsRamp => exact builder rfl (emitted (withNumbers_eq_next.mp h).2)
  | ddsLoad => exact builder rfl (emitted (r := .ok (loadFrame s.cfg)) h)
  | ddsReset => exact builder rfl (emitted (r := .ok (resetFrame s.cfg)) h)
  | ddsRampoff => exact builder rfl (emitted (r := .ok (rampDisableFrame s.cfg)) h)
  | rx b =>
    rcases finish_eq_next.mp h with ⟨v, -, rfl⟩ | ⟨e, -, rfl⟩ <;> exact .inr (.inr ⟨b, _, rfl, rfl⟩)
  | frame => exact .inl (answered h)
  | parse => exact .inl (answered h)
  | frameDacInit => exact .inl (answered h)
  | frameDacWriteText => exact .inl (answered h)
  | frameDacWriteBinary => exact .inl (answered h)
  | frameDdsTone => exact .inl (answered h)
  | frameDdsRampSetup => exact .inl (answered h)
  | frameDdsRampParams => exact .inl (answered h)
  | frameDdsRampDisable => exact .inl (answered h)
  | frameDdsLoad => exact .inl (answered h)
  | frameDdsReset => exact .inl (answered h)

/-- Everything a step can do. -/
theorem step_next_cases {s t : State} (h : step s = .next t) :
    (s.inputs = [] ∧ t = s) ∨
      (∃ rest, s.inputs = .reset :: rest ∧ t = (s.takeInput rest).blockReset) ∨
      ∃ x rest i, s.inputs = .submit x :: rest ∧ decode s.cfg x = .ok i ∧ exec i (s.takeInput rest) = .next t := by
  unfold step at h
  split at h
  · exact .inl ⟨‹_›, (Host.Outcome.next.inj h).symm⟩
  · exact .inr (.inl ⟨_, ‹_›, (Host.Outcome.next.inj h).symm⟩)
  · split at h
    · exact .inr (.inr ⟨_, _, _, ‹_›, ‹_›, h⟩)
    · cases h

end Sys2Proof.Machine
end

