-- ==== Sys2Proof/Laws/Parse.lean ====
section
/-!
SUPPORT. What one byte of stage 1 can do, and the loop of PARSE one byte at a time.
-/

namespace Sys2Proof.Machine

open Sys2Proof

theorem stageError_eq (r : FramingReason) (off : Nat) (b : Byte) :
    stageError r off b = (errorParser b, .error r off) := rfl

/-- Everything that a byte of stage 1 can do: it is taken with no event, it ends a frame and resets the parser, or it
raises an error handled as 43_framer_parser.md R210 says. -/
theorem step1_cases (cfg : Config) (p : Parser) (b : Byte) :
    (step1 cfg p b).2 = .none ∨
      (b = terminator ∧ step1 cfg p b = (.reset, .frame (p.pdev.getD 0) (p.popc.getD 0) p.pbuf p.poff) ∧
        (p.pstate = .readPayload ∧ p.pbin = false ∨ p.pstate = .expectTerminator)) ∨
      ∃ r, step1 cfg p b = (errorParser b, .error r p.poff) := by
  unfold step1
  split
  · unfold stepDevice
    split
    · exact .inl rfl
    · exact .inr (.inr ⟨_, rfl⟩)
  · unfold stepOpcode
    split
    · exact .inl rfl
    · exact .inr (.inr ⟨_, rfl⟩)
  · rename_i hp
    split
    · exact .inl rfl
    · rename_i hb
      unfold stepText
      split
      · exact .inr (.inl ⟨‹_›, rfl, .inl ⟨hp, by simpa using hb⟩⟩)
      · split
        · exact .inr (.inr ⟨_, rfl⟩)
        · split
          · exact .inr (.inr ⟨_, rfl⟩)
          · exact .inl rfl
  · rename_i hp
    unfold stepTerminator
    split
    · exact .inr (.inl ⟨‹_›, rfl, .inr hp⟩)
    · exact .inr (.inr ⟨_, rfl⟩)
  · exact .inl rfl

theorem parseFrom_nil (cfg : Config) (p : Parser) (i : Nat) :
    parseFrom cfg p i [] = .raise (.framingError .unterminated i) := rfl

/-- A byte without an event. -/
theorem parseFrom_cons_none {cfg : Config} {p : Parser} {i : Nat} {b : Byte} {rest : List Byte}
    (h : (step1 cfg p b).2 = .none) :
    parseFrom cfg p i (b :: rest) = parseFrom cfg (step1 cfg p b).1 (i + 1) rest := by
  rw [parseFrom]
  generalize step1 cfg p b = x at h
  obtain ⟨p', ev⟩ := x
  cases h
  rfl

@[simp] theorem Parser.taking_nil (cfg : Config) (p : Parser) : p.taking cfg [] = some p := rfl

/-- The bytes taken without an event are taken one by one. -/
theorem Parser.taking_cons_eq_some {cfg : Config} {p p' : Parser} {b : Byte} {rest : List Byte} :
    p.taking cfg (b :: rest) = some p' ↔
      (step1 cfg p b).2 = .none ∧ (step1 cfg p b).1.taking cfg rest = some p' := by
  rw [Parser.taking]
  split <;> simp_all

/-- The loop of PARSE runs over bytes without an event. -/
theorem parseFrom_append_of_taking {cfg : Config} {p p' : Parser} {i : Nat} {pre : List Byte} (rest : List Byte)
    (h : p.taking cfg pre = some p') :
    parseFrom cfg p i (pre ++ rest) = parseFrom cfg p' (i + pre.length) rest := by
  induction pre generalizing p i with
  | nil => cases h; rfl
  | cons b pre ih =>
    obtain ⟨hb, h⟩ := Parser.taking_cons_eq_some.mp h
    rw [List.cons_append, parseFrom_cons_none hb, ih h, List.length_cons, Nat.add_assoc, Nat.add_comm 1]

/-- A byte that raises a stage-1 error. -/
theorem parseFrom_cons_error {cfg : Config} {p : Parser} {i : Nat} {b : Byte} {rest : List Byte} {r : FramingReason}
    {off : Nat} (h : (step1 cfg p b).2 = .error r off) :
    parseFrom cfg p i (b :: rest) = .raise (.framingError r off) := by
  rw [parseFrom]
  generalize step1 cfg p b = x at h
  obtain ⟨p', ev⟩ := x
  cases h
  rfl

/-- The byte that ends a frame: the last one, or TRAILING. -/
theorem parseFrom_cons_frame {cfg : Config} {p : Parser} {i : Nat} {b : Byte} {rest : List Byte} {d o : Byte}
    {payload : List Byte} {off : Nat} (h : (step1 cfg p b).2 = .frame d o payload off) :
    parseFrom cfg p i (b :: rest) =
      if rest ≠ [] then .raise (.framingError .trailing (i + 1)) else interpret cfg d o payload off := by
  rw [parseFrom]
  generalize step1 cfg p b = x at h
  obtain ⟨p', ev⟩ := x
  cases h
  rfl

end Sys2Proof.Machine
end

