-- ==== Sys2Proof/Laws/PerInstr.lean ====
section
/-!
SUPPORT. A family of statements about instructions as syntax: how each is presented. A request carries an operation code
that is not reserved (30_encoding.md R72); a wire frame begins with the header of its row (R97).
-/

namespace Sys2Proof.Laws.Presented

open Sys2Proof

/-- A request with an operation code in use, or a wire frame of at least two header bytes. -/
def Statement (i : Instr) : Prop :=
  ∀ cfg : Config,
    match encode cfg i with
    | .request r => reservedOp r.op = false ∧ i.header cfg = []
    | .wire s => i.header cfg <+: s ∧ 2 ≤ (i.header cfg).length

theorem codecEncode (value fs n t : Quantity) (bipolar : Bool) : Statement (.codecEncode value fs n t bipolar) :=
  fun _ => ⟨rfl, rfl⟩

theorem codecDecode (word fs n t : Quantity) (bipolar : Bool) : Statement (.codecDecode word fs n t bipolar) :=
  fun _ => ⟨rfl, rfl⟩

theorem dacInit (gain polarity : BitVec 2) : Statement (.dacInit gain polarity) :=
  fun _ => ⟨rfl, rfl⟩

theorem dacWrite (address : BitVec 2) (voltage ref : Quantity) (gain polarity : BitVec 2) : Statement (.dacWrite address voltage ref gain polarity) :=
  fun _ => ⟨rfl, rfl⟩

theorem ddsTone (amp ampRef phase freq sysclk : Quantity) : Statement (.ddsTone amp ampRef phase freq sysclk) :=
  fun _ => ⟨rfl, rfl⟩

theorem ddsRamp (param : BitVec 2) (start stop dec inc negRate posRate ref : Quantity) : Statement (.ddsRamp param start stop dec inc negRate posRate ref) :=
  fun _ => ⟨rfl, rfl⟩

theorem ddsLoad : Statement (.ddsLoad) :=
  fun _ => ⟨rfl, rfl⟩

theorem ddsReset : Statement (.ddsReset) :=
  fun _ => ⟨rfl, rfl⟩

theorem ddsRampoff : Statement (.ddsRampoff) :=
  fun _ => ⟨rfl, rfl⟩

theorem frame (dev opc : Byte) (payload : List Byte) : Statement (.frame dev opc payload) :=
  fun _ => ⟨rfl, rfl⟩

theorem parse (bytes : List Byte) : Statement (.parse bytes) :=
  fun _ => ⟨rfl, rfl⟩

theorem rx (b : Byte) : Statement (.rx b) :=
  fun _ => ⟨rfl, rfl⟩

theorem frameDacInit (rest : List Byte) : Statement (.frameDacInit rest) :=
  fun _ => ⟨List.prefix_append _ _, by simp [Instr.header]⟩

theorem frameDacWriteText (rest : List Byte) : Statement (.frameDacWriteText rest) :=
  fun _ => ⟨List.prefix_append _ _, by simp [Instr.header]⟩

theorem frameDacWriteBinary (rest : List Byte) : Statement (.frameDacWriteBinary rest) :=
  fun _ => ⟨List.prefix_append _ _, by simp [Instr.header]⟩

theorem frameDdsTone (rest : List Byte) : Statement (.frameDdsTone rest) :=
  fun _ => ⟨List.prefix_append _ _, by simp [Instr.header]⟩

theorem frameDdsRampSetup (rest : List Byte) : Statement (.frameDdsRampSetup rest) :=
  fun _ => ⟨List.prefix_append _ _, by simp [Instr.header]⟩

theorem frameDdsRampParams (rest : List Byte) : Statement (.frameDdsRampParams rest) :=
  fun _ => ⟨List.prefix_append _ _, by simp [Instr.header]⟩

theorem frameDdsRampDisable (rest : List Byte) : Statement (.frameDdsRampDisable rest) :=
  fun _ => ⟨List.prefix_append _ _, by simp [Instr.header]⟩

theorem frameDdsLoad (rest : List Byte) : Statement (.frameDdsLoad rest) :=
  fun _ => ⟨List.prefix_append _ _, by simp [Instr.header]⟩

theorem frameDdsReset (rest : List Byte) : Statement (.frameDdsReset rest) :=
  fun _ => ⟨List.prefix_append _ _, by simp [Instr.header]⟩

end Sys2Proof.Laws.Presented
end

