-- ==== Sys2Proof/Tests/Slice0.lean ====
section
/-!
SUPPORT. Tests: expected results from spec/95_test_vectors.md and from the encodings written out; ill-formed terms that
the checks refuse; and, for every statement with hypotheses, states and operands that meet them.
-/

set_option Elab.async false

namespace Sys2Proof.Tests

open Sys2Proof Sys2Proof.Machine

/-- The ASCII bytes of a string. -/
def ascii (x : String) : List Byte := x.toList.map fun c => BitVec.ofNat 8 c.toNat

/-- A small state: reset, with a configuration. -/
def at' (cfg : Config) : State := { State.reset with cfg := cfg }

def textCfg : Config := .standard
def binaryCfg : Config := { Config.standard with wireForm := .binary }
def floatCfg : Config := { Config.standard with numerics := .binary64 }

/-- The result and the transmit stream after one instruction. -/
def outcome (i : Instr) (s : State) : Option (Option Result × List Byte) :=
  match exec i s with
  | .next t => some (t.result, t.tx)
  | .fault _ => none
  | .refused _ => none

/-- The parser state after one instruction. -/
def parserAfter (i : Instr) (s : State) : Option Parser :=
  match exec i s with
  | .next t => some t.parser
  | .fault _ => none
  | .refused _ => none

/-- A builder that emits and returns `x`. -/
def emitted (x : List Byte) : Option (Option Result × List Byte) := some (some (.ok (.bytes x)), x)

/-- A request that returns `v` and emits nothing. -/
def returned (v : Value) : Option (Option Result × List Byte) := some (some (.ok v), [])

/-- A request that raises `e` and emits nothing. -/
def raised (e : Err) : Option (Option Result × List Byte) := some (some (.err e), [])

/-! ## WellFormed refuses ill-formed terms -/

theorem test_illformed_nan_under_exact :
    (Instr.codecEncode .nan (.real 5) (.real 14) (.real 16) false).wellFormed textCfg = false := by decide

theorem test_illformed_binary_row_under_text : (Instr.frameDacWriteBinary []).wellFormed textCfg = false := by decide

theorem test_illformed_text_row_under_binary : (Instr.frameDacWriteText []).wellFormed binaryCfg = false := by decide

theorem test_illegal_shared_indicator : ({ Config.standard with ddsInd := dacInd } : Config).legal = false := by decide

theorem test_illegal_terminator_indicator : ({ Config.standard with ddsInd := 0x21 } : Config).legal = false := by
  decide

theorem test_illegal_equal_codes :
    ({ Config.standard with codes := { CodeTable.standard with unipolar := 0x62 } } : Config).legal = false := by decide

theorem test_illegal_terminator_code :
    ({ Config.standard with codes := { CodeTable.standard with x2 := 0x21 } } : Config).legal = false := by decide

theorem test_illegal_terminator_opcode :
    ({ Config.standard with codes := { CodeTable.standard with opLoad := 0x21 } } : Config).legal = false := by decide

/-! ## Decoding, from the tables of 30_encoding.md R71 and R97 -/

theorem test_decode_encode_request :
    decode textCfg (.request ⟨0b0001, [.num (.real 0), .num (.real 5), .num (.real 14), .num (.real 16), .flag true]⟩) =
      .ok (.codecEncode (.real 0) (.real 5) (.real 14) (.real 16) true) := rfl

theorem test_decode_decode_request :
    decode textCfg (.request ⟨0b0010, [.num (.real 4), .num (.real 5), .num (.real 14), .num (.real 16), .flag false]⟩) =
      .ok (.codecDecode (.real 4) (.real 5) (.real 14) (.real 16) false) := rfl

theorem test_decode_dac_init : decode textCfg (.request ⟨0b0011, [.code 0b00, .code 0b01]⟩) = .ok (.dacInit 0 1) := rfl

theorem test_decode_dac_write :
    decode textCfg (.request ⟨0b0100, [.code 0b01, .num (.real 1), .num (.real 2), .code 0b10, .code 0b00]⟩) =
      .ok (.dacWrite 1 (.real 1) (.real 2) 2 0) := rfl

theorem test_decode_dds_tone :
    decode textCfg (.request ⟨0b0101, [.num (.real 1), .num (.real 2), .num (.real 3), .num (.real 4), .num (.real 5)]⟩) =
      .ok (.ddsTone (.real 1) (.real 2) (.real 3) (.real 4) (.real 5)) := rfl

theorem test_decode_dds_ramp :
    decode textCfg (.request ⟨0b0110, [.code 0b10, .num (.real 1), .num (.real 2), .num (.real 3), .num (.real 4),
      .num (.real 5), .num (.real 6), .num (.real 7)]⟩) =
      .ok (.ddsRamp 2 (.real 1) (.real 2) (.real 3) (.real 4) (.real 5) (.real 6) (.real 7)) := rfl

theorem test_decode_dds_load : decode textCfg (.request ⟨0b0111, []⟩) = .ok .ddsLoad := rfl

theorem test_decode_dds_reset : decode textCfg (.request ⟨0b1000, []⟩) = .ok .ddsReset := rfl

theorem test_decode_dds_rampoff : decode textCfg (.request ⟨0b1001, []⟩) = .ok .ddsRampoff := rfl

theorem test_decode_frame :
    decode textCfg (.request ⟨0b1010, [.byte 0x44, .byte 0x77, .bytes [0x62, 0x30]]⟩) =
      .ok (.frame 0x44 0x77 [0x62, 0x30]) := rfl

theorem test_decode_parse : decode textCfg (.request ⟨0b1011, [.bytes [0x44]]⟩) = .ok (.parse [0x44]) := rfl

theorem test_decode_rx : decode textCfg (.request ⟨0b1100, [.byte 0x44]⟩) = .ok (.rx 0x44) := rfl

theorem test_decode_reserved :
    [0b0000#4, 0b1101#4, 0b1110#4, 0b1111#4].map (fun op => decodeRequest ⟨op, []⟩) =
      [.error (.reservedOp 0), .error (.reservedOp 13), .error (.reservedOp 14), .error (.reservedOp 15)] := rfl

theorem test_decode_wrong_record : decodeRequest ⟨0b0111, [.byte 0]⟩ = .error (.operandRecord 7) := rfl

theorem test_decode_frame_dac_init :
    decode textCfg (.wire [0x44, 0x73, 0x62, 0x31, 0x21]) = .ok (.frameDacInit [0x62, 0x31, 0x21]) := rfl

theorem test_decode_frame_dac_write_text :
    decode textCfg (.wire [0x44, 0x77, 0x62, 0x30, 0x21]) = .ok (.frameDacWriteText [0x62, 0x30, 0x21]) := rfl

theorem test_decode_frame_dac_write_binary :
    decode binaryCfg (.wire [0x44, 0x77, 0x62, 0x21, 0x00, 0x21]) =
      .ok (.frameDacWriteBinary [0x62, 0x21, 0x00, 0x21]) := rfl

theorem test_decode_frame_dds_tone :
    decode textCfg (.wire [0x64, 0x70, 0x30, 0x2C, 0x30, 0x2C, 0x30, 0x21]) =
      .ok (.frameDdsTone [0x30, 0x2C, 0x30, 0x2C, 0x30, 0x21]) := rfl

theorem test_decode_frame_dds_ramp_setup :
    decode textCfg (.wire [0x64, 0x6F, 0x73, 0x66, 0x21]) = .ok (.frameDdsRampSetup [0x66, 0x21]) := rfl

theorem test_decode_frame_dds_ramp_params :
    decode textCfg (.wire [0x64, 0x6F, 0x70, 0x70, 0x21]) = .ok (.frameDdsRampParams [0x70, 0x21]) := rfl

theorem test_decode_frame_dds_ramp_disable :
    decode textCfg (.wire [0x64, 0x6F, 0x78, 0x21]) = .ok (.frameDdsRampDisable [0x21]) := rfl

theorem test_decode_frame_dds_load : decode textCfg (.wire [0x64, 0x6C, 0x21]) = .ok (.frameDdsLoad []) := rfl

theorem test_decode_frame_dds_reset : decode textCfg (.wire [0x64, 0x72, 0x21]) = .ok (.frameDdsReset []) := rfl

theorem test_decode_unlisted_header : decode textCfg (.wire [0x64, 0x6C, 0x78, 0x21]) = .ok (.parse [0x64, 0x6C, 0x78,
    0x21]) := rfl

theorem test_table_words :
    decodeTableWord 8 0x7 = some .ddsLoad ∧ decodeTableWord 8 0xD = none ∧
      decodeTableWord 16 0x4473 = some (.frameDacInit [0, 0, 0]) ∧
      decodeTableWord 16 0x6470 = some (.frameDdsTone [0, 0, 0, 0, 0, 0]) ∧
      decodeTableWord 24 0x646F78 = some (.frameDdsRampDisable [0]) ∧
      decodeTableWord 24 0x647221 = some (.frameDdsReset []) := by decide +kernel

/-- `DDS.LOAD` as the first instruction after reset. -/
theorem test_fetch_word_runs :
    (match step (State.reset.withFetchWord 8 0x7) with
      | .next t => some t.tx
      | .fault _ => none
      | .refused _ => none) = some [0x64, 0x6C, 0x21] := by decide +kernel

/-! ## The requests, from spec/95_test_vectors.md -/

/-- V-COD-7 and V-COD-2. -/
theorem test_encode_midscale_and_saturation :
    outcome (.codecEncode (.real 0) (.real 5) (.real 14) (.real 16) true) (at' textCfg) =
        returned (.word ⟨14, 16, 0x8000⟩) ∧
      outcome (.codecEncode (.real 5) (.real 5) (.real 14) (.real 16) false) (at' textCfg) =
        returned (.word ⟨14, 16, 65532⟩) := by decide +kernel

/-- V-COD-25 and V-NUM-2. -/
theorem test_encode_check_order_and_binary64 :
    outcome (.codecEncode (.real 10) (.real (-5)) (.real 16) (.real 14) false) (at' textCfg) =
        raised (.outOfRange .width) ∧
      outcome (.codecEncode (.real (2025 / 1000)) (.real (108 / 10)) (.real 14) (.real 16) false) (at' floatCfg) =
        returned (.word ⟨14, 16, 12284⟩) := by decide +kernel

/-- V-DEC-7 and V-DEC-11. -/
theorem test_decode_ignores_low_bits :
    outcome (.codecDecode (.real 12835) (.real 5) (.real 14) (.real 16) true) (at' textCfg) =
        returned (.number (-3115 / 1024)) ∧
      outcome (.codecDecode (.real (3 / 2)) (.real 5) (.real 14) (.real 16) false) (at' textCfg) =
        raised (.outOfRange .value) := by decide +kernel

/-- V-DEC-2 under BINARY64. -/
theorem test_decode_binary64 :
    outcome (.codecDecode (.real 65532) (.real 5) (.real 14) (.real 16) true) (at' floatCfg) =
      returned (.number (40955 / 8192)) := by decide +kernel

/-- V-DAC-2 and V-DAC-4. -/
theorem test_dac_init :
    outcome (.dacInit 2 0) (at' textCfg) = emitted (ascii "Dsu3!") ∧
      outcome (.dacInit 3 2) (at' textCfg) = raised .unsupportedGainMode := by decide +kernel

/-- V-DAC-12 and V-DAC-14. -/
theorem test_dac_write_both_forms :
    outcome (.dacWrite 1 (.real 1) (.real (5 / 2)) 1 1) (at' textCfg) = emitted (ascii "Dwb36044!") ∧
      outcome (.dacWrite 1 (.real (-37109375 / 10000000)) (.real (5 / 2)) 0 1) (at' binaryCfg) =
        emitted [0x44, 0x77, 0x62, 0x21, 0x00, 0x21] := by decide +kernel

/-- V-NUM-1 and V-DAC-18. -/
theorem test_dac_write_binary64_and_reference :
    outcome (.dacWrite 0 (.real (81 / 10)) (.real (5 / 2)) 2 0) (at' floatCfg) = emitted (ascii "Dwa49148!") ∧
      outcome (.dacWrite 0 (.real 1) (.real (301 / 100)) 0 0) (at' textCfg) = raised (.outOfRange .reference) := by
  decide +kernel

/-- V-DDS-4 and V-DDS-12. -/
theorem test_dds_tone :
    outcome (.ddsTone (.real (1 / 4)) (.real 1) (.real (-90)) (.real 100000000) (.real 400000000)) (at' textCfg) =
        emitted (ascii "dp4096,49152,1073741824!") ∧
      outcome (.ddsTone (.real 5) (.real 0) (.real 0) (.real 0) (.real 1)) (at' textCfg) =
        raised (.outOfRange .reference) := by decide +kernel

/-- V-NUM-3. -/
theorem test_dds_tone_phase_fixup :
    outcome (.ddsTone (.real 1) (.real 1) (.real (-1 / 10 ^ 20)) (.real 0) (.real 1)) (at' floatCfg) =
      emitted (ascii "dp16383,0,0!") := by decide +kernel

/-- V-RMP-2 and V-RMP-9. -/
theorem test_dds_ramp :
    outcome (.ddsRamp 1 (.real 0) (.real 360) (.real 90) (.real 45) (.real 0) (.real 65535) (.real 0)) (at' textCfg) =
        emitted (ascii "dosp!dopp0,65535,16384,8192,0,65535!") ∧
      outcome (.ddsRamp 0 (.real 1000000) (.real 2000000) (.real 1000001) (.real 1000) (.real 0) (.real 0)
        (.real 1000000000)) (at' textCfg) = raised (.invalidRampBounds .decrementTooLarge) := by decide +kernel

/-- V-RMP-15 and V-RMP-16. -/
theorem test_dds_ramp_rate_and_parameter :
    outcome (.ddsRamp 0 (.real 1) (.real 2) (.real 0) (.real 0) (.real 65536) (.real 0) (.real 10)) (at' textCfg) =
        raised (.outOfRange .rate) ∧
      outcome (.ddsRamp 3 (.real 10) (.real 5) (.real 0) (.real 0) (.real 0) (.real 0) (.real 0)) (at' textCfg) =
        raised (.unsupportedParameter .rampParameter) := by decide +kernel

/-- V-DDS-13 to V-DDS-15. -/
theorem test_dds_load : outcome .ddsLoad (at' textCfg) = emitted [0x64, 0x6C, 0x21] := by decide +kernel

theorem test_dds_reset : outcome .ddsReset (at' textCfg) = emitted [0x64, 0x72, 0x21] := by decide +kernel

theorem test_dds_rampoff : outcome .ddsRampoff (at' textCfg) = emitted [0x64, 0x6F, 0x78, 0x21] := by decide +kernel

/-- V-FRM-1 and V-FRM-3. -/
theorem test_frame :
    outcome (.frame 0x44 0x77 (ascii "b12832")) (at' textCfg) = returned (.bytes (ascii "Dwb12832!")) ∧
      outcome (.frame 0x44 0x73 (ascii "b!")) (at' textCfg) = raised (.framingError .terminatorInPayload 3) := by
  decide +kernel

/-- V-FRM-5. -/
theorem test_frame_binary_payload :
    outcome (.frame 0x44 0x77 [0x62, 0x21, 0x00]) (at' binaryCfg) =
      returned (.bytes [0x44, 0x77, 0x62, 0x21, 0x00, 0x21]) := by decide +kernel

/-- V-PAR-4 and V-PAR-12. -/
theorem test_parse :
    outcome (.parse (ascii "dosf!")) (at' textCfg) =
        returned (.command ⟨0x64, 0x6F, [0x73, 0x66], 0x21, .rampSetup .frequency⟩) ∧
      outcome (.parse (ascii "Dwb065532!")) (at' textCfg) = raised (.framingError .badField 9) := by decide +kernel

/-- V-PAR-21 and V-PAR-32. -/
theorem test_parse_overlong_and_trailing :
    outcome (.parse (ascii "Dwa" ++ List.replicate 63 0x31 ++ ascii "1!")) (at' textCfg) =
        raised (.framingError .overlong 66) ∧
      outcome (.parse [0x44, 0x77, 0x62, 0x21, 0x00, 0x21]) (at' textCfg) = raised (.framingError .trailing 4) := by
  decide +kernel

/-- V-RX-2: the first byte. -/
theorem test_rx_bad_device :
    outcome (.rx 0x5A) (at' textCfg) = raised (.framingError .badDevice 0) ∧
      parserAfter (.rx 0x5A) (at' textCfg) = some ⟨.discard, none, none, [], false, 0⟩ := by decide +kernel

/-- V-RX-1: the last byte. -/
theorem test_rx_completes :
    outcome (.rx 0x21) { at' textCfg with parser := ⟨.readPayload, some 0x44, some 0x73, [0x62, 0x31], false, 4⟩ } =
        returned (.command ⟨0x44, 0x73, [0x62, 0x31], 0x21, .dacInit .bipolar .x2⟩) ∧
      parserAfter (.rx 0x21) { at' textCfg with parser := ⟨.readPayload, some 0x44, some 0x73, [0x62, 0x31], false, 4⟩ } =
        some .reset := by decide +kernel

/-! ## The wire frames -/

/-- V-PAR-1. -/
theorem test_frame_dac_init :
    outcome (.frameDacInit (ascii "u3!")) (at' textCfg) =
      returned (.command ⟨0x44, 0x73, [0x75, 0x33], 0x21, .dacInit .unipolar .x432⟩) := by decide +kernel

/-- V-PAR-2 and V-PAR-11. -/
theorem test_frame_dac_write_text :
    outcome (.frameDacWriteText (ascii "b12832!")) (at' textCfg) =
        returned (.command ⟨0x44, 0x77, ascii "b12832", 0x21, .dacWrite .dacB 12832⟩) ∧
      outcome (.frameDacWriteText (ascii "b12833!")) (at' textCfg) = raised (.framingError .badField 8) := by
  decide +kernel

/-- V-PAR-28 and V-PAR-29. -/
theorem test_frame_dac_write_binary :
    outcome (.frameDacWriteBinary [0x62, 0x21, 0x00, 0x21]) (at' binaryCfg) =
        returned (.command ⟨0x44, 0x77, [0x62, 0x21, 0x00], 0x21, .dacWrite .dacB 0x2100⟩) ∧
      outcome (.frameDacWriteBinary [0x62, 0x21, 0x00, 0x22]) (at' binaryCfg) =
        raised (.framingError .badTerminator 5) := by decide +kernel

/-- V-PAR-3 and V-PAR-23. -/
theorem test_frame_dds_tone :
    outcome (.frameDdsTone (ascii "8192,16384,42949672!")) (at' textCfg) =
        returned (.command ⟨0x64, 0x70, ascii "8192,16384,42949672", 0x21, .ddsTone 8192 16384 42949672⟩) ∧
      outcome (.frameDdsTone (ascii "16384,0,0!")) (at' textCfg) = raised (.framingError .badField 11) := by
  decide +kernel

/-- V-PAR-26. -/
theorem test_frame_dds_ramp_setup :
    outcome (.frameDdsRampSetup (ascii "z!")) (at' textCfg) = raised (.unsupportedParameter .rampParameter) := by
  decide +kernel

/-- V-PAR-6 and V-PAR-27. -/
theorem test_frame_dds_ramp_params :
    outcome (.frameDdsRampParams (ascii "p5,1,0,0,65535,0!")) (at' textCfg) =
        returned (.command ⟨0x64, 0x6F, ascii "pp5,1,0,0,65535,0", 0x21, .rampParams .phase 5 1 0 0 65535 0⟩) ∧
      outcome (.frameDdsRampParams (ascii "a16384,0,0,0,0,0!")) (at' textCfg) =
        raised (.framingError .badField 19) := by decide +kernel

/-- V-PAR-5 and V-PAR-25. -/
theorem test_frame_dds_ramp_disable :
    outcome (.frameDdsRampDisable [0x21]) (at' textCfg) =
        returned (.command ⟨0x64, 0x6F, [0x78], 0x21, .rampDisable⟩) ∧
      outcome (.frameDdsRampDisable (ascii "x!")) (at' textCfg) = raised (.framingError .badField 4) := by
  decide +kernel

theorem test_frame_dds_load :
    outcome (.frameDdsLoad []) (at' textCfg) = returned (.command ⟨0x64, 0x6C, [], 0x21, .load⟩) := by decide +kernel

theorem test_frame_dds_reset :
    outcome (.frameDdsReset []) (at' textCfg) = returned (.command ⟨0x64, 0x72, [], 0x21, .reset⟩) := by decide +kernel

/-! ## Witnesses: states and operands that meet the hypotheses of the statements -/

theorem witness_DecodeOfEncode :
    textCfg.legal = true ∧ binaryCfg.legal = true ∧ (Instr.frameDacWriteText []).wellFormed textCfg = true ∧
      (Instr.frameDacWriteBinary []).wellFormed binaryCfg = true ∧
      (Instr.ddsTone .nan (.inf true) (.real 0) (.real 0) (.real 0)).wellFormed floatCfg = true := by decide

theorem witness_StepRunsDecodedInstruction :
    (State.reset.withFetchWord 8 7).inputs = .submit (.request ⟨7, []⟩) :: [] ∧
      decode State.reset.cfg (.request ⟨7, []⟩) = .ok .ddsLoad ∧ Instr.ddsLoad.wellFormed State.reset.cfg = true := by
  decide +kernel

theorem witness_ReservedOperationRefused :
    (State.reset.withFetchWord 8 0xD).inputs = .submit (.request ⟨0xD, []⟩) :: [] ∧ 0xD#4 ∈ [0x0#4, 0xD#4, 0xE#4, 0xF#4] ∧
      (State.reset.withFetchWord 8 0x9).inputs = .submit (.request ⟨0x9, []⟩) :: [] ∧
      0x9#4 ∉ [0x0#4, 0xD#4, 0xE#4, 0xF#4] := by decide +kernel

/-- Reset in the middle of a received frame. -/
def midFrame : State :=
  { State.reset with
    tx := [0x64, 0x6C, 0x21]
    writes := [[0x64, 0x6C, 0x21]]
    parser := ⟨.readPayload, some 0x44, some 0x73, [0x62], false, 3⟩
    inputs := [.reset] }

theorem witness_ResetInputResetsBlock : midFrame.inputs = .reset :: [] := rfl

theorem midFrame_good : midFrame.Good :=
  ⟨by decide, by decide, by decide, fun w hw => .inl ⟨.load, by
    have : w = [0x64, 0x6C, 0x21] := by simpa [midFrame] using hw
    subst this
    decide +kernel⟩⟩

/-- A good state with a submission. -/
def submitted : State := { midFrame with inputs := [.submit (.request ⟨0xC, [.byte 0x31]⟩)] }

theorem submitted_good : submitted.Good := midFrame_good

theorem submitted_steps : ∃ t, step submitted = .next t := ⟨_, rfl⟩

theorem witness_StepKeepsParserWellFormed :
    submitted.cfg.legal = true ∧ submitted.parser.wf submitted.cfg = true ∧ ∃ t, step submitted = .next t :=
  ⟨submitted_good.1, submitted_good.2.1, submitted_steps⟩

theorem witness_StepKeepsWholeFrames : submitted.Good ∧ ∃ t, step submitted = .next t :=
  ⟨submitted_good, submitted_steps⟩

theorem witness_TransmitStreamOnlyGrows :
    (∀ rest, submitted.inputs ≠ .reset :: rest) ∧ ∃ t, step submitted = .next t :=
  ⟨fun _ h => (by cases h), submitted_steps⟩

theorem witness_EveryRequestIsAnswered :
    submitted.cfg.legal = true ∧ submitted.parser.wf submitted.cfg = true ∧
      (Instr.rx 0x31).wellFormed submitted.cfg = true ∧ (Instr.frameDacWriteText []).wellFormed submitted.cfg = true := by
  decide

/-- A builder, a request that only returns, and RX. -/
theorem witness_RequestsWriteOnlyTheirState :
    (∃ t, exec .ddsLoad midFrame = .next t) ∧ (∃ t, exec (.parse []) midFrame = .next t) ∧
      ∃ t, exec (.rx 0x31) midFrame = .next t := ⟨⟨_, rfl⟩, ⟨_, rfl⟩, ⟨_, rfl⟩⟩

theorem witness_RequestsReadOnlyTheirState :
    midFrame.cfg = State.reset.cfg ∧ (isRx .ddsLoad → midFrame.parser = State.reset.parser) ∧
      ∃ t, exec .ddsLoad midFrame = .next t :=
  ⟨rfl, fun h => (nomatch h), ⟨_, rfl⟩⟩

theorem witness_RequestsReadOnlyTheirState_rx :
    midFrame.cfg = submitted.cfg ∧ midFrame.parser = submitted.parser ∧ midFrame.inputs ≠ submitted.inputs ∧
      ∃ t, exec (.rx 0x31) midFrame = .next t :=
  ⟨rfl, rfl, by decide, ⟨_, rfl⟩⟩

/-- An error of a builder, a stage-1 error of RX, and a stage-2 error of RX. -/
theorem witness_ErrorsArePrecise :
    exec (.dacInit 3 0) midFrame = .next (midFrame.answer (.err .unsupportedGainMode)) ∧
      (∃ t, exec (.rx 0x0A) midFrame = .next t ∧ t.result = some (.err (.framingError .badPayloadByte 3)) ∧
        (step1 midFrame.cfg midFrame.parser 0x0A).2 = .error .badPayloadByte 3) ∧
      ∃ t, exec (.rx 0x21) midFrame = .next t ∧ t.result = some (.err (.framingError .badField 3)) ∧
        (step1 midFrame.cfg midFrame.parser 0x21).2 = .frame 0x44 0x73 [0x62] 3 :=
  ⟨rfl, ⟨_, rfl, rfl, rfl⟩, ⟨_, rfl, rfl, rfl⟩⟩

theorem witness_ErrorLeavesNextRequestAlone :
    ¬ isRx (.dacInit 3 0) ∧ ∃ t, exec (.dacInit 3 0) midFrame = .next t ∧ t.result = some (.err .unsupportedGainMode) :=
  ⟨fun h => (nomatch h), ⟨_, rfl, rfl⟩⟩

theorem witness_BuildersNeverRaiseFramingError :
    isBuilder (.dacInit 3 0) = true ∧ ∃ t, exec (.dacInit 3 0) midFrame = .next t := ⟨rfl, ⟨_, rfl⟩⟩

/-- ENCODE: one witness a clause, under each arithmetic where it differs. -/
theorem witness_EncodeFollowsRule :
    ([.nan, .real 5, .real 14, .real 16] : List Quantity).all (Quantity.expressible floatCfg.numerics) = true ∧
      finite? .binary64 .nan = none ∧
      finite? .exact (.real 5) = some 5 ∧ natural? .exact (.real 0) = some 0 ∧ natural? .exact (.real (3 / 2)) = none ∧
      natural? .exact (.real 1) = some 1 ∧ natural? .exact (.real 32) = some 32 ∧
      (-- f <= 0, then value outside at either end, then the closed ends
        finite? .exact (.real 0) = some 0 ∧ ¬ ((if false then -(5 : Rat) else 0) ≤ -1 ∧ (-1 : Rat) ≤ 5) ∧
        (if true then -(5 : Rat) else 0) ≤ -5 ∧ fraction .exact (-5) 5 true = some 0 ∧
        fraction .exact 5 5 true = some 1) := by
  decide +kernel

/-- Operands whose binary64 fraction falls outside the format, and a word for DECODE at the top of its range. -/
theorem witness_CodecRequestsAlwaysAnswer :
    ([.real (-(2 ^ 1022)), .real (2 ^ 1023), .real 1, .real 32] : List Quantity).all
        (Quantity.expressible floatCfg.numerics) = true ∧
      finite? .binary64 (.real (2 ^ 1023)) = some (2 ^ 1023) ∧ (0 : Rat) < 2 ^ 1023 ∧
      finite? .binary64 (.real (2 ^ 1022)) = some (2 ^ 1022) ∧ fraction .binary64 (2 ^ 1022) (2 ^ 1023) true = some 0 ∧
      fraction .binary64 (2 ^ 1023) (2 ^ 1023 + 2 ^ 1022) true = none ∧ natural? .binary64 (.real 1) = some 1 ∧
      natural? .binary64 (.real 32) = some 32 ∧ (if true then -(2 ^ 1023 : Rat) else 0) ≤ 2 ^ 1022 ∧
      natural? .binary64 (.real 4294967295) = some 4294967295 ∧ 4294967295 < 2 ^ 32 := by
  decide +kernel

/-- The corner cases at the least and the greatest widths, over a finite and an infinite scale. -/
theorem witness_EncodeCornerCases :
    outcome (.codecEncode (.real 5) (.real 5) (.real 1) (.real 1) true) (at' textCfg) = returned (.word ⟨1, 1, 1⟩) ∧
      outcome (.codecEncode (.real 0) (.real (2 ^ 1023)) (.real 14) (.real 16) true) (at' floatCfg) =
        returned (.word ⟨14, 16, 0x8000⟩) ∧
      outcome (.codecEncode (.real (2 ^ 1023)) (.real (2 ^ 1023)) (.real 32) (.real 32) true) (at' floatCfg) =
        returned (.word ⟨32, 32, 0xFFFFFFFF⟩) ∧
      outcome (.codecEncode (.real (-(2 ^ 1023))) (.real (2 ^ 1023)) (.real 14) (.real 16) true) (at' floatCfg) =
        returned (.word ⟨14, 16, 0⟩) := by
  decide +kernel

theorem witness_EncodeOverInfiniteScale :
    finite? .binary64 (.real (-(2 ^ 1022))) = some (-(2 ^ 1022)) ∧
      finite? .binary64 (.real (2 ^ 1023)) = some (2 ^ 1023) ∧ (0 : Rat) < 2 ^ 1023 ∧ (-(2 ^ 1023) : Rat) ≤ -(2 ^ 1022) ∧
      (-(2 ^ 1022) : Rat) < 2 ^ 1023 ∧ (-(2 ^ 1022) : Rat) ≠ 0 ∧ natural? .binary64 (.real 14) = some 14 ∧
      natural? .binary64 (.real 16) = some 16 ∧ fl (2 * 2 ^ 1023) = none ∧ fl (-(2 ^ 1022) + 2 ^ 1023) ≠ none := by
  decide +kernel

theorem witness_EncodedWordIsLeftJustified :
    outcome (.codecEncode (.real 5) (.real 5) (.real 1) (.real 32) false) (at' textCfg) =
      returned (.word ⟨1, 32, 2 ^ 31⟩) := by decide +kernel

theorem witness_DecodeFollowsRule :
    ([.real 4, .nan, .real 14, .real 16] : List Quantity).all (Quantity.expressible floatCfg.numerics) = true ∧
      finite? .binary64 .nan = none ∧ finite? .exact (.real 5) = some 5 ∧ natural? .exact (.real 14) = some 14 ∧
      natural? .exact (.real 16) = some 16 ∧ natural? .exact (.real 33) = some 33 ∧
      natural? .exact (.real (-1)) = none ∧ natural? .exact (.real 65535) = some 65535 ∧ 65535 < 2 ^ 16 ∧
      natural? .exact (.real 65536) = some 65536 ∧
      fl (((65532 >>> (16 - 14) : Nat) : Rat) * 5) = some 81915 ∧ fl (81915 / 2 ^ 14) = some (81915 / 16384) ∧
      fl (2 * 5) = some 10 ∧ fl (((65532 >>> (16 - 14) : Nat) : Rat) * 10) = some 163830 ∧
      fl (163830 / 2 ^ 14) = some (81915 / 8192) ∧ fl (81915 / 8192 - 5) = some (40955 / 8192) := by decide +kernel

/-- The least and the greatest raw word, with low bits that DECODE ignores; a product outside the format. -/
theorem witness_DecodeCornerCases :
    natural? .exact (.real 3) = some 3 ∧ 3 < 2 ^ (16 - 14) ∧ natural? .exact (.real 65535) = some 65535 ∧
      65535 >>> (16 - 14) = 2 ^ 14 - 1 ∧ finite? .exact (.real 5) = some 5 ∧
      finite? .binary64 (.real (2 ^ 1023)) = some (2 ^ 1023) ∧
      fl (((2 ^ 14 - 1 : Nat) : Rat) * (if true then 2 * 2 ^ 1023 else 2 ^ 1023)) = none ∧
      outcome (.codecDecode (.real 0) (.real (2 ^ 1023)) (.real 14) (.real 16) true) (at' floatCfg) =
        returned (.number (-(2 ^ 1023))) ∧
      outcome (.codecDecode (.real 65532) (.real (2 ^ 1023)) (.real 14) (.real 16) true) (at' floatCfg) =
        returned (.number (2 ^ 1023 - 2 ^ 1010)) := by
  decide +kernel

theorem witness_CodecLaws :
    (1 : Nat) ≤ 1 ∧ (1 : Nat) ≤ 32 ∧ (0 : Rat) < 5 ∧ (if true then -(5 : Rat) else 0) ≤ -5 ∧ (5 : Rat) ≤ 5 ∧
      codec .exact (-5) 5 1 32 true = some 0 ∧ codec .exact 5 5 32 32 true = some (2 ^ 32 - 1) := by decide +kernel

theorem witness_RoundTripWithinOneStep :
    (at' textCfg).cfg.numerics = .exact ∧ (if true then -(5 : Rat) else 0) ≤ 5 ∧ (5 : Rat) ≤ 5 ∧ (0 : Rat) < 5 := by
  decide +kernel

/-- A tie (2^53 + 1), and both sides of the overflow threshold. -/
theorem witness_RoundsToNearestEven :
    fl (2 ^ 53 + 1) = some (2 ^ 53) ∧ fl (2 ^ 53 + 3) = some (2 ^ 53 + 4) ∧ fl (2 ^ 1024 - 2 ^ 970) = none ∧
      fl (2 ^ 1024 - 2 ^ 970 - 1) = some (2 ^ 1024 - 2 ^ 971) := by decide +kernel

/-- The other neighbour of the tie is a binary64 value, equally near. -/
theorem witness_RoundsToNearestEven_tie :
    IsBinary64 (2 ^ 53 + 2) ∧ (2 ^ 53 + 2 : Rat) ≠ 2 ^ 53 ∧
      |(2 ^ 53 + 2 : Rat) - (2 ^ 53 + 1)| = |(2 ^ 53 : Rat) - (2 ^ 53 + 1)| :=
  ⟨⟨2 ^ 52 + 1, 1, by norm_num, by norm_num, by norm_num, by norm_num⟩, by norm_num, by norm_num⟩

/-- V-NUM-2: the operands, which are binary64 values, and their fraction. -/
theorem witness_ArithmeticsDifferByOneLsb :
    fl (3 / 4) = some (3 / 4) ∧ fl 3 = some 3 ∧ (if true then -(3 : Rat) else 0) ≤ 3 / 4 ∧ (3 / 4 : Rat) ≤ 3 ∧
      fl (2 * 3) ≠ none ∧ (fraction .binary64 3 3 false) = some 1 := by decide +kernel

theorem witness_DacInitFollowsRule :
    (2, .x432) ∈ gainRows ∧ (1, .bipolar) ∈ polarityRows ∧ gain? 3 = none ∧ polarity? 2 = none := by decide

theorem witness_DacWriteFollowsRule :
    ([.real 1, .real 2] : List Quantity).all (Quantity.expressible textCfg.numerics) = true ∧
      ([.nan, .real 2] : List Quantity).all (Quantity.expressible floatCfg.numerics) = true ∧
      (2, .dacBoth) ∈ addressRows ∧ (2, .x432) ∈ gainRows ∧ (1, .bipolar) ∈ polarityRows ∧ finite? .binary64 .nan = none ∧
      ¬ ((2 : Rat) ≤ 301 / 100 ∧ (301 / 100 : Rat) ≤ 3) ∧ (2 : Rat) ≤ 2 ∧ (3 : Rat) ≤ 3 ∧
      rnd .exact (mult .exact .x2 * 2) = some 4 ∧ ¬ (-4 ≤ (41 / 10 : Rat) ∧ (41 / 10 : Rat) ≤ 4) ∧ (-4 : Rat) ≤ 4 := by
  decide +kernel

theorem witness_BipolarWordIsOffsetBinary : (0 : Rat) < 5 ∧ fl 5 = some 5 := by decide +kernel

theorem witness_DdsToneFollowsRule :
    finites? .exact [.real 1, .real 1, .real 0, .real 1, .real 1] = some [1, 1, 0, 1, 1] ∧
      finites? .binary64 [.real 1, .real 1, .inf true, .real 1, .real 1] = none ∧
      finites? .exact [.real 0, .real 0, .real 0, .real 0, .real 1] = some [0, 0, 0, 0, 1] ∧
      finites? .exact [.real 2, .real 1, .real 0, .real 0, .real 1] = some [2, 1, 0, 0, 1] := by decide +kernel

/-- DDS.RAMP: operands at the edges of the clauses. -/
theorem witness_DdsRampFollowsRule :
    rampParameter? 3 = none ∧ (2, .amplitude) ∈ parameterRows ∧
      finites? .exact [.real 0, .real 1, .real 1, .real 1, .real 65535, .real 0, .real 1] =
        some [0, 1, 1, 1, 65535, 0, 1] ∧
      finites? .binary64 [.real 0, .real 1, .real 1, .real 1, .nan, .real 0, .real 1] = none ∧
      rnd .exact (1 - 0) = some 1 ∧ (0 : Rat) < 1 ∧ ¬ (0 : Rat) < 0 ∧ (1 : Rat) ≤ 1 ∧ ¬ (11 / 10 : Rat) ≤ 1 ∧
      (∀ x ∈ ([0, 1, 1, 1] : List Rat), 0 ≤ x ∧ x ≤ 1) ∧ ¬ (∀ x ∈ ([0, 1, -1, 1] : List Rat), 0 ≤ x ∧ x ≤ 1) := by
  decide +kernel

theorem witness_SaturatedRampBreaksWordBound : (at' textCfg).cfg = .standard := rfl

theorem witness_FrameFollowsRule :
    ascii "b!x!" = ascii "b" ++ 0x21 :: ascii "x!" ∧ (0x21 : Byte) ∉ ascii "b" ∧
      ¬ (textCfg.wireForm = .binary ∧ (0x44 : Byte) = 0x44 ∧ (0x77 : Byte) = textCfg.codes.opDacWrite) ∧
      (binaryCfg.wireForm = .binary ∧ (0x44 : Byte) = 0x44 ∧ (0x77 : Byte) = binaryCfg.codes.opDacWrite) := by
  decide +kernel

/-- RX: one parser state a clause; a full buffer and the bytes at the ends of the printable range. -/
theorem witness_RxFollowsStageOne :
    State.reset.parser.pstate = .expectDevice ∧
      ((⟨.expectOpcode, some 0x44, none, [], false, 1⟩ : Parser).wf textCfg = true ∧
        listedOpcode textCfg (some 0x44) 0x77 = true ∧ listedOpcode textCfg (some 0x44) 0x70 = false) ∧
      ((⟨.readPayload, some 0x44, some 0x77, List.replicate 64 0x31, false, 66⟩ : Parser).wf textCfg = true ∧
        (⟨.readPayload, some 0x44, some 0x77, List.replicate 63 0x31, false, 65⟩ : Parser).wf textCfg = true ∧
        (0x1F : Byte) < 0x20 ∧ (0x7E : Byte) < 0x7F) ∧
      (⟨.readPayload, some 0x44, some 0x77, [0x62, 0x21], true, 4⟩ : Parser).wf binaryCfg = true ∧
      (⟨.expectTerminator, some 0x44, some 0x77, [0x62, 0x21, 0x00], true, 5⟩ : Parser).wf binaryCfg = true ∧
      (⟨.readPayload, some 0x64, some 0x6C, [], false, 2⟩ : Parser).wf textCfg = true := by decide +kernel

theorem witness_RxDiscardsToTerminator :
    (step1 textCfg .reset 0x5A).2 = .error .badDevice 0 ∧ (step1 textCfg .reset 0x21).2 = .error .badDevice 0 ∧
      (⟨.discard, none, none, [], false, 0⟩ : Parser).wf textCfg = true := by decide +kernel

theorem witness_TextFormResynchronises :
    midFrame.cfg.legal = true ∧ midFrame.cfg.wireForm = .text ∧ midFrame.parser.wf midFrame.cfg = true := by decide

theorem witness_FieldReadsExactlyDec :
    field (ascii "0") 1 = some 0 ∧ field (ascii "65535") 65536 = some 65535 ∧ field (ascii "65536") 65536 = none ∧
      field (ascii "01") 100 = none ∧ ([7, 0] : List Nat) ≠ [] ∧ List.Forall₂ (· < ·) [7, 0] [8, 1] :=
  ⟨by decide +kernel, by decide +kernel, by decide +kernel, by decide +kernel, by decide,
    .cons (by decide) (.cons (by decide) .nil)⟩

/-- One witness a clause: V-PAR-18, V-PAR-20 and V-PAR-29; a frame with bytes after it and one at the end. -/
theorem witness_ParseFollowsRule :
    Parser.reset.taking textCfg (ascii "Dwb12832") =
        some ⟨.readPayload, some 0x44, some 0x77, ascii "b12832", false, 8⟩ ∧
      outcome (.parse (ascii "Dwb12832")) (at' textCfg) = raised (.framingError .unterminated 8) ∧
      (step1 textCfg ⟨.readPayload, some 0x44, some 0x77, ascii "a1", false, 4⟩ 0x0A).2 = .error .badPayloadByte 4 ∧
      (step1 binaryCfg ⟨.expectTerminator, some 0x44, some 0x77, [0x62, 0x21, 0x00], true, 5⟩ 0x22).2 =
        .error .badTerminator 5 ∧
      (step1 textCfg ⟨.readPayload, some 0x64, some 0x6C, [], false, 2⟩ 0x21).2 = .frame 0x64 0x6C [] 2 := by
  decide +kernel

/-- V-PAR-20, V-PAR-21 and V-PAR-29. -/
theorem witness_ParseStageErrorsAreNamed :
    textCfg.legal = true ∧ binaryCfg.legal = true ∧ (0x0A : Byte) < 0x20 ∧ (0x7E : Byte) < 0x7F ∧
      (ascii "a1").all payloadByte = true ∧ (List.replicate 64 (0x31 : Byte)).all payloadByte = true ∧
      outcome (.parse (ascii "Dwa1" ++ 0x0A :: ascii "2!")) (at' textCfg) = raised (.framingError .badPayloadByte 4) ∧
      outcome (.parse (ascii "Dw" ++ List.replicate 64 0x31 ++ ascii "1!")) (at' textCfg) =
        raised (.framingError .overlong 66) ∧
      outcome (.parse [0x44, 0x77, 0x62, 0x21, 0x00, 0x22]) (at' binaryCfg) =
        raised (.framingError .badTerminator 5) := by decide +kernel

theorem witness_ParseTrailingAndUnterminated :
    Answers (.parse (ascii "dl!")) midFrame (.ok (.command ⟨0x64, 0x6C, [], 0x21, .load⟩)) ∧ ascii "d" ≠ [] ∧
      2 < (ascii "dl!").length := ⟨rfl, by decide, by decide⟩

/-- Legal fields of the two write forms, and of ramp parameters at their bounds. -/
theorem witness_ParseRecoversFramedFields_legal :
    textCfg.legal = true ∧ LegalFrame textCfg 0x44 0x77 (ascii "b65532") (.dacWrite .dacB 65532) ∧
      LegalFrame binaryCfg 0x44 0x77 [0x62, 0x21, 0x00] (.dacWrite .dacB 0x2100) ∧
      LegalFrame textCfg 0x64 0x6F (ascii "pa0,16383,1,1,65535,0") (.rampParams .amplitude 0 16383 1 1 65535 0) := by
  refine ⟨by decide, ⟨rfl, rfl, by decide, by decide, fun _ => by decide +kernel, fun h => nomatch h⟩,
    ⟨rfl, rfl, by decide, by decide, (fun h => nomatch h), fun _ => by decide +kernel⟩, rfl, rfl, ?_, by decide +kernel⟩
  simp [rampBounds]

theorem witness_ParseRecoversFramedFields :
    Answers (.parse ([0x64, 0x6C] ++ [] ++ [0x21])) midFrame (.ok (.command ⟨0x64, 0x6C, [], 0x21, .load⟩)) := rfl

theorem witness_BuilderFramesParseBack :
    midFrame.cfg.legal = true ∧ isBuilder .ddsLoad = true ∧
      ∃ t, exec .ddsLoad midFrame = .next t ∧ t.result = some (.ok (.bytes [0x64, 0x6C, 0x21])) :=
  ⟨by decide, rfl, ⟨_, rfl, rfl⟩⟩

/-- The ramp pair emits a frame string: `test_dds_ramp` shows its bytes. -/
theorem witness_BuilderFramesParseBack_ramp :
    isRamp (.ddsRamp 1 (.real 0) (.real 360) (.real 90) (.real 45) (.real 0) (.real 65535) (.real 0)) ∧
      outcome (.ddsRamp 1 (.real 0) (.real 360) (.real 90) (.real 45) (.real 0) (.real 65535) (.real 0)) (at' textCfg) =
        emitted (ascii "dosp!dopp0,65535,16384,8192,0,65535!") :=
  ⟨⟨_, _, _, _, _, _, _, _, rfl⟩, test_dds_ramp.1⟩

theorem witness_StreamingGivesOneCommandPerFrame :
    State.reset.parser = .reset ∧
      [ascii "dl!", ascii "dr!"].map (parseReply State.reset.cfg) =
        [⟨0x64, 0x6C, [], 0x21, .load⟩, ⟨0x64, 0x72, [], 0x21, .reset⟩].map Reply.ok := ⟨rfl, by decide +kernel⟩

theorem witness_FrameLengths :
    ∃ t, exec .ddsLoad midFrame = .next t ∧ t.result = some (.ok (.bytes [0x64, 0x6C, 0x21])) := ⟨_, rfl, rfl⟩

theorem witness_DacInitFrameIsRead :
    midFrame.cfg.legal = true ∧ payloadByte 0x20 = true ∧ payloadByte 0x7E = true ∧
      polOfCode midFrame.cfg.codes 0x7A = none ∧ polOfCode midFrame.cfg.codes 0x62 = some .bipolar ∧
      gainOfCode midFrame.cfg.codes 0x39 = none ∧ (ascii "b12").all payloadByte = true ∧
      (ascii "b12").length ≤ 64 ∧ (ascii "b12").length ≠ 2 ∧
      outcome (.frameDacInit (ascii "b12!")) (at' textCfg) = raised (.framingError .badField 5) := by decide +kernel

theorem witness_DacWriteFrameIsRead :
    textCfg.legal = true ∧ textCfg.wireForm = .text ∧ binaryCfg.legal = true ∧ binaryCfg.wireForm = .binary ∧
      65532 < 2 ^ 16 ∧ 65532 % 4 = 0 ∧ 65535 % 4 ≠ 0 := by decide +kernel

/-- V-PAR-12 to V-PAR-15 and V-PAR-31: no digits, a word at its bound, and address bytes in no row. -/
theorem witness_DacWriteFrameErrorsAreNamed :
    textCfg.legal = true ∧ payloadByte 0x64 = true ∧ (ascii "0").all payloadByte = true ∧ ascii "0" ≠ [] ∧
      (0x64 : Byte) ∉ [textCfg.codes.dacA, textCfg.codes.dacB, textCfg.codes.dacBoth] ∧
      outcome (.frameDacWriteText (ascii "d0!")) (at' textCfg) = raised (.unsupportedParameter .address) ∧
      (¬ ∃ w, w < 2 ^ 16 ∧ w % 4 = 0 ∧ ([] : List Byte) = dec w) ∧
      outcome (.frameDacWriteText (ascii "b65536!")) (at' textCfg) = raised (.framingError .badField 8) ∧
      outcome (.frameDacWriteBinary [0x7A, 0x00, 0x00, 0x21]) (at' binaryCfg) =
        raised (.unsupportedParameter .address) :=
  ⟨by decide, by decide, by decide, by decide, by decide, by decide +kernel,
    fun ⟨w, _, _, h⟩ => dec_ne_nil w h.symm, by decide +kernel, by decide +kernel⟩

theorem witness_ToneFrameIsRead :
    midFrame.cfg.legal = true ∧ 2 ^ 14 - 1 < 2 ^ 14 ∧ ¬ (2 ^ 14 < 2 ^ 14 ∧ 0 < 2 ^ 16 ∧ 0 < 2 ^ 32) ∧
      (dec (2 ^ 14) ++ [0x2C] ++ dec 0 ++ [0x2C] ++ dec 0).length ≤ 64 ∧
      (¬ ∃ ns, List.Forall₂ (· < ·) ns [2 ^ 14, 2 ^ 16, 2 ^ 32] ∧ ([] : List Byte) = joinFields ns) ∧
      outcome (.frameDdsTone (ascii "1,,2!")) (at' textCfg) = raised (.framingError .badField 6) :=
  ⟨by decide, by decide, by decide, by decide +kernel,
    fun ⟨_, h, h'⟩ => joinFields_ne_nil (fun hn => by subst hn; cases h) h'.symm, by decide +kernel⟩

theorem witness_RampFramesAreRead :
    midFrame.cfg.legal = true ∧ (∀ w ∈ [2 ^ 14 - 1, 0, 0, 0], w < 2 ^ 14) ∧ 65535 < 2 ^ 16 := by decide +kernel

/-- V-PAR-25 to V-PAR-27: no parameter's code, a payload of another length, and five fields in place of six. -/
theorem witness_RampFrameErrorsAreNamed :
    textCfg.legal = true ∧ payloadByte 0x7A = true ∧
      (0x7A : Byte) ∉ [textCfg.codes.frequency, textCfg.codes.phase, textCfg.codes.amplitude] ∧
      (ascii "1,2,0,0,1").all payloadByte = true ∧ (ascii "1,2,0,0,1").length ≤ 62 ∧
      (¬ ∃ ns, List.Forall₂ (· < ·) ns (rampBounds .frequency) ∧ ([] : List Byte) = joinFields ns) ∧
      outcome (.frameDdsRampParams (ascii "f1,2,0,0,1!")) (at' textCfg) = raised (.framingError .badField 13) ∧
      outcome (.frameDdsRampSetup [0x21]) (at' textCfg) = raised (.framingError .badField 3) :=
  ⟨by decide, by decide, by decide, by decide, by decide,
    fun ⟨_, h, h'⟩ => joinFields_ne_nil (fun hn => by subst hn; cases h) h'.symm, by decide +kernel, by decide +kernel⟩

theorem witness_LoadAndResetFramesAreRead :
    midFrame.cfg.legal = true ∧ (ascii "x").all payloadByte = true ∧ ascii "x" ≠ [] ∧
      outcome (.parse (ascii "dlx!")) (at' textCfg) = raised (.framingError .badField 3) := by decide +kernel

theorem witness_IllegalHeadersAreNamed :
    midFrame.cfg.legal = true ∧ (0x58 : Byte) ≠ 0x44 ∧ (0x58 : Byte) ≠ midFrame.cfg.ddsInd ∧
      (0x71 : Byte) ∉ [midFrame.cfg.codes.opDacInit, midFrame.cfg.codes.opDacWrite] ∧
      (0x77 : Byte) ∉
        [midFrame.cfg.codes.opTone, midFrame.cfg.codes.opDrg, midFrame.cfg.codes.opLoad, midFrame.cfg.codes.opReset] ∧
      payloadByte 0x71 = true ∧
      (0x71 : Byte) ∉ [midFrame.cfg.codes.subSetup, midFrame.cfg.codes.subParams, midFrame.cfg.codes.subDisable] ∧
      (ascii "1,2").all payloadByte = true ∧
      outcome (.parse (ascii "doq1,2!")) (at' textCfg) = raised (.framingError .badSubopcode 6) := by
  decide +kernel

end Sys2Proof.Tests
end

section
/-!
SUPPORT. Rounding to binary64: the facts about `fl` that statements about the arithmetics rest on; then what an operand
stands for, and the default configuration.
-/

namespace Sys2Proof.Machine

open Sys2Proof

/-! ### Powers of two -/

theorem two_zpow_of_nonneg {k : Int} (h : 0 ≤ k) : (2 : Rat) ^ k = 2 ^ k.toNat := by
  rw [← zpow_natCast, Int.toNat_of_nonneg h]

theorem two_zpow_of_neg {k : Int} (h : k < 0) : (2 : Rat) ^ k = (2 ^ (-k).toNat)⁻¹ := by
  rw [← zpow_natCast, ← zpow_neg, Int.toNat_of_nonneg (by omega), neg_neg]

theorem pow2_eq_zpow (e : Int) : pow2 e = (2 : Rat) ^ e := by
  unfold pow2
  split
  · rw [two_zpow_of_nonneg ‹_›]; push_cast; rfl
  · rw [two_zpow_of_neg (by omega), Rat.mkRat_eq_div]; push_cast; exact one_div _

/-! ### The parts of `fl` -/

/-- The quotient and the remainder of `roundHalfEven`, as one rational. -/
theorem div_eq_quotient_add (num den : Nat) (h : 0 < den) :
    (num : Rat) / den = (num / den : Nat) + ((num % den : Nat) : Rat) / den := by
  have hd : (den : Rat) ≠ 0 := by positivity
  have hsum : ((den * (num / den) + num % den : Nat) : Rat) = num := by rw [Nat.div_add_mod]
  push_cast at hsum
  field_simp
  linarith

/-- `roundHalfEven` is within one half of the quotient. -/
theorem roundHalfEven_near (num : Nat) {den : Nat} (h : 0 < den) :
    |(roundHalfEven num den : Rat) - num / den| ≤ 1 / 2 ∧
      (|(roundHalfEven num den : Rat) - num / den| = 1 / 2 → roundHalfEven num den % 2 = 0) := by
  have hd : (0 : Rat) < den := by exact_mod_cast h
  have hr0 : (0 : Rat) ≤ ((num % den : Nat) : Rat) / den := by positivity
  have hr1 : ((num % den : Nat) : Rat) / den < 1 := (div_lt_one hd).mpr (by exact_mod_cast Nat.mod_lt num h)
  rw [div_eq_quotient_add num den h]
  unfold roundHalfEven
  simp only
  split
  next hlt =>
    have hr : ((num % den : Nat) : Rat) / den < 1 / 2 := by
      rw [div_lt_div_iff₀ hd two_pos]; exact_mod_cast (by omega : num % den * 2 < 1 * den)
    rw [sub_add_cancel_left, abs_neg, abs_of_nonneg hr0]
    exact ⟨hr.le, fun he => absurd he hr.ne⟩
  next hge =>
    split
    next hgt =>
      have hr : 1 / 2 < ((num % den : Nat) : Rat) / den := by
        rw [div_lt_div_iff₀ two_pos hd]; exact_mod_cast (by omega : 1 * den < num % den * 2)
      push_cast at hr hr1 ⊢
      rw [add_sub_add_left_eq_sub, abs_of_nonneg (by linarith)]
      exact ⟨by linarith, fun he => by linarith⟩
    next hle =>
      have hr : ((num % den : Nat) : Rat) / den = 1 / 2 := by
        rw [div_eq_div_iff hd.ne' two_ne_zero]; exact_mod_cast (by omega : num % den * 2 = 1 * den)
      rw [hr]
      split
      next heven => exact ⟨by rw [sub_add_cancel_left, abs_neg]; norm_num, fun _ => heven⟩
      next hodd =>
        refine ⟨?_, fun _ => by omega⟩
        push_cast
        rw [add_sub_add_left_eq_sub]; norm_num

/-- The test of `ilog2` compares the quotient with `2 ^ e`. -/
theorem below_iff (num : Nat) {den : Nat} (h : 0 < den) (e : Int) :
    (if 0 ≤ e then decide (num < den * 2 ^ e.toNat) else decide (num * 2 ^ (-e).toNat < den)) = true ↔
      (num : Rat) / den < 2 ^ e := by
  have hd : (0 : Rat) < den := by exact_mod_cast h
  rw [div_lt_iff₀ hd]
  split
  next he =>
    rw [two_zpow_of_nonneg he, decide_eq_true_iff, mul_comm den]
    exact_mod_cast Iff.rfl
  next he =>
    rw [two_zpow_of_neg (by omega), decide_eq_true_iff, inv_mul_eq_div, lt_div_iff₀ (by positivity)]
    exact_mod_cast Iff.rfl

theorem log2_bounds {n : Nat} (h : 0 < n) :
    (2 : Rat) ^ (Nat.log2 n : Int) ≤ n ∧ (n : Rat) < 2 ^ ((Nat.log2 n : Int) + 1) := by
  constructor
  · exact_mod_cast Nat.log2_self_le h.ne'
  · exact_mod_cast Nat.lt_log2_self

/-- `ilog2` is the exponent of the quotient's binade. -/
theorem ilog2_spec {num den : Nat} (hn : 0 < num) (hd : 0 < den) :
    (2 : Rat) ^ ilog2 num den ≤ num / den ∧ (num : Rat) / den < 2 ^ (ilog2 num den + 1) := by
  have hd' : (0 : Rat) < den := by exact_mod_cast hd
  obtain ⟨hn1, hn2⟩ := log2_bounds hn
  obtain ⟨hd1, hd2⟩ := log2_bounds hd
  simp only [ilog2, below_iff num hd]
  generalize (Nat.log2 num : Int) = a at *
  generalize (Nat.log2 den : Int) = b at *
  split
  next hb =>
    refine ⟨?_, by rwa [sub_add_cancel]⟩
    rw [le_div_iff₀ hd']
    calc (2 : Rat) ^ (a - b - 1) * den ≤ 2 ^ (a - b - 1) * 2 ^ (b + 1) := by gcongr
      _ = 2 ^ a := by rw [← zpow_add₀ two_ne_zero]; congr 1; ring
      _ ≤ num := hn1
  next hb =>
    refine ⟨not_lt.mp hb, ?_⟩
    rw [div_lt_iff₀ hd']
    calc (num : Rat) < 2 ^ (a + 1) := hn2
      _ = 2 ^ (a - b + 1) * 2 ^ b := by rw [← zpow_add₀ two_ne_zero]; congr 1; ring
      _ ≤ 2 ^ (a - b + 1) * den := by gcongr

/-- `significand` is the nearest number of units of the last place, ties to even. -/
theorem significand_near (num : Nat) {den : Nat} (h : 0 < den) :
    |(significand num den : Rat) - num / den / 2 ^ lastPlace num den| ≤ 1 / 2 ∧
      (|(significand num den : Rat) - num / den / 2 ^ lastPlace num den| = 1 / 2 → significand num den % 2 = 0) := by
  unfold significand
  simp only
  generalize lastPlace num den = k
  split
  next hk =>
    have hunits : (num : Rat) / den / 2 ^ k = num / (den * 2 ^ k.toNat : Nat) := by
      rw [two_zpow_of_nonneg hk, div_div]; push_cast; rfl
    rw [hunits]
    exact roundHalfEven_near num (by positivity)
  next hk =>
    have hunits : (num : Rat) / den / 2 ^ k = (num * 2 ^ (-k).toNat : Nat) / den := by
      rw [two_zpow_of_neg (by omega), div_inv_eq_mul, div_mul_eq_mul_div]; push_cast; rfl
    rw [hunits]
    exact roundHalfEven_near _ h

/-! ### Rounding of a positive rational -/

/-- `c` units of the last place `2 ^ k` are the rounding of `q > 0` to 53 significant bits, no finer than `2 ^ -1074`
(40_codec.md R114, log 10). -/
structure RoundsTo (q : Rat) (c : Nat) (k : Int) : Prop where
  finest_le : -1074 ≤ k
  normal : k = -1074 ∨ 2 ^ 52 * (2 : Rat) ^ k ≤ q
  lt_binade : q < 2 ^ 53 * (2 : Rat) ^ k
  near : |c * (2 : Rat) ^ k - q| ≤ 2 ^ k / 2
  even_of_tie : |c * (2 : Rat) ^ k - q| = 2 ^ k / 2 → c % 2 = 0

/-- `fl` of a positive rational: its rounding, or nothing from `2 ^ 1024` on. -/
theorem fl_of_pos {q : Rat} (hq : 0 < q) :
    ∃ c k, RoundsTo q c k ∧
      fl q = if (c : Rat) * 2 ^ k < 2 ^ (1024 : Int) then some ((c : Rat) * 2 ^ k) else none := by
  have hnum : 0 < q.num.natAbs := Int.natAbs_pos.mpr (Rat.num_pos.mpr hq).ne'
  have hval : (q.num.natAbs : Rat) / q.den = q := by
    rw [Nat.cast_natAbs, abs_of_pos (Rat.num_pos.mpr hq), Rat.num_div_den]
  obtain ⟨hlog, hlog'⟩ := ilog2_spec hnum q.den_pos
  obtain ⟨hnear, htie⟩ := significand_near q.num.natAbs q.den_pos
  rw [hval] at hlog hlog' hnear htie
  refine ⟨significand q.num.natAbs q.den, lastPlace q.num.natAbs q.den, ?_, ?_⟩
  · have hk : lastPlace q.num.natAbs q.den = max (ilog2 q.num.natAbs q.den - 52) (-1074) := rfl
    generalize lastPlace q.num.natAbs q.den = k at *
    generalize significand q.num.natAbs q.den = c at *
    generalize ilog2 q.num.natAbs q.den = e at *
    have hu : (0 : Rat) < 2 ^ k := by positivity
    have herr : |c * (2 : Rat) ^ k - q| = |(c : Rat) - q / 2 ^ k| * 2 ^ k := by
      rw [← abs_of_pos hu, ← abs_mul, abs_of_pos hu, sub_mul, div_mul_cancel₀ _ hu.ne']
    refine ⟨by omega, ?_, ?_, ?_, ?_⟩
    · rcases le_total (e - 52) (-1074) with h | h
      · exact .inl (by omega)
      · right
        calc (2 : Rat) ^ 52 * 2 ^ k = 2 ^ e := by
              rw [← zpow_natCast, ← zpow_add₀ two_ne_zero]; congr 1; omega
          _ ≤ q := hlog
    · calc q < 2 ^ (e + 1) := hlog'
        _ ≤ 2 ^ (53 + k) := zpow_le_zpow_right₀ one_le_two (by omega)
        _ = 2 ^ 53 * 2 ^ k := by rw [zpow_add₀ two_ne_zero]; rfl
    · rw [herr]; nlinarith
    · rw [herr]; intro he; exact htie (mul_right_cancel₀ hu.ne' (by linarith))
  · unfold fl
    simp only [pow2_eq_zpow, hq.ne', hq.not_gt, if_false]

/-- `fl` is odd. -/
theorem fl_neg (q : Rat) : fl (-q) = (fl q).map (- ·) := by
  rcases eq_or_ne q 0 with rfl | hq
  · simp
  unfold fl
  simp only [Rat.neg_num, Rat.neg_den, Int.natAbs_neg, neg_eq_zero, hq, if_false, Left.neg_neg_iff]
  split
  · rcases lt_or_gt_of_ne hq with h | h <;> simp [h, h.not_gt]
  · rfl

/-- Rounding to nearest even reaches an even number of units exactly from half a unit below it on. -/
theorem mul_lt_even_mul_iff {q u : Rat} {c N : Nat} (hu : 0 < u) (hN : N % 2 = 0) (hnear : |c * u - q| ≤ u / 2)
    (htie : |c * u - q| = u / 2 → c % 2 = 0) : (c : Rat) * u < N * u ↔ q < N * u - u / 2 := by
  obtain ⟨hlo, hhi⟩ := abs_le.mp hnear
  constructor
  · intro h
    have hc : c < N := by exact_mod_cast lt_of_mul_lt_mul_right h hu.le
    by_contra hq
    have hle : (N : Rat) ≤ c + 1 := le_of_mul_le_mul_right (by linarith) hu
    have hsucc : N = c + 1 := by
      have : N ≤ c + 1 := by exact_mod_cast hle
      omega
    have hval : q = c * u + u / 2 := by
      rw [hsucc] at hq; push_cast at hq; linarith
    have hodd := htie (by rw [hval, sub_add_cancel_left, abs_neg, abs_of_pos (by positivity)])
    omega
  · intro hq
    linarith

/-- The format's limit, in units of the gap between the largest binary64 value and the overflow threshold. -/
theorem two_zpow_limit : (2 : Rat) ^ (1024 : Int) = 2 ^ 54 * 2 ^ (970 : Int) := by
  rw [← zpow_natCast, ← zpow_add₀ two_ne_zero]; rfl

/-- The rounding stays in the format exactly below half a unit above the largest binary64 value. -/
theorem RoundsTo.lt_overflow_iff {q : Rat} {c : Nat} {k : Int} (h : RoundsTo q c k) :
    (c : Rat) * 2 ^ k < 2 ^ (1024 : Int) ↔ q < 2 ^ (1024 : Int) - 2 ^ (970 : Int) := by
  obtain ⟨-, hnormal, hlt, hnear, htie⟩ := h
  have hw : (0 : Rat) < 2 ^ (970 : Int) := by positivity
  obtain ⟨hlo, hhi⟩ := abs_le.mp hnear
  rw [two_zpow_limit]
  rcases lt_trichotomy k 971 with hk | rfl | hk
  case inl =>
    have hu : (2 : Rat) ^ k ≤ 2 ^ (970 : Int) := zpow_le_zpow_right₀ one_le_two (by omega)
    generalize (2 : Rat) ^ (970 : Int) = w at *
    exact iff_of_true (by linarith) (by linarith)
  case inr.inl =>
    have hu : (2 : Rat) ^ (971 : Int) = 2 * 2 ^ (970 : Int) := by
      rw [← zpow_one_add₀ two_ne_zero]; rfl
    have htop := mul_lt_even_mul_iff (N := 2 ^ 53) (by positivity) (by norm_num) hnear htie
    rw [hu] at htop ⊢
    generalize (2 : Rat) ^ (970 : Int) = w at *
    convert htop using 2
    · push_cast; ring
    · push_cast; ring
  case inr.inr =>
    have hu : 4 * (2 : Rat) ^ (970 : Int) ≤ 2 ^ k := by
      calc 4 * (2 : Rat) ^ (970 : Int) = 2 ^ ((2 : Int) + 970) := by rw [zpow_add₀ two_ne_zero]; norm_num
        _ ≤ 2 ^ k := zpow_le_zpow_right₀ one_le_two (by omega)
    have hq : 2 ^ 52 * (2 : Rat) ^ k ≤ q := hnormal.resolve_left (by omega)
    have hu0 : (0 : Rat) < 2 ^ k := by positivity
    generalize (2 : Rat) ^ (970 : Int) = w at *
    generalize (2 : Rat) ^ k = u at *
    have hc : ((2 ^ 52 : Nat) : Rat) < c + 1 := lt_of_mul_lt_mul_right (by push_cast; linarith) hu0.le
    have hc' : ((2 ^ 52 : Nat) : Rat) ≤ c := by exact_mod_cast Nat.lt_succ_iff.mp (by exact_mod_cast hc)
    have hcu : ((2 ^ 52 : Nat) : Rat) * u ≤ c * u := by gcongr
    push_cast at hcu
    exact iff_of_false (by linarith) (by linarith)

/-- Rounding overflows exactly from half a unit above the largest binary64 value on. -/
theorem fl_eq_none_iff (q : Rat) : fl q = none ↔ (2 : Rat) ^ (1024 : Int) - 2 ^ (970 : Int) ≤ |q| := by
  have hpos : ∀ {q : Rat}, 0 < q → (fl q = none ↔ (2 : Rat) ^ (1024 : Int) - 2 ^ (970 : Int) ≤ q) := by
    intro q hq
    obtain ⟨c, k, hround, hfl⟩ := fl_of_pos hq
    rw [hfl, ← not_lt, ← hround.lt_overflow_iff]
    split <;> simp only [*, not_true, not_false_iff, reduceCtorEq]
  rcases lt_trichotomy q 0 with hq | rfl | hq
  · rw [abs_of_neg hq, ← hpos (neg_pos.mpr hq), fl_neg, Option.map_eq_none_iff]
  · have : (2 : Rat) ^ (970 : Int) < 2 ^ (1024 : Int) := zpow_lt_zpow_right₀ one_lt_two (by norm_num)
    simp only [fl_zero, abs_zero, reduceCtorEq, false_iff, not_le, sub_pos, this]
  · rw [abs_of_pos hq, hpos hq]

/-- What is nearer to zero than a number in the format does not overflow. -/
theorem fl_isSome_of_abs_le {q r : Rat} (h : |q| ≤ |r|) (hr : fl r ≠ none) : ∃ x, fl q = some x := by
  rw [← Option.ne_none_iff_exists']
  exact fun hq => hr ((fl_eq_none_iff r).mpr (((fl_eq_none_iff q).mp hq).trans h))

/-- A rounded positive rational is its rounding. -/
theorem roundsTo_of_fl_eq_some {q x : Rat} (hq : 0 < q) (h : fl q = some x) :
    ∃ (c : Nat) (k : Int), RoundsTo q c k ∧ x = c * (2 : Rat) ^ k := by
  obtain ⟨c, k, hround, hfl⟩ := fl_of_pos hq
  rw [hfl] at h
  split at h
  · exact ⟨c, k, hround, (Option.some.inj h).symm⟩
  · cases h

/-! ### Error bounds -/

/-- A whole number of the finest units `2 ^ -1074` of the format. -/
def OnGrid (x : Rat) : Prop := ∃ m : Int, x = m * (2 : Rat) ^ (-1074 : Int)

theorem OnGrid.add {x y : Rat} (hx : OnGrid x) (hy : OnGrid y) : OnGrid (x + y) := by
  obtain ⟨a, rfl⟩ := hx
  obtain ⟨b, rfl⟩ := hy
  exact ⟨a + b, by rw [Int.cast_add, add_mul]⟩

theorem OnGrid.neg {x : Rat} (hx : OnGrid x) : OnGrid (-x) := by
  obtain ⟨a, rfl⟩ := hx
  exact ⟨-a, by rw [Int.cast_neg, neg_mul]⟩

/-- Units no finer than the format's finest lie on the grid. -/
theorem onGrid_natCast_mul_zpow (c : Nat) {k : Int} (hk : -1074 ≤ k) : OnGrid (c * (2 : Rat) ^ k) := by
  refine ⟨c * 2 ^ (k + 1074).toNat, ?_⟩
  have hscale : (2 : Rat) ^ k = 2 ^ (k + 1074).toNat * 2 ^ (-1074 : Int) := by
    rw [← two_zpow_of_nonneg (by omega), ← zpow_add₀ two_ne_zero, Int.add_neg_cancel_right]
  rw [hscale, ← mul_assoc, Int.cast_mul, Int.cast_pow, Int.cast_natCast, Int.cast_ofNat]

/-- A binary64 value lies on the grid. -/
theorem onGrid_of_fl_eq_some {q x : Rat} (h : fl q = some x) : OnGrid x := by
  have hpos : ∀ {q x : Rat}, 0 < q → fl q = some x → OnGrid x := by
    intro q x hq h
    obtain ⟨c, k, hround, rfl⟩ := roundsTo_of_fl_eq_some hq h
    exact onGrid_natCast_mul_zpow c hround.finest_le
  rcases lt_trichotomy q 0 with hq | rfl | hq
  · have := hpos (neg_pos.mpr hq) (by rw [fl_neg, h]; rfl)
    simpa using this.neg
  · rw [fl_zero] at h
    cases h
    exact ⟨0, by simp⟩
  · exact hpos hq h

/-- On the grid, rounding errs by at most `2 ^ -53` of the number: below the normal range it is exact. -/
theorem fl_relative_error {q x : Rat} (hq : 0 ≤ q) (hgrid : OnGrid q) (h : fl q = some x) :
    |x - q| ≤ q / 2 ^ 53 := by
  rcases hq.eq_or_lt with rfl | hq
  · rw [fl_zero] at h
    cases h
    simp
  obtain ⟨c, k, hround, rfl⟩ := roundsTo_of_fl_eq_some hq h
  obtain ⟨-, hnormal, -, hnear, -⟩ := hround
  have hu : (0 : Rat) < 2 ^ k := by positivity
  rcases hnormal with rfl | hnormal
  · obtain ⟨m, rfl⟩ := hgrid
    rw [← sub_mul, abs_mul, abs_of_pos hu] at hnear
    have hunits : |(c : Rat) - m| < 1 := by nlinarith
    have hcm : (c : Int) = m := by
      have : |(c : Int) - m| < 1 := by exact_mod_cast hunits
      have := Int.abs_lt_one_iff.mp this
      omega
    have hcm' : (c : Rat) = m := by exact_mod_cast hcm
    rw [hcm', sub_self, abs_zero]
    positivity
  · refine hnear.trans ?_
    linarith

/-- Below 2 rounding errs by at most `2 ^ -52`. -/
theorem fl_absolute_error {q : Rat} (hq : 0 ≤ q) (hlt : q < 2) : ∃ x, fl q = some x ∧ |x - q| ≤ 1 / 2 ^ 52 := by
  rcases hq.eq_or_lt with rfl | hq
  · exact ⟨0, fl_zero, by norm_num⟩
  have htwo : fl 2 = some 2 := by decide +kernel
  obtain ⟨x, hx⟩ := fl_isSome_of_abs_le (abs_le_abs_of_nonneg hq.le hlt.le) (by simp [htwo])
  obtain ⟨c, k, hround, rfl⟩ := roundsTo_of_fl_eq_some hq hx
  have hu : (2 : Rat) ^ k ≤ 2 ^ (-51 : Int) := by
    rcases hround.normal with rfl | hnormal
    · exact zpow_le_zpow_right₀ one_le_two (by norm_num)
    · norm_num
      linarith
  refine ⟨_, hx, hround.near.trans ?_⟩
  calc (2 : Rat) ^ k / 2 ≤ 2 ^ (-51 : Int) / 2 := by gcongr
    _ = 1 / 2 ^ 52 := by norm_num

/-! ### The two arithmetics -/

/-- In unipolar mode the two fractions are `2 ^ -50` apart at most. -/
theorem fraction_unipolar_near {v fs : Rat} (hfs : 0 < fs) (hv : 0 ≤ v) (hle : v ≤ fs) :
    ∃ f, fraction .binary64 v fs false = some f ∧ |f - v / fs| ≤ 1 / 2 ^ 50 := by
  have h1 : v / fs ≤ 1 := (div_le_one hfs).mpr hle
  obtain ⟨f, hf, herr⟩ := fl_absolute_error (by positivity : 0 ≤ v / fs) (by linarith)
  exact ⟨f, hf, herr.trans (by norm_num)⟩

/-- A quotient whose operands err by `2 ^ -53` of themselves errs by `2 ^ -51` at most. -/
theorem div_near_of_relative_error {s d t1 t2 : Rat} (hs : 0 ≤ s) (hd : 0 < d) (hsd : s ≤ d)
    (h1 : |t1 - s| ≤ s / 2 ^ 53) (h2 : |t2 - d| ≤ d / 2 ^ 53) :
    0 ≤ t1 / t2 ∧ |t1 / t2 - s / d| ≤ 1 / 2 ^ 51 := by
  obtain ⟨h1l, h1u⟩ := abs_le.mp h1
  obtain ⟨h2l, h2u⟩ := abs_le.mp h2
  have ht1 : 0 ≤ t1 := by linarith
  have ht2 : d / 2 ≤ t2 := by linarith
  have ht2' : 0 < t2 := by linarith
  refine ⟨by positivity, ?_⟩
  have hcross : t1 / t2 - s / d = ((t1 - s) * d - s * (t2 - d)) / (t2 * d) := by
    field_simp; ring
  rw [hcross, abs_div, abs_of_pos (by positivity : 0 < t2 * d), div_le_iff₀ (by positivity)]
  calc |(t1 - s) * d - s * (t2 - d)| ≤ |t1 - s| * d + s * |t2 - d| := by
        refine (abs_sub _ _).trans_eq ?_
        rw [abs_mul, abs_mul, abs_of_pos hd, abs_of_nonneg hs]
    _ ≤ s / 2 ^ 53 * d + s * (d / 2 ^ 53) := by gcongr
    _ = s * d * (1 / 2 ^ 52) := by ring
    _ ≤ d * d * (1 / 2 ^ 52) := by gcongr
    _ = 1 / 2 ^ 51 * (d / 2 * d) := by ring
    _ ≤ 1 / 2 ^ 51 * (t2 * d) := by gcongr

/-- In bipolar mode, where the scale stays in the format, the two fractions of binary64 operands are `2 ^ -50` apart at
most. -/
theorem fraction_bipolar_near {v fs : Rat} (hv64 : fl v = some v) (hfs64 : fl fs = some fs) (hfs : 0 < fs)
    (hv : -fs ≤ v) (hle : v ≤ fs) (hscale : fl (2 * fs) ≠ none) :
    ∃ f, fraction .binary64 v fs true = some f ∧ |f - (v + fs) / (2 * fs)| ≤ 1 / 2 ^ 50 := by
  have hvgrid := onGrid_of_fl_eq_some hv64
  have hfsgrid := onGrid_of_fl_eq_some hfs64
  have hsum0 : 0 ≤ v + fs := by linarith
  have hsum : v + fs ≤ 2 * fs := by linarith
  have hscale0 : 0 < 2 * fs := by linarith
  obtain ⟨t2, ht2⟩ := Option.ne_none_iff_exists'.mp hscale
  obtain ⟨t1, ht1⟩ := fl_isSome_of_abs_le (abs_le_abs_of_nonneg hsum0 hsum) hscale
  obtain ⟨hq0, hquot⟩ := div_near_of_relative_error hsum0 hscale0 hsum
    (fl_relative_error hsum0 (hvgrid.add hfsgrid) ht1)
    (fl_relative_error hscale0.le (two_mul fs ▸ hfsgrid.add hfsgrid) ht2)
  have hone : (v + fs) / (2 * fs) ≤ 1 := (div_le_one hscale0).mpr hsum
  obtain ⟨f, hf, herr⟩ := fl_absolute_error hq0 (by linarith [(abs_le.mp hquot).2])
  refine ⟨f, (fraction_bipolar (m := .binary64) ht1 ht2).trans hf, (abs_sub_le f (t1 / t2) _).trans ?_⟩
  linarith

/-- Fractions less than one step apart quantize to words at most one apart, saturation included. -/
theorem quantize_near {f g : Rat} {n : Nat} (hf : f ≤ 1) (h : |g - f| * 2 ^ n < 1) :
    quantize g n ≤ quantize f n + 1 ∧ quantize f n ≤ quantize g n + 1 := by
  have hp : (0 : Rat) < 2 ^ n := by positivity
  have hdiff : |g * 2 ^ n - f * 2 ^ n| < 1 := by rwa [← sub_mul, abs_mul, abs_of_pos hp]
  have htop : f * 2 ^ n ≤ 2 ^ n := by nlinarith
  obtain ⟨hlo, hhi⟩ := abs_lt.mp hdiff
  have hfl := Rat.floor_le (f * 2 ^ n)
  have hfl' := Rat.lt_floor (x := f * 2 ^ n)
  have hgl := Rat.floor_le (g * 2 ^ n)
  have hgl' := Rat.lt_floor (x := g * 2 ^ n)
  unfold quantize
  simp only
  generalize (f * 2 ^ n).floor = a at *
  generalize (g * 2 ^ n).floor = b at *
  have hab : a < b + 2 := by exact_mod_cast (by linarith : (a : Rat) < b + 2)
  have hba : b < a + 2 := by exact_mod_cast (by linarith : (b : Rat) < a + 2)
  have ha : a ≤ ((2 ^ n : Nat) : Int) := by exact_mod_cast (by push_cast; linarith : (a : Rat) ≤ (2 ^ n : Nat))
  have hb : b < ((2 ^ n : Nat) : Int) + 1 := by
    exact_mod_cast (by push_cast; linarith : (b : Rat) < (2 ^ n : Nat) + 1)
  have hpos : 0 < 2 ^ n := Nat.two_pow_pos n
  generalize 2 ^ n = p at *
  split <;> split <;> omega

/-- Fractions that are `2 ^ -50` apart give raw words that differ by at most one at every legal width. -/
theorem rawWord_near {m m' : Numerics} {v fs f g : Rat} {n : Nat} {bip : Bool} (hf : fraction m v fs bip = some f)
    (hg : fraction m' v fs bip = some g) (hone : f ≤ 1) (hn : n ≤ 32) (h : |g - f| ≤ 1 / 2 ^ 50) :
    rawWord m' v fs n bip ≤ rawWord m v fs n bip + 1 ∧ rawWord m v fs n bip ≤ rawWord m' v fs n bip + 1 := by
  have hstep : |g - f| * 2 ^ n < 1 := by
    calc |g - f| * 2 ^ n ≤ 1 / 2 ^ 50 * 2 ^ 32 := by gcongr; norm_num
      _ < 1 := by norm_num
  simpa only [rawWord, hf, hg] using quantize_near hone hstep

/-- Settles O30: the binary64 fraction is `2 ^ -50` from the exact one at most, and a step is `2 ^ -32` at least. -/
theorem arithmeticsDifferByOneLsb : Obligations.ArithmeticsDifferByOneLsb := by
  intro v fs n bip hv64 hfs64 hfs hv hle _ hn hscale
  have hexact := fraction_exact v fs bip
  cases bip with
  | false =>
    obtain ⟨f, hf, herr⟩ := fraction_unipolar_near hfs hv hle
    exact rawWord_near hexact hf ((div_le_one hfs).mpr hle) hn herr
  | true =>
    obtain ⟨f, hf, herr⟩ := fraction_bipolar_near hv64 hfs64 hfs hv hle (hscale rfl)
    have hone : (v + fs) / (2 * fs) ≤ 1 := (div_le_one (by linarith)).mpr (by linarith)
    exact rawWord_near hexact hf hone hn herr

/-! ### Operands and the default configuration -/

/-- Settles O29, from the equations of `finite?`, `rnd` and `natural?`. -/
theorem numbersOfOperands : Obligations.NumbersOfOperands := fun q b m _ _ =>
  ⟨finite?_exact q, rfl, finite?_inf m b, finite?_nan m, rnd_exact q, rnd_binary64 q, natural?_eq_some⟩

/-- Settles O4: the reset state holds the standard configuration, whose codes are the tables' bytes. -/
theorem standardCodes : Obligations.StandardCodes := by
  unfold Obligations.StandardCodes
  decide

end Sys2Proof.Machine
end

section
/-!
SUPPORT. The streaming parser's invariant: `Parser.wf` of each state of stage 1, every byte of stage 1 keeps it, and the
frames that stage 1 ends from it. Then the statement about every step.
-/

namespace Sys2Proof.Machine

open Sys2Proof

/-! ### The invariant, state by state -/

theorem Parser.wf_expectDevice {cfg : Config} {p : Parser} (h : p.pstate = .expectDevice) :
    p.wf cfg = true ↔ p = .reset := by
  simp [Parser.wf, h]

theorem Parser.wf_discard {cfg : Config} {p : Parser} (h : p.pstate = .discard) :
    p.wf cfg = true ↔ p = { Parser.reset with pstate := .discard } := by
  simp [Parser.wf, h]

theorem Parser.wf_expectOpcode {cfg : Config} {p : Parser} (h : p.pstate = .expectOpcode) :
    p.wf cfg = true ↔
      ∃ d, (d = dacInd ∨ d = cfg.ddsInd) ∧ p = ⟨.expectOpcode, some d, none, [], false, 1⟩ := by
  obtain ⟨ps, dev, opc, buf, bin, off⟩ := p
  cases h
  cases dev with
  | none => simp [Parser.wf]
  | some d => simp [Parser.wf]; tauto

theorem Parser.header_iff {cfg : Config} {p : Parser} :
    p.header cfg = true ↔ ∃ d o, p.pdev = some d ∧ p.popc = some o ∧ listedOpcode cfg (some d) o = true ∧
      p.pbin = binaryPayload cfg d o := by
  unfold Parser.header
  split <;> simp_all

theorem Parser.wf_readPayload {cfg : Config} {p : Parser} (h : p.pstate = .readPayload) :
    p.wf cfg = true ↔ p.header cfg = true ∧ p.poff = 2 + p.pbuf.length ∧
      (p.pbin = true ∧ p.pbuf.length < 3 ∨
        p.pbin = false ∧ p.pbuf.length ≤ maxPayload ∧ p.pbuf.all payloadByte = true) := by
  cases hb : p.pbin <;> simp [Parser.wf, h, hb, and_assoc]

theorem Parser.wf_expectTerminator {cfg : Config} {p : Parser} (h : p.pstate = .expectTerminator) :
    p.wf cfg = true ↔ p.header cfg = true ∧ p.pbin = true ∧ p.pbuf.length = 3 ∧ p.poff = 5 := by
  simp [Parser.wf, h, and_assoc]

@[simp] theorem Parser.wf_reset (cfg : Config) : Parser.reset.wf cfg = true :=
  (Parser.wf_expectDevice rfl).mpr rfl

@[simp] theorem errorParser_wf (cfg : Config) (b : Byte) : (errorParser b).wf cfg = true := by
  unfold errorParser
  split
  · exact Parser.wf_reset cfg
  · exact (Parser.wf_discard rfl).mpr rfl

/-- The bytes that stage 1 takes into a text payload (43_framer_parser.md R204). -/
theorem payloadByte_of_taken {b : Byte} (ht : b ≠ terminator) (h : ¬ (b < 0x20#8 ∨ 0x7E#8 < b)) :
    payloadByte b = true := by
  obtain ⟨hlo, hhi⟩ := not_or.mp h
  simp [payloadByte, ht, BitVec.not_lt.mp hlo, BitVec.not_lt.mp hhi]

/-! ### Every byte of stage 1 keeps it -/

theorem stepDevice_wf {cfg : Config} {p : Parser} (b : Byte) (hp : p = .reset) :
    (stepDevice cfg p b).1.wf cfg = true := by
  subst hp
  unfold stepDevice
  split
  next hb => exact (Parser.wf_expectOpcode rfl).mpr ⟨b, hb, rfl⟩
  next => exact errorParser_wf cfg b

theorem stepOpcode_wf {cfg : Config} {p : Parser} {d : Byte} (b : Byte)
    (hp : p = ⟨.expectOpcode, some d, none, [], false, 1⟩) : (stepOpcode cfg p b).1.wf cfg = true := by
  subst hp
  unfold stepOpcode
  split
  next hb =>
    refine (Parser.wf_readPayload rfl).mpr ⟨Parser.header_iff.mpr ⟨d, b, rfl, rfl, hb, rfl⟩, rfl, ?_⟩
    cases binaryPayload cfg d b <;> simp
  next => exact errorParser_wf cfg b

theorem stepText_wf {cfg : Config} {p : Parser} (b : Byte) (hs : p.pstate = .readPayload) (hb : p.pbin = false)
    (hp : p.wf cfg = true) : (stepText p b).1.wf cfg = true := by
  obtain ⟨hhdr, hoff, hbuf⟩ := (Parser.wf_readPayload hs).mp hp
  obtain ⟨-, hlen, hall⟩ := hbuf.resolve_left (by simp [hb])
  unfold stepText
  split
  next => exact Parser.wf_reset cfg
  next ht =>
    split
    next => exact errorParser_wf cfg b
    next hfull =>
      split
      next => exact errorParser_wf cfg b
      next hprint =>
        rw [Parser.wf_readPayload (by exact hs)]
        refine ⟨hhdr, by simp [hoff, Nat.add_assoc], .inr ⟨hb, ?_, ?_⟩⟩
        · simpa using Nat.lt_of_le_of_ne hlen hfull
        · simp only [List.all_append, hall, List.all_cons, payloadByte_of_taken ht hprint, List.all_nil, Bool.and_self]

theorem stepBinary_wf {cfg : Config} {p : Parser} (b : Byte) (hs : p.pstate = .readPayload) (hb : p.pbin = true)
    (hp : p.wf cfg = true) : (stepBinary p b).1.wf cfg = true := by
  obtain ⟨hhdr, hoff, hbuf⟩ := (Parser.wf_readPayload hs).mp hp
  obtain ⟨-, hlen⟩ := hbuf.resolve_right (by simp [hb])
  unfold stepBinary
  by_cases hthree : (p.pbuf ++ [b]).length = 3
  · simp only [hthree, if_true]
    refine (Parser.wf_expectTerminator rfl).mpr ⟨hhdr, hb, hthree, ?_⟩
    rw [List.length_append, List.length_singleton] at hthree
    show p.poff + 1 = 5
    omega
  · simp only [hthree, if_false]
    rw [List.length_append, List.length_singleton] at hthree
    rw [Parser.wf_readPayload (by exact hs)]
    refine ⟨hhdr, by simp [hoff, Nat.add_assoc], .inl ⟨hb, ?_⟩⟩
    rw [List.length_append, List.length_singleton]
    omega

theorem stepTerminator_wf (cfg : Config) (p : Parser) (b : Byte) : (stepTerminator p b).1.wf cfg = true := by
  unfold stepTerminator
  split
  · exact Parser.wf_reset cfg
  · exact errorParser_wf cfg b

theorem stepDiscard_wf {cfg : Config} {p : Parser} (b : Byte) (hp : p = { Parser.reset with pstate := .discard }) :
    (stepDiscard p b).1.wf cfg = true := by
  subst hp
  unfold stepDiscard
  dsimp only
  split
  · exact Parser.wf_reset cfg
  · exact (Parser.wf_discard rfl).mpr rfl

/-- Stage 1 keeps the parser in a state that it can be in (43_framer_parser.md R202 to R206, R210). -/
theorem step1_wf {cfg : Config} {p : Parser} (b : Byte) (hp : p.wf cfg = true) : (step1 cfg p b).1.wf cfg = true := by
  cases hs : p.pstate with
  | expectDevice =>
    simp only [step1, hs]
    exact stepDevice_wf b ((Parser.wf_expectDevice hs).mp hp)
  | expectOpcode =>
    obtain ⟨d, -, hp⟩ := (Parser.wf_expectOpcode hs).mp hp
    simp only [step1, hs]
    exact stepOpcode_wf b hp
  | readPayload =>
    cases hb : p.pbin with
    | false => simp only [step1, hs, hb]; exact stepText_wf b hs hb hp
    | true => simp only [step1, hs, hb]; exact stepBinary_wf b hs hb hp
  | expectTerminator =>
    simp only [step1, hs]
    exact stepTerminator_wf cfg p b
  | discard =>
    simp only [step1, hs]
    exact stepDiscard_wf b ((Parser.wf_discard hs).mp hp)

/-! ### Every step keeps it -/

/-- An instruction keeps the configuration and the parser's invariant: only RX writes the parser, by one byte of
stage 1. -/
theorem exec_wf {i : Instr} {s t : State} (hp : s.parser.wf s.cfg = true) (h : exec i s = .next t) :
    t.cfg = s.cfg ∧ t.parser.wf t.cfg = true := by
  rcases exec_next_shape h with ⟨r, rfl⟩ | ⟨-, f, rfl⟩ | ⟨b, r, -, rfl⟩
  · exact ⟨rfl, hp⟩
  · exact ⟨rfl, hp⟩
  · exact ⟨rfl, step1_wf b hp⟩

/-- Settles O9: a step idles, resets the parser, or performs an instruction. -/
theorem stepKeepsParserWellFormed : Obligations.StepKeepsParserWellFormed := by
  intro s t _ hp h
  rcases step_next_cases h with ⟨-, rfl⟩ | ⟨rest, -, rfl⟩ | ⟨x, rest, i, -, -, hexec⟩
  · exact ⟨rfl, hp⟩
  · exact ⟨rfl, Parser.wf_reset _⟩
  · exact exec_wf (s := s.takeInput rest) hp hexec

end Sys2Proof.Machine
end

section
/-!
SUPPORT. Each instruction as data that depends on the configuration alone: what it replies, and the way it ends. Then
what requests read and write, what a step does with a submission, and the reset state.
-/

namespace Sys2Proof.Machine

open Sys2Proof

/-! ### How an instruction ends -/

/-- The three ways in which an instruction ends: it returns its reply, it emits the frame of its reply, or it feeds one
byte to the streaming parser (10_state.md R34, R36). -/
inductive Ending
  | returns (r : Reply Value)
  | emits (r : Reply (List Byte))
  | receives (b : Byte)

/-- The ending performed on a state. -/
def Ending.run : Ending → State → Host.Outcome State Fault Refusal
  | .returns r, s => finish r s
  | .emits r, s => finishEmit r s
  | .receives b, s => execRx b s

/-- How each instruction ends in a configuration. A wire frame is read as PARSE reads its bytes (log 6). -/
def ending (cfg : Config) (i : Instr) : Ending :=
  match i with
  | .codecEncode value fs n t bipolar => .returns ((encodeReply cfg value fs n t bipolar).map .word)
  | .codecDecode word fs n t bipolar => .returns ((decodeReply cfg word fs n t bipolar).map .number)
  | .dacInit gain polarity => .emits (dacInitReply cfg gain polarity)
  | .dacWrite address voltage ref gain polarity => .emits (dacWriteReply cfg address voltage ref gain polarity)
  | .ddsTone amp ampRef phase freq sysclk => .emits (ddsToneReply cfg amp ampRef phase freq sysclk)
  | .ddsRamp param start stop dec inc negRate posRate ref =>
    .emits (ddsRampReply cfg param start stop dec inc negRate posRate ref)
  | .ddsLoad => .emits (.ok (loadFrame cfg))
  | .ddsReset => .emits (.ok (resetFrame cfg))
  | .ddsRampoff => .emits (.ok (rampDisableFrame cfg))
  | .frame dev opc payload => .returns ((frameReply cfg dev opc payload).map .bytes)
  | .parse bytes => .returns ((parseReply cfg bytes).map .command)
  | .rx b => .receives b
  | .frameDacInit rest | .frameDacWriteText rest | .frameDacWriteBinary rest | .frameDdsTone rest
  | .frameDdsRampSetup rest | .frameDdsRampParams rest | .frameDdsRampDisable rest | .frameDdsLoad rest
  | .frameDdsReset rest => .returns ((parseReply cfg (i.header cfg ++ rest)).map .command)

/-- Every instruction, its numbers checked, is performed by its ending: the model's twenty-one arms said once. -/
theorem exec_eq_ending (i : Instr) (s : State) :
    exec i s = withNumbers i.numbers s ((ending s.cfg i).run s) := by
  cases i <;> rfl

/-- A well-formed instruction is its ending. -/
theorem exec_eq_ending_run {i : Instr} {s : State} (h : i.wellFormed s.cfg = true) :
    exec i s = (ending s.cfg i).run s := by
  rw [exec_eq_ending]
  exact withNumbers_of_expressible _ (Bool.and_eq_true_iff.mp h).1

/-- A next state comes from the ending. -/
theorem exec_eq_next_iff {i : Instr} {s t : State} :
    exec i s = .next t ↔
      i.numbers.all (Quantity.expressible s.cfg.numerics) = true ∧ (ending s.cfg i).run s = .next t := by
  rw [exec_eq_ending, withNumbers_eq_next]

/-- RX alone receives a byte. -/
theorem ending_eq_receives {cfg : Config} {i : Instr} {b : Byte} : ending cfg i = .receives b ↔ i = .rx b := by
  cases i <;> simp [ending]

/-! ### What requests write -/

/-- Settles O14, from the shapes of a next state. -/
theorem requestsWriteOnlyTheirState : Obligations.RequestsWriteOnlyTheirState := by
  intro s t i h
  rcases exec_next_shape h with ⟨r, rfl⟩ | ⟨hbuilder, f, rfl⟩ | ⟨b, r, rfl, rfl⟩
  · exact ⟨rfl, rfl, fun _ => rfl, fun _ => ⟨rfl, rfl⟩⟩
  · exact ⟨rfl, rfl, fun _ => rfl, fun hno => by simp [hbuilder] at hno⟩
  · exact ⟨rfl, rfl, fun hno => absurd ⟨b, rfl⟩ hno, fun _ => ⟨rfl, rfl⟩⟩

/-- An instruction leaves the transmit stream, or emits one byte sequence. -/
theorem exec_tx_grows {i : Instr} {s t : State} (h : exec i s = .next t) :
    (t.tx = s.tx ∧ t.writes = s.writes) ∨ ∃ f, t.tx = s.tx ++ f ∧ t.writes = s.writes ++ [f] := by
  rcases exec_next_shape h with ⟨r, rfl⟩ | ⟨-, f, rfl⟩ | ⟨b, r, -, rfl⟩
  · exact .inl ⟨rfl, rfl⟩
  · exact .inr ⟨f, rfl, rfl⟩
  · exact .inl ⟨rfl, rfl⟩

/-- Settles O11: a step that is no reset idles or performs an instruction. -/
theorem transmitStreamOnlyGrows : Obligations.TransmitStreamOnlyGrows := by
  intro s t hreset h
  rcases step_next_cases h with ⟨-, rfl⟩ | ⟨rest, hin, -⟩ | ⟨x, rest, i, -, -, hexec⟩
  · exact .inl ⟨rfl, rfl⟩
  · exact absurd hin (hreset rest)
  · exact exec_tx_grows (s := s.takeInput rest) hexec

/-! ### What requests read -/

/-- The two states have taken the same effect: one result, and the same bytes appended to `tx`. -/
def SameEffect (s t s' t' : State) : Prop :=
  t'.result = t.result ∧ ∃ f, t.tx = s.tx ++ f ∧ t'.tx = s'.tx ++ f

theorem SameEffect.answer (r : Result) (s s' : State) : SameEffect s (s.answer r) s' (s'.answer r) :=
  ⟨rfl, [], (List.append_nil _).symm, (List.append_nil _).symm⟩

/-- A reply has the same effect on every state. -/
theorem finish_sameEffect {r : Reply Value} {s t : State} (s' : State) (h : finish r s = .next t) :
    ∃ t', finish r s' = .next t' ∧ SameEffect s t s' t' := by
  rcases finish_eq_next.mp h with ⟨v, rfl, rfl⟩ | ⟨e, rfl, rfl⟩
  · exact ⟨_, rfl, .answer _ s s'⟩
  · exact ⟨_, rfl, .answer _ s s'⟩

/-- A builder's reply has the same effect on every state. -/
theorem finishEmit_sameEffect {r : Reply (List Byte)} {s t : State} (s' : State) (h : finishEmit r s = .next t) :
    ∃ t', finishEmit r s' = .next t' ∧ SameEffect s t s' t' := by
  rcases finishEmit_eq_next.mp h with ⟨f, rfl, rfl⟩ | ⟨e, rfl, rfl⟩
  · exact ⟨_, rfl, rfl, f, rfl, rfl⟩
  · exact ⟨_, rfl, .answer _ s s'⟩

/-- A reply leaves the parser. -/
theorem finish_parser {r : Reply Value} {s t : State} (h : finish r s = .next t) : t.parser = s.parser := by
  rcases finish_eq_next.mp h with ⟨v, -, rfl⟩ | ⟨e, -, rfl⟩ <;> rfl

/-- RX reads the configuration and the parser state only. -/
theorem execRx_sameEffect {b : Byte} {s s' t : State} (hcfg : s.cfg = s'.cfg) (hparser : s.parser = s'.parser)
    (h : execRx b s = .next t) : ∃ t', execRx b s' = .next t' ∧ SameEffect s t s' t' ∧ t'.parser = t.parser := by
  obtain ⟨t', h', heffect⟩ := finish_sameEffect (s'.setParser (step1 s.cfg s.parser b).1) h
  have hrx : execRx b s' = .next t' := by rw [← h', execRx, hcfg, hparser]
  exact ⟨t', hrx, heffect, (finish_parser h').trans (finish_parser h).symm⟩

/-- An ending has the same effect on every state, with the parser state equal where it receives a byte. -/
theorem Ending.run_sameEffect {e : Ending} {s s' t : State} (hcfg : s.cfg = s'.cfg)
    (hparser : ∀ b, e = .receives b → s.parser = s'.parser) (h : e.run s = .next t) :
    ∃ t', e.run s' = .next t' ∧ SameEffect s t s' t' ∧ ∀ b, e = .receives b → t'.parser = t.parser := by
  cases e with
  | returns r =>
    obtain ⟨t', h', heffect⟩ := finish_sameEffect s' h
    exact ⟨t', h', heffect, nofun⟩
  | emits r =>
    obtain ⟨t', h', heffect⟩ := finishEmit_sameEffect s' h
    exact ⟨t', h', heffect, nofun⟩
  | receives b =>
    obtain ⟨t', h', heffect, hp⟩ := execRx_sameEffect hcfg (hparser b rfl) h
    exact ⟨t', h', heffect, fun _ _ => hp⟩

/-- Settles O15: the ending of a request depends on the configuration alone, and only RX's reads the parser state. -/
theorem requestsReadOnlyTheirState : Obligations.RequestsReadOnlyTheirState := by
  intro s s' t i hcfg hparser h
  obtain ⟨hnumbers, hrun⟩ := exec_eq_next_iff.mp h
  obtain ⟨t', hrun', ⟨hres, f, htx, htx'⟩, hp⟩ :=
    Ending.run_sameEffect hcfg (fun b hb => hparser ⟨b, ending_eq_receives.mp hb⟩) hrun
  refine ⟨t', f, exec_eq_next_iff.mpr (hcfg ▸ ⟨hnumbers, hrun'⟩), hres, htx, htx', ?_⟩
  rintro ⟨b, rfl⟩
  exact hp b rfl

/-! ### A submission, and the reset state -/

/-- A submission that decodes is performed on the state without it. -/
theorem step_submit {s : State} {x : Submission} {rest : List Input} {i : Instr} (hin : s.inputs = .submit x :: rest)
    (hdec : decode s.cfg x = .ok i) : step s = exec i (s.takeInput rest) := by
  simp only [step, hin, hdec]

/-- Settles O2, from the rule for a submission and the fields of `takeInput`. -/
theorem stepRunsDecodedInstruction : Obligations.StepRunsDecodedInstruction := fun _ _ _ _ hin hdec _ =>
  ⟨step_submit hin hdec, rfl, rfl, rfl, rfl⟩

/-- Settles O6: the fields of `State.reset`. -/
theorem resetValues : Obligations.ResetValues := ⟨rfl, rfl, rfl, rfl, rfl, rfl, rfl⟩

theorem Config.standard_legal : Config.standard.legal = true := by decide

/-- Nothing emitted is whole frames. -/
theorem State.wholeFrames_of_nil {s : State} (htx : s.tx = []) (hwrites : s.writes = []) : s.WholeFrames := by
  simp [State.WholeFrames, htx, hwrites]

/-- Settles O8: the standard configuration is legal, the parser is reset, and nothing is emitted. -/
theorem resetIsGood : Obligations.ResetIsGood :=
  ⟨Config.standard_legal, Parser.wf_reset _, State.wholeFrames_of_nil rfl rfl⟩

end Sys2Proof.Machine
end

section
/-!
SUPPORT. Rounding to binary64 keeps the order of rationals, so that `codec` keeps to its N bits under either arithmetic;
then the words that requests return.
-/

namespace Sys2Proof.Machine

open Sys2Proof

/-! ### Rounding keeps the order -/

/-- A rounding in the normal range has 53 significant bits. -/
theorem RoundsTo.normal_le {q : Rat} {c : Nat} {k : Int} (h : RoundsTo q c k) (hk : k ≠ -1074) : 2 ^ 52 ≤ c := by
  have hu : (0 : Rat) < 2 ^ k := by positivity
  have hq := h.normal.resolve_left hk
  have hlo := (abs_le.mp h.near).1
  have hc : ((2 ^ 52 : Nat) : Rat) < c + 1 := lt_of_mul_lt_mul_right (by push_cast; linarith) hu.le
  exact Nat.lt_succ_iff.mp (by exact_mod_cast hc)

/-- A rounding has at most `2 ^ 53` units of the last place. -/
theorem RoundsTo.le_binade {q : Rat} {c : Nat} {k : Int} (h : RoundsTo q c k) : c ≤ 2 ^ 53 := by
  have hu : (0 : Rat) < 2 ^ k := by positivity
  have hlt := h.lt_binade
  have hhi := (abs_le.mp h.near).2
  have hc : (c : Rat) < ((2 ^ 53 + 1 : Nat) : Rat) := lt_of_mul_lt_mul_right (by push_cast; linarith) hu.le
  exact Nat.lt_succ_iff.mp (by exact_mod_cast hc)

/-- Between roundings to the same last place the tie rule keeps the order. -/
theorem RoundsTo.le_of_same_place {q r : Rat} {c d : Nat} {k : Int} (hq : RoundsTo q c k) (hr : RoundsTo r d k)
    (hqr : q ≤ r) : c ≤ d := by
  have hu : (0 : Rat) < 2 ^ k := by positivity
  have hclo := (abs_le.mp hq.near).2
  have hdhi := (abs_le.mp hr.near).1
  by_contra hlt
  have hle : (c : Rat) ≤ ((d + 1 : Nat) : Rat) := le_of_mul_le_mul_right (by push_cast; linarith) hu
  have hsucc : c = d + 1 := by
    have : c ≤ d + 1 := by exact_mod_cast hle
    omega
  have hc : (c : Rat) * 2 ^ k = d * 2 ^ k + 2 ^ k := by rw [hsucc]; push_cast; ring
  have hctie := hq.even_of_tie (by rw [abs_of_nonneg (by linarith)]; linarith)
  have hdtie := hr.even_of_tie (by rw [abs_of_nonpos (by linarith)]; linarith)
  omega

/-- Rounding of positive rationals keeps their order. -/
theorem RoundsTo.mono {q r : Rat} {c d : Nat} {k l : Int} (hq : RoundsTo q c k) (hr : RoundsTo r d l) (hqr : q ≤ r) :
    (c : Rat) * 2 ^ k ≤ d * 2 ^ l := by
  rcases lt_trichotomy k l with hkl | rfl | hlk
  case inl =>
    have hk := hq.finest_le
    have hd : ((2 ^ 52 : Nat) : Rat) ≤ d := by exact_mod_cast hr.normal_le (by omega)
    have hc : (c : Rat) ≤ ((2 ^ 53 : Nat) : Rat) := by exact_mod_cast hq.le_binade
    calc (c : Rat) * 2 ^ k ≤ ((2 ^ 53 : Nat) : Rat) * 2 ^ k := by gcongr
      _ = ((2 ^ 52 : Nat) : Rat) * 2 ^ (1 + k) := by rw [zpow_add₀ two_ne_zero]; push_cast; ring
      _ ≤ ((2 ^ 52 : Nat) : Rat) * 2 ^ l :=
        mul_le_mul_of_nonneg_left (zpow_le_zpow_right₀ one_le_two (by omega)) (Nat.cast_nonneg _)
      _ ≤ d * 2 ^ l := by gcongr
  case inr.inl =>
    have hcd : (c : Rat) ≤ d := by exact_mod_cast hq.le_of_same_place hr hqr
    gcongr
  case inr.inr =>
    have hl := hr.finest_le
    have hnormal := hq.normal.resolve_left (by omega)
    have hstep : (2 : Rat) ^ (1 + l) ≤ 2 ^ k := zpow_le_zpow_right₀ one_le_two (by omega)
    rw [zpow_add₀ two_ne_zero, zpow_one] at hstep
    linarith [hr.lt_binade]

/-- Rounding keeps the sign. -/
theorem fl_nonneg {q x : Rat} (hq : 0 ≤ q) (h : fl q = some x) : 0 ≤ x := by
  rcases hq.eq_or_lt with rfl | hq
  · rw [fl_zero] at h
    cases h
    rfl
  · obtain ⟨c, k, -, rfl⟩ := roundsTo_of_fl_eq_some hq h
    positivity

theorem fl_nonpos {q x : Rat} (hq : q ≤ 0) (h : fl q = some x) : x ≤ 0 := by
  have := fl_nonneg (neg_nonneg.mpr hq) (by rw [fl_neg, h]; rfl)
  linarith

/-- Rounding of nonnegative rationals keeps their order. -/
theorem fl_mono_of_nonneg {q r x y : Rat} (hq : 0 ≤ q) (hqr : q ≤ r) (hx : fl q = some x) (hy : fl r = some y) :
    x ≤ y := by
  rcases hq.eq_or_lt with rfl | hq
  · rw [fl_zero] at hx
    cases hx
    exact fl_nonneg hqr hy
  · obtain ⟨c, k, hround, rfl⟩ := roundsTo_of_fl_eq_some hq hx
    obtain ⟨d, l, hround', rfl⟩ := roundsTo_of_fl_eq_some (hq.trans_le hqr) hy
    exact hround.mono hround' hqr

/-- Rounding keeps the order of rationals (40_codec.md R114). -/
theorem fl_mono {q r x y : Rat} (hqr : q ≤ r) (hx : fl q = some x) (hy : fl r = some y) : x ≤ y := by
  rcases le_total 0 q with hq | hq
  · exact fl_mono_of_nonneg hq hqr hx hy
  · rcases le_total 0 r with hr | hr
    · exact (fl_nonpos hq hx).trans (fl_nonneg hr hy)
    · have hx' : fl (-q) = some (-x) := by rw [fl_neg, hx]; rfl
      have hy' : fl (-r) = some (-y) := by rw [fl_neg, hy]; rfl
      exact neg_le_neg_iff.mp (fl_mono_of_nonneg (neg_nonneg.mpr hr) (neg_le_neg hqr) hy' hx')

/-- Under either arithmetic an operation keeps the order of the exact results. -/
theorem rnd_mono {m : Numerics} {q r x y : Rat} (hqr : q ≤ r) (hx : rnd m q = some x) (hy : rnd m r = some y) :
    x ≤ y := by
  cases m with
  | exact =>
    cases hx
    cases hy
    exact hqr
  | binary64 => exact fl_mono hqr hx hy

theorem rnd_zero (m : Numerics) : rnd m 0 = some 0 := by cases m <;> simp

theorem rnd_one (m : Numerics) : rnd m 1 = some 1 := by cases m <;> decide +kernel

/-! ### The raw word has N bits -/

/-- Inside the precondition the fraction is at most 1 (40_codec.md R111, R112, R115), over an infinite scale too
(log 18). -/
theorem fraction_le_one {m : Numerics} {v fs f : Rat} {bip : Bool} (hfs : 0 < fs) (hle : v ≤ fs)
    (h : fraction m v fs bip = some f) : f ≤ 1 := by
  cases bip with
  | false => exact rnd_mono ((div_le_one hfs).mpr hle) h (rnd_one m)
  | true =>
    cases h2 : rnd m (2 * fs) with
    | none =>
      rw [fraction_at_infinity h2] at h
      rcases fractionAtInfinity_cases h with ⟨-, rfl⟩ | ⟨-, rfl⟩ | rfl <;> norm_num
    | some t2 =>
      cases h1 : rnd m (v + fs) with
      | none => simp [fraction, h1, h2] at h
      | some t1 =>
        rw [fraction_bipolar h1 h2] at h
        have ht2 : 0 ≤ t2 := rnd_mono (by linarith) (rnd_zero m) h2
        have ht : t1 ≤ t2 := rnd_mono (by linarith) h1 h2
        exact rnd_mono (div_le_one_of_le₀ ht ht2) h (rnd_one m)

/-- Inside the precondition the raw word has `n` bits (40_codec.md R113, R115). -/
theorem rawWord_lt {m : Numerics} {v fs : Rat} (n : Nat) {bip : Bool} (hfs : 0 < fs) (hle : v ≤ fs) :
    rawWord m v fs n bip < 2 ^ n := by
  rcases rawWord_cases m v fs n bip with ⟨f, hf, hraw⟩ | ⟨-, hraw⟩
  · rw [hraw]
    exact quantize_lt (fraction_le_one hfs hle hf)
  · exact hraw

theorem legalWidths_iff {n t : Nat} : legalWidths n t = true ↔ 1 ≤ n ∧ n ≤ t ∧ t ≤ 32 := by
  simp [legalWidths, and_assoc]

theorem codecPre_iff {v fs : Rat} {n t : Nat} {bip : Bool} :
    codecPre v fs n t bip = true ↔ legalWidths n t = true ∧ 0 < fs ∧ lowerEnd fs bip ≤ v ∧ v ≤ fs := by
  simp [codecPre, and_assoc]

/-- `codec` has a value exactly inside its precondition (40_codec.md R117): the raw word, left-justified (R116). -/
theorem codec_eq_some_iff {m : Numerics} {v fs : Rat} {n t w : Nat} {bip : Bool} :
    codec m v fs n t bip = some w ↔ codecPre v fs n t bip = true ∧ rawWord m v fs n bip * 2 ^ (t - n) = w := by
  unfold codec
  split <;> simp_all

/-- A word of `codec` has legal widths, fits its slot, and has its low bits zero (10_state.md R33). -/
theorem codec_leftJustified {m : Numerics} {v fs : Rat} {n t w : Nat} {bip : Bool}
    (h : codec m v fs n t bip = some w) :
    1 ≤ n ∧ n ≤ t ∧ t ≤ 32 ∧ w < 2 ^ t ∧ w % 2 ^ (t - n) = 0 := by
  obtain ⟨hpre, rfl⟩ := codec_eq_some_iff.mp h
  obtain ⟨hwidths, hfs, -, hle⟩ := codecPre_iff.mp hpre
  obtain ⟨hn, hnt, ht⟩ := legalWidths_iff.mp hwidths
  refine ⟨hn, hnt, ht, ?_, Nat.mul_mod_left _ _⟩
  calc rawWord m v fs n bip * 2 ^ (t - n) < 2 ^ n * 2 ^ (t - n) :=
        Nat.mul_lt_mul_of_pos_right (rawWord_lt n hfs hle) (Nat.two_pow_pos _)
    _ = 2 ^ t := by rw [← Nat.pow_add, Nat.add_sub_cancel' hnt]

/-! ### The words that requests return -/

/-- A word that ENCODE answers is a word of `codec` with the widths it carries (40_codec.md R120). -/
theorem encodeReply_eq_ok {cfg : Config} {value fs n t : Quantity} {bip : Bool} {w : FixedPointWord}
    (h : encodeReply cfg value fs n t bip = .ok w) :
    ∃ v f, codec cfg.numerics v f w.bitWidth w.slot bip = some w.value := by
  unfold encodeReply at h
  split at h
  · split at h
    · cases h
    · split at h
      · cases h
      · split at h
        · cases h
        · obtain ⟨x, hx, hw⟩ := withWord_eq_ok.mp h
          cases hw
          exact ⟨_, _, hx⟩
  · cases h

/-- ENCODE alone returns a word. -/
theorem ending_returns_word {cfg : Config} {i : Instr} {r : Reply Value} {w : FixedPointWord}
    (hend : ending cfg i = .returns r) (hr : r = .ok (.word w)) :
    ∃ value fs n t bip, encodeReply cfg value fs n t bip = .ok w := by
  subst hr
  cases i with
  | codecEncode value fs n t bip =>
    obtain ⟨w', hw', heq⟩ := Reply.map_eq_ok.mp (Ending.returns.inj hend)
    cases heq
    exact ⟨value, fs, n, t, bip, hw'⟩
  | rx | dacInit | dacWrite | ddsTone | ddsRamp | ddsLoad | ddsReset | ddsRampoff => cases hend
  | codecDecode | frame | parse | frameDacInit | frameDacWriteText | frameDacWriteBinary | frameDdsTone
  | frameDdsRampSetup | frameDdsRampParams | frameDdsRampDisable | frameDdsLoad | frameDdsReset =>
    obtain ⟨_, -, heq⟩ := Reply.map_eq_ok.mp (Ending.returns.inj hend)
    cases heq

/-- RX returns no word. -/
theorem rxReply_ne_word {cfg : Config} {ev : Event} {w : FixedPointWord} : rxReply cfg ev ≠ .ok (.word w) := by
  cases ev with
  | none => simp [rxReply]
  | frame => simp [rxReply, Reply.map_eq_ok]
  | error => simp [rxReply]

/-- The value that a request answers is the one of its reply. -/
theorem finish_result_ok {r : Reply Value} {s t : State} {v : Value} (h : finish r s = .next t)
    (hres : t.result = some (.ok v)) : r = .ok v := by
  rcases finish_eq_next.mp h with ⟨v', rfl, rfl⟩ | ⟨e, -, rfl⟩
  · cases hres
    rfl
  · cases hres

/-- Settles O23: only ENCODE returns a word, and it is one of `codec`. -/
theorem encodedWordIsLeftJustified : Obligations.EncodedWordIsLeftJustified := by
  intro s t i w h hres
  obtain ⟨-, hrun⟩ := exec_eq_next_iff.mp h
  cases hend : ending s.cfg i with
  | returns r =>
    rw [hend] at hrun
    obtain ⟨value, fs, n, t', bip, hw⟩ := ending_returns_word hend (finish_result_ok hrun hres)
    obtain ⟨v, f, hcodec⟩ := encodeReply_eq_ok hw
    exact codec_leftJustified hcodec
  | emits r =>
    rw [hend] at hrun
    rcases finishEmit_eq_next.mp hrun with ⟨f, -, rfl⟩ | ⟨e, -, rfl⟩ <;> cases hres
  | receives b =>
    rw [hend] at hrun
    exact absurd (finish_result_ok hrun hres) rxReply_ne_word

end Sys2Proof.Machine
end

section
/-!
SUPPORT. No reply is a fault: `codec` is evaluated inside its precondition only, and stage 2 of the parser has a row for
every frame that stage 1 ends. Then the statement that every instruction completes.
-/

namespace Sys2Proof.Machine

open Sys2Proof

/-! ### Replies that are no fault -/

/-- The reply is a value or an error, and no fault of the model. -/
def Reply.Completes {α : Type} (r : Reply α) : Prop := ∀ f, r ≠ .fault f

theorem Reply.Completes.ok {α : Type} (v : α) : (Reply.ok v).Completes := nofun

theorem Reply.Completes.raise {α : Type} (e : Err) : (Reply.raise e : Reply α).Completes := nofun

theorem Reply.Completes.map {α β : Type} {r : Reply α} (h : r.Completes) (f : α → β) : (r.map f).Completes :=
  fun x hx => h x (Reply.map_eq_fault.mp hx)

theorem badField_completes {α : Type} (off : Nat) : (badField off : Reply α).Completes := .raise _

/-- A reply on a word that is there. -/
theorem withWord_completes {α : Type} {w : Option Nat} {k : Nat → Reply α} (hw : ∃ x, w = some x)
    (hk : ∀ x, (k x).Completes) : (withWord w k).Completes := by
  obtain ⟨x, rfl⟩ := hw
  exact hk x

/-- A request whose reply is no fault answers. -/
theorem finish_answers {r : Reply Value} (h : r.Completes) (s : State) :
    ∃ t x, finish r s = .next t ∧ t.result = some x := by
  cases r with
  | ok v => exact ⟨_, _, rfl, rfl⟩
  | raise e => exact ⟨_, _, rfl, rfl⟩
  | fault f => exact absurd rfl (h f)

/-- A builder whose reply is no fault answers. -/
theorem finishEmit_answers {r : Reply (List Byte)} (h : r.Completes) (s : State) :
    ∃ t x, finishEmit r s = .next t ∧ t.result = some x := by
  cases r with
  | ok f => exact ⟨_, _, rfl, rfl⟩
  | raise e => exact ⟨_, _, rfl, rfl⟩
  | fault f => exact absurd rfl (h f)

/-! ### The quantizer's requests -/

theorem codec_isSome {m : Numerics} {v fs : Rat} {n t : Nat} {bip : Bool} (hwidths : legalWidths n t = true)
    (hfs : 0 < fs) (hlo : lowerEnd fs bip ≤ v) (hhi : v ≤ fs) : ∃ x, codec m v fs n t bip = some x :=
  ⟨_, codec_eq_some_iff.mpr ⟨codecPre_iff.mpr ⟨hwidths, hfs, hlo, hhi⟩, rfl⟩⟩

theorem legalWidths_of_widths? {m : Numerics} {n t : Quantity} {n' t' : Nat} (h : widths? m n t = some (n', t')) :
    legalWidths n' t' = true := by
  unfold widths? at h
  split at h
  · split at h
    · cases h
      assumption
    · cases h
  · cases h

theorem encodeReply_completes (cfg : Config) (value fs n t : Quantity) (bip : Bool) :
    (encodeReply cfg value fs n t bip).Completes := by
  unfold encodeReply
  split
  · split
    · exact .raise _
    · next hwidths =>
      split
      · exact .raise _
      · next hfs =>
        split
        · exact .raise _
        · next hv =>
          obtain ⟨hlo, hhi⟩ := not_not.mp hv
          exact withWord_completes (codec_isSome (legalWidths_of_widths? hwidths) (not_not.mp hfs) hlo hhi)
            fun _ => .ok _
  · exact .raise _

theorem decodeReply_completes (cfg : Config) (word fs n t : Quantity) (bip : Bool) :
    (decodeReply cfg word fs n t bip).Completes := by
  unfold decodeReply
  split
  · exact .raise _
  · split
    · exact .raise _
    · split
      · exact .raise _
      · split
        · exact .raise _
        · split
          · exact .raise _
          · exact .ok _

/-! ### The DAC builders -/

theorem dacInitReply_completes (cfg : Config) (gain polarity : BitVec 2) :
    (dacInitReply cfg gain polarity).Completes := by
  unfold dacInitReply
  split
  · exact .raise _
  · split
    · exact .raise _
    · exact .ok _

theorem mult_bounds (m : Numerics) (g : GainMode) : 2 ≤ mult m g ∧ mult m g ≤ 5 := by
  cases m <;> cases g <;> decide +kernel

/-- What is nearer to zero than a number in the format stays in it, under either arithmetic. -/
theorem rnd_isSome_of_abs_le {m : Numerics} {q r y : Rat} (h : |q| ≤ |r|) (hr : rnd m r = some y) :
    ∃ x, rnd m q = some x := by
  cases m with
  | exact => exact ⟨q, rfl⟩
  | binary64 => exact fl_isSome_of_abs_le h (Option.ne_none_iff_exists'.mpr ⟨y, hr⟩)

/-- At a legal reference the full scale stays in the format and is positive (40_codec.md R119, 41_dac.md R143). -/
theorem fullScale_pos (m : Numerics) (g : GainMode) {ref : Rat} (h : legalDacReference ref = true) :
    ∃ fs, fullScale m g ref = some fs ∧ 0 < fs := by
  obtain ⟨hlo, hhi⟩ : 2 ≤ ref ∧ ref ≤ 3 := by simpa [legalDacReference] using h
  obtain ⟨hm, hm'⟩ := mult_bounds m g
  have hone : 1 ≤ mult m g * ref := by nlinarith
  have hfifteen : mult m g * ref ≤ 15 := by nlinarith
  have h15 : rnd m 15 = some 15 := by cases m <;> decide +kernel
  obtain ⟨fs, hfs⟩ := rnd_isSome_of_abs_le (abs_le_abs_of_nonneg (by linarith) hfifteen) h15
  exact ⟨fs, hfs, one_pos.trans_le (rnd_mono hone (rnd_one m) hfs)⟩

theorem dacWordReply_completes (cfg : Config) (a : DeviceAddress) (v : Rat) {fs : Rat} (bip : Bool) (hfs : 0 < fs) :
    (dacWordReply cfg a v fs bip).Completes := by
  unfold dacWordReply
  split
  · exact .raise _
  · next hv =>
    obtain ⟨hlo, hhi⟩ := not_not.mp hv
    exact withWord_completes (codec_isSome (by decide) hfs hlo hhi) fun _ => .ok _

theorem dacWriteReply_completes (cfg : Config) (address : BitVec 2) (voltage ref : Quantity)
    (gain polarity : BitVec 2) :
    (dacWriteReply cfg address voltage ref gain polarity).Completes := by
  unfold dacWriteReply
  split
  · exact .raise _
  · split
    · exact .raise _
    · next g _ =>
      split
      · exact .raise _
      · split
        · split
          · exact .raise _
          · next href =>
            obtain ⟨fs, hscale, hfs⟩ := fullScale_pos cfg.numerics g (not_not.mp href)
            rw [hscale]
            exact dacWordReply_completes cfg _ _ _ hfs
        · exact .raise _

/-! ### The DDS builders -/

/-- The reduced phase lies in one turn, its rounding included (40_codec.md R118). -/
theorem red360_bounds (m : Numerics) (p : Rat) : 0 ≤ red360 m p ∧ red360 m p ≤ 360 := by
  have hfloor := Rat.floor_le (p / 360)
  have hfloor' := Rat.lt_floor (x := p / 360)
  have h360 : rnd m 360 = some 360 := by cases m <;> decide +kernel
  unfold red360
  split
  · next r hr =>
    split
    · norm_num
    · exact ⟨rnd_mono (by linarith) (rnd_zero m) hr, rnd_mono (by linarith) hr h360⟩
  · norm_num

theorem pow_isSome (m : Numerics) (p : Rat) : ∃ x, pow m p = some x :=
  codec_isSome (by decide) (by norm_num) (red360_bounds m p).1 (red360_bounds m p).2

theorem ddsToneReply_completes (cfg : Config) (amp ampRef phase freq sysclk : Quantity) :
    (ddsToneReply cfg amp ampRef phase freq sysclk).Completes := by
  unfold ddsToneReply
  split
  · split
    · exact .raise _
    · next hampRef =>
      split
      · exact .raise _
      · next hclk =>
        split
        · exact .raise _
        · next hamp =>
          split
          · exact .raise _
          · next hfreq =>
            obtain ⟨ha, ha'⟩ := not_not.mp hamp
            obtain ⟨hf, hf'⟩ := not_not.mp hfreq
            exact withWord_completes (codec_isSome (by decide) (not_not.mp hampRef) ha ha') fun _ =>
              withWord_completes (pow_isSome _ _) fun _ =>
              withWord_completes (codec_isSome (by decide) (not_not.mp hclk) hf hf') fun _ => .ok _
  · exact .raise _

theorem rampScale_legal (p : RampParameter) (ref : Rat) (h : p = .phase ∨ 0 < ref) :
    legalWidths (rampScale p ref).1 (rampScale p ref).1 = true ∧ 0 < (rampScale p ref).2 := by
  cases p with
  | frequency => exact ⟨rfl, h.resolve_left (by decide)⟩
  | phase => exact ⟨rfl, by norm_num [rampScale]⟩
  | amplitude => exact ⟨rfl, h.resolve_left (by decide)⟩

theorem codec_isSome_of_inScale {m : Numerics} {x fs : Rat} {n : Nat} (hwidths : legalWidths n n = true) (hfs : 0 < fs)
    (h : inScale fs x = true) : ∃ w, codec m x fs n n false = some w := by
  obtain ⟨hlo, hhi⟩ : 0 ≤ x ∧ x ≤ fs := by simpa [inScale] using h
  exact codec_isSome hwidths hfs hlo hhi

theorem rampFrames_completes (cfg : Config) (p : RampParameter) {n : Nat} {fs a b d i : Rat} (rn rp : Nat)
    (hwidths : legalWidths n n = true) (hfs : 0 < fs) (h : [a, b, d, i].all (inScale fs) = true) :
    (rampFrames cfg p n fs a b d i rn rp).Completes := by
  have hword : ∀ x ∈ [a, b, d, i], ∃ w, codec cfg.numerics x fs n n false = some w := fun x hx =>
    codec_isSome_of_inScale hwidths hfs (List.all_eq_true.mp h x hx)
  exact withWord_completes (hword a (by simp)) fun _ => withWord_completes (hword b (by simp)) fun _ =>
    withWord_completes (hword d (by simp)) fun _ => withWord_completes (hword i (by simp)) fun _ => .ok _

theorem ddsRampReply_completes (cfg : Config) (param : BitVec 2) (start stop dec inc negRate posRate ref : Quantity) :
    (ddsRampReply cfg param start stop dec inc negRate posRate ref).Completes := by
  unfold ddsRampReply
  split
  · exact .raise _
  · next p _ =>
    split
    · next rf _ =>
      split
      · exact .raise _
      · dsimp only
        split
        · exact .raise _
        · next href =>
          split
          · exact .raise _
          · next hscale =>
            split
            · obtain ⟨hwidths, hfs⟩ := rampScale_legal p rf (by tauto)
              exact rampFrames_completes cfg p _ _ hwidths hfs (not_not.mp hscale)
            · exact .raise _
    · exact .raise _

/-! ### The framer and stage 2 of the parser -/

theorem frameReply_completes (cfg : Config) (dev opc : Byte) (payload : List Byte) :
    (frameReply cfg dev opc payload).Completes := by
  unfold frameReply
  split
  · exact .raise _
  · split
    · exact .raise _
    · split
      · exact .raise _
      · exact .ok _

theorem interpretDacInit_completes (c : CodeTable) (p : List Byte) (off : Nat) :
    (interpretDacInit c p off).Completes := by
  unfold interpretDacInit
  split
  · split
    · exact .raise _
    · split
      · exact .raise _
      · exact .ok _
  · exact badField_completes off

theorem interpretDacWord_completes (a : DeviceAddress) (w off : Nat) : (interpretDacWord a w off).Completes := by
  unfold interpretDacWord
  split
  · exact .ok _
  · exact badField_completes off

theorem interpretDacWriteText_completes (c : CodeTable) (p : List Byte) (off : Nat) :
    (interpretDacWriteText c p off).Completes := by
  unfold interpretDacWriteText
  split
  · split
    · exact .raise _
    · split
      · exact badField_completes off
      · exact interpretDacWord_completes _ _ off
  · exact badField_completes off

/-- The binary row has a meaning for the three payload bytes that stage 1 gives (43_framer_parser.md R205). -/
theorem interpretDacWriteBinary_completes (c : CodeTable) {p : List Byte} (off : Nat) (h : p.length = 3) :
    (interpretDacWriteBinary c p off).Completes := by
  obtain ⟨b0, hi, lo, rfl⟩ := List.length_eq_three.mp h
  unfold interpretDacWriteBinary
  dsimp only
  split
  · exact .raise _
  · exact interpretDacWord_completes _ _ off

theorem interpretTone_completes (p : List Byte) (off : Nat) : (interpretTone p off).Completes := by
  unfold interpretTone
  split
  · exact .ok _
  · exact badField_completes off

theorem interpretRampSetup_completes (c : CodeTable) (p : List Byte) (off : Nat) :
    (interpretRampSetup c p off).Completes := by
  unfold interpretRampSetup
  split
  · split
    · exact .raise _
    · exact .ok _
  · exact badField_completes off

theorem interpretRampParams_completes (c : CodeTable) (p : List Byte) (off : Nat) :
    (interpretRampParams c p off).Completes := by
  unfold interpretRampParams
  split
  · split
    · exact .raise _
    · dsimp only
      split
      · exact .ok _
      · exact badField_completes off
  · exact badField_completes off

/-- A row whose payload has to be empty. -/
theorem emptyPayload_completes (p : List Byte) (d : Decoded) (off : Nat) :
    (if p = [] then .ok d else badField off : Reply Decoded).Completes := by
  split
  · exact .ok _
  · exact badField_completes off

theorem interpretDrg_completes (c : CodeTable) (p : List Byte) (off : Nat) : (interpretDrg c p off).Completes := by
  unfold interpretDrg
  split
  · split
    · exact interpretRampSetup_completes c _ off
    · split
      · exact interpretRampParams_completes c _ off
      · split
        · exact emptyPayload_completes _ _ off
        · exact .raise _
  · exact .raise _

/-- A device and an opcode listed for it (30_encoding.md R83). -/
theorem listedOpcode_iff {cfg : Config} {d o : Byte} :
    listedOpcode cfg (some d) o = true ↔
      d = dacInd ∧ (o = cfg.codes.opDacInit ∨ o = cfg.codes.opDacWrite) ∨
        d = cfg.ddsInd ∧
          (o = cfg.codes.opTone ∨ o = cfg.codes.opDrg ∨ o = cfg.codes.opLoad ∨ o = cfg.codes.opReset) := by
  simp [listedOpcode, CodeTable.dacOpcodes, CodeTable.ddsOpcodes]

theorem interpretDac_completes {cfg : Config} {o : Byte} {p : List Byte} (off : Nat)
    (ho : o = cfg.codes.opDacInit ∨ o = cfg.codes.opDacWrite)
    (hbin : binaryPayload cfg dacInd o = true → p.length = 3) : (interpretDac cfg o p off).Completes := by
  unfold interpretDac
  split
  · exact interpretDacInit_completes _ p off
  · next hinit =>
    have hwrite := ho.resolve_left hinit
    rw [if_pos hwrite]
    split
    · exact interpretDacWriteText_completes _ p off
    · next hform =>
      exact interpretDacWriteBinary_completes _ off (hbin (by simp [binaryPayload, hform, hwrite]))

theorem interpretDds_completes {c : CodeTable} {o : Byte} (p : List Byte) (off : Nat)
    (ho : o = c.opTone ∨ o = c.opDrg ∨ o = c.opLoad ∨ o = c.opReset) : (interpretDds c o p off).Completes := by
  unfold interpretDds
  split
  · exact interpretTone_completes p off
  · split
    · exact interpretDrg_completes c p off
    · split
      · exact emptyPayload_completes p _ off
      · split
        · exact emptyPayload_completes p _ off
        · tauto

/-- Stage 2 has a row for a listed header, with three payload bytes for the binary write (43_framer_parser.md R207). -/
theorem interpret_completes {cfg : Config} {d o : Byte} {p : List Byte} (off : Nat) (hlegal : cfg.legal = true)
    (hlisted : listedOpcode cfg (some d) o = true) (hbin : binaryPayload cfg d o = true → p.length = 3) :
    (interpret cfg d o p off).Completes := by
  refine Reply.Completes.map ?_ _
  unfold interpretDecoded
  rcases listedOpcode_iff.mp hlisted with ⟨rfl, ho⟩ | ⟨rfl, ho⟩
  · rw [if_pos rfl]
    exact interpretDac_completes off ho hbin
  · obtain ⟨hne, -⟩ := Config.legal_headers hlegal
    rw [if_neg hne, if_pos rfl]
    exact interpretDds_completes p off ho

/-! ### Stage 1 ends listed frames only -/

/-- A frame that stage 1 ends has a listed header, and three payload bytes where it is the binary write. -/
theorem step1_frame_listed {cfg : Config} {p : Parser} {b d o : Byte} {payload : List Byte} {off : Nat}
    (hp : p.wf cfg = true) (h : (step1 cfg p b).2 = .frame d o payload off) :
    listedOpcode cfg (some d) o = true ∧ (binaryPayload cfg d o = true → payload.length = 3) := by
  rcases step1_cases cfg p b with hnone | ⟨-, hframe, hstate⟩ | ⟨r, herr⟩
  · simp [hnone] at h
  · rw [hframe] at h
    cases h
    have hwf : p.header cfg = true ∧ (p.pbin = true → p.pbuf.length = 3) := by
      rcases hstate with ⟨hs, htext⟩ | hs
      · exact ⟨((Parser.wf_readPayload hs).mp hp).1, fun hb => by simp [htext] at hb⟩
      · obtain ⟨hhdr, -, hlen, -⟩ := (Parser.wf_expectTerminator hs).mp hp
        exact ⟨hhdr, fun _ => hlen⟩
    obtain ⟨hhdr, hlen⟩ := hwf
    obtain ⟨d, o, hd, ho, hlisted, hbin⟩ := Parser.header_iff.mp hhdr
    simp only [hd, ho, Option.getD_some]
    exact ⟨hlisted, fun hb => hlen (hbin.trans hb)⟩
  · simp [herr] at h

/-- PARSE comes to a command or an error from every parser state that stage 1 can be in. -/
theorem parseFrom_completes {cfg : Config} (hlegal : cfg.legal = true) {p : Parser} (i : Nat) (bytes : List Byte)
    (hp : p.wf cfg = true) : (parseFrom cfg p i bytes).Completes := by
  induction bytes generalizing p i with
  | nil => exact .raise _
  | cons b rest ih =>
    cases hev : (step1 cfg p b).2 with
    | none =>
      rw [parseFrom_cons_none hev]
      exact ih (i + 1) (step1_wf b hp)
    | error r off =>
      rw [parseFrom_cons_error hev]
      exact .raise _
    | frame d o payload off =>
      rw [parseFrom_cons_frame hev]
      split
      · exact .raise _
      · obtain ⟨hlisted, hbin⟩ := step1_frame_listed hp hev
        exact interpret_completes off hlegal hlisted hbin

theorem parseReply_completes {cfg : Config} (hlegal : cfg.legal = true) (bytes : List Byte) :
    (parseReply cfg bytes).Completes :=
  parseFrom_completes hlegal 0 bytes (Parser.wf_reset cfg)

theorem rxReply_completes {cfg : Config} {p : Parser} (b : Byte) (hlegal : cfg.legal = true) (hp : p.wf cfg = true) :
    (rxReply cfg (step1 cfg p b).2).Completes := by
  cases hev : (step1 cfg p b).2 with
  | none => exact .ok _
  | error r off => exact .raise _
  | frame d o payload off =>
    obtain ⟨hlisted, hbin⟩ := step1_frame_listed hp hev
    exact (interpret_completes off hlegal hlisted hbin).map _

/-! ### Every instruction completes -/

/-- The ending has no fault to report. -/
def Ending.Completes : Ending → Prop
  | .returns r => r.Completes
  | .emits r => r.Completes
  | .receives _ => True

/-- In a legal configuration every instruction's reply is no fault. -/
theorem ending_completes {cfg : Config} (hlegal : cfg.legal = true) (i : Instr) : (ending cfg i).Completes := by
  cases i with
  | codecEncode value fs n t bip => exact (encodeReply_completes cfg value fs n t bip).map _
  | codecDecode word fs n t bip => exact (decodeReply_completes cfg word fs n t bip).map _
  | dacInit gain polarity => exact dacInitReply_completes cfg gain polarity
  | dacWrite address voltage ref gain polarity => exact dacWriteReply_completes cfg address voltage ref gain polarity
  | ddsTone amp ampRef phase freq sysclk => exact ddsToneReply_completes cfg amp ampRef phase freq sysclk
  | ddsRamp param start stop dec inc negRate posRate ref =>
    exact ddsRampReply_completes cfg param start stop dec inc negRate posRate ref
  | ddsLoad | ddsReset | ddsRampoff => exact Reply.Completes.ok _
  | frame dev opc payload => exact (frameReply_completes cfg dev opc payload).map _
  | rx => exact trivial
  | parse | frameDacInit | frameDacWriteText | frameDacWriteBinary | frameDdsTone | frameDdsRampSetup
  | frameDdsRampParams | frameDdsRampDisable | frameDdsLoad | frameDdsReset =>
    exact (parseReply_completes hlegal _).map _

/-- Settles O12: a well-formed instruction is its ending, which has no fault to report. -/
theorem everyRequestIsAnswered : Obligations.EveryRequestIsAnswered := by
  intro s i hlegal hp hwf
  rw [exec_eq_ending_run hwf]
  have hcompletes := ending_completes hlegal i
  cases hend : ending s.cfg i with
  | returns r =>
    rw [hend] at hcompletes
    exact finish_answers hcompletes s
  | emits r =>
    rw [hend] at hcompletes
    exact finishEmit_answers hcompletes s
  | receives b => exact finish_answers (rxReply_completes b hlegal hp) _

end Sys2Proof.Machine
end

section
/-!
SUPPORT. Decimal numerals and decimal fields: what `dec` writes, and that `field` and `fields` read it back
(43_framer_parser.md R220, 30_encoding.md R90).
-/

namespace Sys2Proof.Machine

open Sys2Proof

/-! ### The recursion of `dec` -/

theorem decDigits_append (fuel n : Nat) (acc : List Byte) : decDigits fuel n acc = decDigits fuel n [] ++ acc := by
  induction fuel generalizing n acc with
  | zero => rfl
  | succ fuel ih =>
    simp only [decDigits]
    split
    · rfl
    · rw [ih, ih (n / 10) [_], List.append_assoc, List.singleton_append]

/-- Fuel above the number is enough, and more changes nothing. -/
theorem decDigits_fuel {n f g : Nat} (hf : n < f) (hg : n < g) : decDigits f n [] = decDigits g n [] := by
  induction f generalizing n g with
  | zero => exact absurd hf (Nat.not_lt_zero n)
  | succ f ih =>
    obtain ⟨g, rfl⟩ := Nat.exists_eq_succ_of_ne_zero (Nat.ne_of_gt (Nat.zero_lt_of_lt hg))
    simp only [decDigits]
    split
    · rfl
    · rw [decDigits_append, decDigits_append g, ih (g := g) (by omega) (by omega)]

theorem dec_of_lt {d : Nat} (hd : d < 10) : dec d = [digit d] := by
  rw [dec, decDigits, if_pos hd]

/-- One more digit at the end. -/
theorem dec_mul_ten_add {n d : Nat} (hn : 0 < n) (hd : d < 10) : dec (10 * n + d) = dec n ++ [digit d] := by
  have hquot : (10 * n + d) / 10 = n := by omega
  have hrem : (10 * n + d) % 10 = d := by omega
  rw [dec, decDigits, if_neg (by omega), hquot, hrem, decDigits_append,
    decDigits_fuel (g := n + 1) (by omega) (by omega), dec]

/-- What holds of each digit alone, and stays true when a digit is added at the end, holds of every numeral. -/
theorem dec_induction {P : Nat → List Byte → Prop} (one : ∀ d < 10, P d [digit d])
    (more : ∀ n d, 0 < n → d < 10 → P n (dec n) → P (10 * n + d) (dec n ++ [digit d])) (n : Nat) : P n (dec n) := by
  induction n using Nat.strongRecOn with
  | ind n ih =>
    by_cases hn : n < 10
    · rw [dec_of_lt hn]
      exact one n hn
    · have hsplit : n = 10 * (n / 10) + n % 10 := by omega
      have hq : 0 < n / 10 := by omega
      have hr : n % 10 < 10 := by omega
      rw [hsplit, dec_mul_ten_add hq hr]
      exact more _ _ hq hr (ih _ (by omega))

/-! ### What a numeral is made of -/

theorem isDigit_digit : ∀ d < 10, isDigit (digit d) = true := by decide

theorem digit_toNat : ∀ d < 10, (digit d).toNat - 0x30 = d := by decide

/-- Only the digit 0 is the byte `'0'`. -/
theorem digit_ne_zero : ∀ d < 10, 0 < d → digit d ≠ 0x30#8 := by decide

@[simp] theorem all_isDigit_dec (n : Nat) : (dec n).all isDigit = true :=
  dec_induction (P := fun _ s => s.all isDigit = true) (fun d hd => by simp [isDigit_digit d hd])
    (fun _ d _ hd ih => by rw [List.all_append, ih]; simp [isDigit_digit d hd]) n

/-- A numeral spells its number. -/
@[simp] theorem spelled_dec (n : Nat) : spelled (dec n) = n :=
  dec_induction (P := fun n s => spelled s = n) (fun d hd => by simp [spelled, digit_toNat d hd])
    (fun n d _ hd ih => by
      rw [spelled, List.foldl_append, ← spelled, ih]
      simp [digit_toNat d hd]) n

/-- The numeral of a positive number does not begin with `'0'`. -/
theorem dec_head_ne_zero {n : Nat} : 0 < n → ∃ b rest, dec n = b :: rest ∧ b ≠ 0x30#8 :=
  dec_induction (P := fun n s => 0 < n → ∃ b rest, s = b :: rest ∧ b ≠ 0x30#8)
    (fun d hd hpos => ⟨digit d, [], rfl, digit_ne_zero d hd hpos⟩)
    (fun n d hn _ ih _ => by
      obtain ⟨b, rest, hs, hb⟩ := ih hn
      exact ⟨b, rest ++ [digit d], by rw [hs, List.cons_append], hb⟩) n

@[simp] theorem noLeadingZero_dec (n : Nat) : noLeadingZero (dec n) = true := by
  rcases Nat.eq_zero_or_pos n with rfl | hn
  · decide
  · obtain ⟨b, rest, hs, hb⟩ := dec_head_ne_zero hn
    simp [hs, noLeadingZero, hb]

/-- A number below `10 ^ k` has at most `k` digits. -/
theorem dec_length_le {n k : Nat} : 0 < k → n < 10 ^ k → (dec n).length ≤ k :=
  dec_induction (P := fun n s => ∀ k, 0 < k → n < 10 ^ k → s.length ≤ k) (fun _ _ k hk _ => hk)
    (fun n d hn hd ih k hk hlt => by
      obtain ⟨j, rfl⟩ := Nat.exists_eq_succ_of_ne_zero hk.ne'
      have hj : n < 10 ^ j := by rw [Nat.pow_succ] at hlt; omega
      have hjpos : 0 < j := Nat.pos_of_ne_zero fun h => by simp [h] at hj; omega
      simpa using ih j hjpos hj) n k

theorem separator_not_mem_dec (n : Nat) : separator ∉ dec n := fun h =>
  absurd (List.all_eq_true.mp (all_isDigit_dec n) _ h) (by decide)

/-- Digits are payload bytes. -/
theorem payloadByte_of_isDigit {b : Byte} (h : isDigit b = true) : payloadByte b = true := by
  simp only [isDigit, Bool.and_eq_true, decide_eq_true_eq] at h
  simp only [payloadByte, Bool.and_eq_true, decide_eq_true_eq, bne_iff_ne]
  obtain ⟨hlo, hhi⟩ := h
  exact ⟨⟨by bv_omega, by bv_omega⟩, by rintro rfl; exact absurd hlo (by decide)⟩

@[simp] theorem all_payloadByte_dec (n : Nat) : (dec n).all payloadByte = true :=
  List.all_eq_true.mpr fun b hb => payloadByte_of_isDigit (List.all_eq_true.mp (all_isDigit_dec n) b hb)

/-! ### Fields are read back -/

/-- `field` reads the numeral of a number below its bound (43_framer_parser.md R220). -/
theorem field_dec {n bound : Nat} (h : n < bound) : field (dec n) bound = some n := by
  simp [field, dec_ne_nil, h]

theorem splitFields_of_not_mem {s : List Byte} (h : separator ∉ s) : splitFields s = [s] := by
  induction s with
  | nil => rfl
  | cons b s ih =>
    obtain ⟨hb, hs⟩ := not_or.mp (List.mem_cons.not.mp h)
    rw [splitFields, if_neg (Ne.symm hb), ih hs]

theorem splitFields_append_separator {s : List Byte} (h : separator ∉ s) (rest : List Byte) :
    splitFields (s ++ separator :: rest) = s :: splitFields rest := by
  induction s with
  | nil => simp [splitFields]
  | cons b s ih =>
    obtain ⟨hb, hs⟩ := not_or.mp (List.mem_cons.not.mp h)
    rw [List.cons_append, splitFields, if_neg (Ne.symm hb), ih hs]

/-- The parts of joined fields are the numerals. -/
theorem splitFields_joinFields {ns : List Nat} (h : ns ≠ []) : splitFields (joinFields ns) = ns.map dec := by
  induction ns with
  | nil => exact absurd rfl h
  | cons n ns ih =>
    cases ns with
    | nil => exact splitFields_of_not_mem (separator_not_mem_dec n)
    | cons m ns =>
      rw [joinFields_cons_cons, splitFields_append_separator (separator_not_mem_dec n), ih (by simp), List.map_cons,
        List.map_cons, List.map_cons]

theorem fieldList_map_dec {ns bounds : List Nat} (h : List.Forall₂ (· < ·) ns bounds) :
    fieldList (ns.map dec) bounds = some ns := by
  induction h with
  | nil => rfl
  | cons hlt _ ih => rw [List.map_cons, fieldList, field_dec hlt, ih]

/-- `fields` reads joined fields back, each below its bound (43_framer_parser.md R220). -/
theorem fields_joinFields {ns bounds : List Nat} (hne : ns ≠ []) (h : List.Forall₂ (· < ·) ns bounds) :
    fields (joinFields ns) bounds = some ns := by
  rw [fields, splitFields_joinFields hne, fieldList_map_dec h]

/-! ### The fields of the DDS frames -/

theorem joinFields_three (a p f : Nat) :
    joinFields [a, p, f] = dec a ++ [0x2C] ++ dec p ++ [0x2C] ++ dec f := by
  simp [joinFields, separator]

theorem joinFields_six (a b c d e f : Nat) :
    joinFields [a, b, c, d, e, f] = dec a ++ [0x2C] ++ dec b ++ [0x2C] ++ dec c ++ [0x2C] ++ dec d ++ [0x2C] ++
      dec e ++ [0x2C] ++ dec f := by
  simp [joinFields, separator]

/-- Joined fields are payload bytes: digits and separators. -/
theorem all_payloadByte_joinFields (ns : List Nat) : (joinFields ns).all payloadByte = true := by
  induction ns with
  | nil => rfl
  | cons n ns ih =>
    cases ns with
    | nil => exact all_payloadByte_dec n
    | cons m ns =>
      rw [joinFields_cons_cons, List.all_append, List.all_cons, ih, all_payloadByte_dec]
      decide

/-- The six fields of a ramp payload are 55 bytes at most, as 30_encoding.md R97 counts them. -/
theorem joinFields_six_length {a b c d e f : Nat} (ha : a < 2 ^ 32) (hb : b < 2 ^ 32) (hc : c < 2 ^ 32)
    (hd : d < 2 ^ 32) (he : e < 2 ^ 16) (hf : f < 2 ^ 16) : (joinFields [a, b, c, d, e, f]).length ≤ 55 := by
  have word : ∀ {n : Nat}, n < 2 ^ 32 → (dec n).length ≤ 10 := fun h => dec_length_le (by decide) (h.trans (by decide))
  have rate : ∀ {n : Nat}, n < 2 ^ 16 → (dec n).length ≤ 5 := fun h => dec_length_le (by decide) (h.trans (by decide))
  have := word ha
  have := word hb
  have := word hc
  have := word hd
  have := rate he
  have := rate hf
  simp only [joinFields_six, List.length_append, List.length_singleton]
  omega

theorem joinFields_three_length {a p f : Nat} (ha : a < 2 ^ 14) (hp : p < 2 ^ 16) (hf : f < 2 ^ 32) :
    (joinFields [a, p, f]).length ≤ 22 := by
  have := dec_length_le (k := 5) (by decide) (ha.trans (by decide))
  have := dec_length_le (k := 5) (by decide) (hp.trans (by decide))
  have := dec_length_le (k := 10) (by decide) (hf.trans (by decide))
  simp only [joinFields_three, List.length_append, List.length_singleton]
  omega

end Sys2Proof.Machine
end

section
/-!
SUPPORT. PARSE reads every legal frame: the codes of a legal configuration are read back, stage 1 takes a legal frame
whole (43_framer_parser.md R202 to R206), and stage 2 finds its decoded form (R207).
-/

namespace Sys2Proof.Machine

open Sys2Proof

/-! ### The codes of a legal configuration -/

theorem Config.legal_codes {cfg : Config} (h : cfg.legal = true) :
    cfg.codes.injective = true ∧ cfg.codes.payloadCodes.all payloadByte = true := by
  simp only [Config.legal, Bool.and_eq_true] at h
  obtain ⟨⟨⟨⟨hinj, hcodes⟩, -⟩, -⟩, -⟩ := h
  exact ⟨hinj, hcodes⟩

/-- The tables of 30_encoding.md R80, R81, R82, R84 are injective (00_scope.md R15). -/
theorem CodeTable.injective_payload {c : CodeTable} (h : c.injective = true) :
    c.bipolar ≠ c.unipolar ∧ (c.x4 ≠ c.x2 ∧ c.x432 ≠ c.x2 ∧ c.x432 ≠ c.x4) ∧
      (c.dacB ≠ c.dacA ∧ c.dacBoth ≠ c.dacA ∧ c.dacBoth ≠ c.dacB) ∧
      (c.phase ≠ c.frequency ∧ c.amplitude ≠ c.frequency ∧ c.amplitude ≠ c.phase) := by
  simp only [CodeTable.injective, decide_eq_true_eq] at h
  obtain ⟨hpol, hgain, haddr, -, -, -, hparam⟩ := h
  grind

theorem polOfCode_polCode {c : CodeTable} (h : c.injective = true) (p : PolarityMode) :
    polOfCode c (polCode c p) = some p := by
  obtain ⟨hpol, -⟩ := CodeTable.injective_payload h
  cases p <;> simp [polOfCode, polCode, hpol]

theorem gainOfCode_gainCode {c : CodeTable} (h : c.injective = true) (g : GainMode) :
    gainOfCode c (gainCode c g) = some g := by
  obtain ⟨-, ⟨h42, h4322, h4324⟩, -⟩ := CodeTable.injective_payload h
  cases g <;> simp [gainOfCode, gainCode, h42, h4322, h4324]

theorem addrOfCode_addrCode {c : CodeTable} (h : c.injective = true) (a : DeviceAddress) :
    addrOfCode c (addrCode c a) = some a := by
  obtain ⟨-, -, ⟨hba, hbothA, hbothB⟩, -⟩ := CodeTable.injective_payload h
  cases a <;> simp [addrOfCode, addrCode, hba, hbothA, hbothB]

theorem paramOfCode_paramCode {c : CodeTable} (h : c.injective = true) (p : RampParameter) :
    paramOfCode c (paramCode c p) = some p := by
  obtain ⟨-, -, -, hpf, haf, hap⟩ := CodeTable.injective_payload h
  cases p <;> simp [paramOfCode, paramCode, hpf, haf, hap]

/-- Every code that a builder puts into a payload is a payload byte (log 15). -/
theorem Config.payloadByte_of_mem {cfg : Config} (h : cfg.legal = true) {b : Byte}
    (hb : b ∈ cfg.codes.payloadCodes) : payloadByte b = true :=
  List.all_eq_true.mp (Config.legal_codes h).2 b hb

theorem payloadByte_polCode {cfg : Config} (h : cfg.legal = true) (p : PolarityMode) :
    payloadByte (polCode cfg.codes p) = true :=
  Config.payloadByte_of_mem h (by cases p <;> simp [polCode, CodeTable.payloadCodes])

theorem payloadByte_gainCode {cfg : Config} (h : cfg.legal = true) (g : GainMode) :
    payloadByte (gainCode cfg.codes g) = true :=
  Config.payloadByte_of_mem h (by cases g <;> simp [gainCode, CodeTable.payloadCodes])

theorem payloadByte_addrCode {cfg : Config} (h : cfg.legal = true) (a : DeviceAddress) :
    payloadByte (addrCode cfg.codes a) = true :=
  Config.payloadByte_of_mem h (by cases a <;> simp [addrCode, CodeTable.payloadCodes])

theorem payloadByte_paramCode {cfg : Config} (h : cfg.legal = true) (p : RampParameter) :
    payloadByte (paramCode cfg.codes p) = true :=
  Config.payloadByte_of_mem h (by cases p <;> simp [paramCode, CodeTable.payloadCodes])

/-- The sub-opcodes are payload bytes too. -/
theorem payloadByte_subopcodes {cfg : Config} (h : cfg.legal = true) :
    payloadByte cfg.codes.subSetup = true ∧ payloadByte cfg.codes.subParams = true ∧
      payloadByte cfg.codes.subDisable = true :=
  ⟨Config.payloadByte_of_mem h (by simp [CodeTable.payloadCodes]),
    Config.payloadByte_of_mem h (by simp [CodeTable.payloadCodes]),
    Config.payloadByte_of_mem h (by simp [CodeTable.payloadCodes])⟩

/-! ### Stage 1 takes a frame whole -/

/-- The parser in front of the payload of a frame (43_framer_parser.md R203). -/
def readingPayload (cfg : Config) (dev opc : Byte) : Parser :=
  ⟨.readPayload, some dev, some opc, [], binaryPayload cfg dev opc, 2⟩

/-- The payloads that stage 1 takes whole after a header: three bytes of any value in the binary DAC write, else at most
MAX_PAYLOAD payload bytes (43_framer_parser.md R204, R205). -/
def TakenPayload (cfg : Config) (dev opc : Byte) (payload : List Byte) : Prop :=
  binaryPayload cfg dev opc = true ∧ payload.length = 3 ∨
    binaryPayload cfg dev opc = false ∧ payload.length ≤ maxPayload ∧ payload.all payloadByte = true

/-- A listed header is taken. -/
theorem taking_header {cfg : Config} {dev opc : Byte} (h : listedOpcode cfg (some dev) opc = true) :
    Parser.reset.taking cfg [dev, opc] = some (readingPayload cfg dev opc) := by
  have hdev : dev = dacInd ∨ dev = cfg.ddsInd := (listedOpcode_iff.mp h).imp And.left And.left
  have hstep1 : step1 cfg .reset dev = (⟨.expectOpcode, some dev, none, [], false, 1⟩, .none) := if_pos hdev
  have hstep2 : step1 cfg ⟨.expectOpcode, some dev, none, [], false, 1⟩ opc = (readingPayload cfg dev opc, .none) :=
    if_pos h
  simp [Parser.taking, hstep1, hstep2]

theorem payloadByte_iff {b : Byte} : payloadByte b = true ↔ b ≠ terminator ∧ ¬ (b < 0x20#8 ∨ 0x7E#8 < b) := by
  simp [payloadByte, and_comm]

/-- A payload byte is appended to a text payload that is not full (43_framer_parser.md R204). -/
theorem step1_text {cfg : Config} {p : Parser} {b : Byte} (hs : p.pstate = .readPayload) (hbin : p.pbin = false)
    (hlen : p.pbuf.length < maxPayload) (hb : payloadByte b = true) :
    step1 cfg p b = ({ p with pbuf := p.pbuf ++ [b], poff := p.poff + 1 }, .none) := by
  obtain ⟨hterm, hprint⟩ := payloadByte_iff.mp hb
  simp only [step1, hs, hbin, Bool.false_eq_true, if_false, stepText, if_neg hterm, if_neg hlen.ne, if_neg hprint]

/-- Payload bytes within MAX_PAYLOAD are taken. -/
theorem taking_text {cfg : Config} {p : Parser} {payload : List Byte} (hs : p.pstate = .readPayload)
    (hbin : p.pbin = false) (hlen : p.pbuf.length + payload.length ≤ maxPayload)
    (hall : payload.all payloadByte = true) :
    p.taking cfg payload = some { p with pbuf := p.pbuf ++ payload, poff := p.poff + payload.length } := by
  induction payload generalizing p with
  | nil => simp
  | cons b rest ih =>
    obtain ⟨hb, hrest⟩ : payloadByte b = true ∧ rest.all payloadByte = true := by simpa using hall
    rw [List.length_cons] at hlen
    have hstep := step1_text (cfg := cfg) hs hbin (by omega) hb
    rw [Parser.taking_cons_eq_some, hstep]
    have htake := ih (p := { p with pbuf := p.pbuf ++ [b], poff := p.poff + 1 }) hs hbin
      (by rw [List.length_append, List.length_singleton]; omega) hrest
    exact ⟨rfl, htake.trans (by simp [Nat.add_assoc, Nat.add_comm 1])⟩

/-- The parser is at the end of a frame: the next terminator completes it (43_framer_parser.md R204, R206). -/
def AtFrameEnd (p : Parser) : Prop := p.pstate = .readPayload ∧ p.pbin = false ∨ p.pstate = .expectTerminator

theorem step1_terminator {cfg : Config} {p : Parser} (h : AtFrameEnd p) : step1 cfg p terminator = stageFrame p := by
  rcases h with ⟨hs, hbin⟩ | hs
  · simp [step1, hs, hbin, stepText]
  · simp [step1, hs, stepTerminator]

/-- Stage 1 takes such a payload up to the end of its frame, where the parser holds the frame's fields. -/
theorem taking_payload {cfg : Config} {dev opc : Byte} {payload : List Byte} (h : TakenPayload cfg dev opc payload) :
    ∃ p, (readingPayload cfg dev opc).taking cfg payload = some p ∧ AtFrameEnd p ∧
      stageFrame p = (.reset, .frame dev opc payload (2 + payload.length)) := by
  rcases h with ⟨hbin, hlen⟩ | ⟨hbin, hlen, hall⟩
  · obtain ⟨b0, b1, b2, rfl⟩ := List.length_eq_three.mp hlen
    refine ⟨⟨.expectTerminator, some dev, some opc, [b0, b1, b2], true, 5⟩, ?_, .inr rfl, rfl⟩
    simp [Parser.taking, step1, stepBinary, readingPayload, hbin]
  · exact ⟨_, taking_text (p := readingPayload cfg dev opc) rfl hbin (by simpa [readingPayload] using hlen) hall,
      .inl ⟨rfl, hbin⟩, rfl⟩

/-- PARSE of a frame with a listed header is stage 2 on its fields, the terminator at the frame's last offset
(43_framer_parser.md R208). -/
theorem parseReply_frameBytes {cfg : Config} {dev opc : Byte} {payload : List Byte}
    (hlisted : listedOpcode cfg (some dev) opc = true) (h : TakenPayload cfg dev opc payload) :
    parseReply cfg (frameBytes dev opc payload) = interpret cfg dev opc payload (2 + payload.length) := by
  obtain ⟨p, htaking, hend, hframe⟩ := taking_payload h
  have hevent : (step1 cfg p terminator).2 = .frame dev opc payload (2 + payload.length) := by
    rw [step1_terminator hend, hframe]
  calc parseReply cfg (frameBytes dev opc payload)
      = parseFrom cfg .reset 0 ([dev, opc] ++ (payload ++ [terminator])) := rfl
    _ = parseFrom cfg (readingPayload cfg dev opc) 2 (payload ++ [terminator]) :=
        parseFrom_append_of_taking _ (taking_header hlisted)
    _ = parseFrom cfg p (2 + payload.length) [terminator] := parseFrom_append_of_taking _ htaking
    _ = interpret cfg dev opc payload (2 + payload.length) := parseFrom_cons_frame hevent

/-! ### Stage 2 finds the row of a header -/

theorem interpretDecoded_dac (cfg : Config) (opc : Byte) (p : List Byte) (off : Nat) :
    interpretDecoded cfg dacInd opc p off = interpretDac cfg opc p off := if_pos rfl

theorem interpretDecoded_dds {cfg : Config} (h : cfg.legal = true) (opc : Byte) (p : List Byte) (off : Nat) :
    interpretDecoded cfg cfg.ddsInd opc p off = interpretDds cfg.codes opc p off := by
  obtain ⟨hne, -⟩ := Config.legal_headers h
  rw [interpretDecoded, if_neg hne, if_pos rfl]

/-- The opcodes of a device, and the sub-opcodes, are pairwise different (00_scope.md R15). -/
theorem Config.legal_opcodes {cfg : Config} (h : cfg.legal = true) :
    cfg.codes.opDacWrite ≠ cfg.codes.opDacInit ∧
      (cfg.codes.opDrg ≠ cfg.codes.opTone ∧ cfg.codes.opLoad ≠ cfg.codes.opTone ∧
        cfg.codes.opLoad ≠ cfg.codes.opDrg ∧ cfg.codes.opReset ≠ cfg.codes.opTone ∧
        cfg.codes.opReset ≠ cfg.codes.opDrg ∧ cfg.codes.opReset ≠ cfg.codes.opLoad) ∧
      (cfg.codes.subParams ≠ cfg.codes.subSetup ∧ cfg.codes.subDisable ≠ cfg.codes.subSetup ∧
        cfg.codes.subDisable ≠ cfg.codes.subParams) := by
  obtain ⟨-, -, hdac, hdds, hsub⟩ := Config.legal_headers h
  simp only [CodeTable.dacOpcodes, CodeTable.ddsOpcodes] at hdac hdds
  grind

theorem interpretDac_init (cfg : Config) (p : List Byte) (off : Nat) :
    interpretDac cfg cfg.codes.opDacInit p off = interpretDacInit cfg.codes p off := if_pos rfl

theorem interpretDac_writeText {cfg : Config} (h : cfg.legal = true) (hform : cfg.wireForm = .text) (p : List Byte)
    (off : Nat) : interpretDac cfg cfg.codes.opDacWrite p off = interpretDacWriteText cfg.codes p off := by
  simp [interpretDac, (Config.legal_opcodes h).1, hform]

theorem interpretDac_writeBinary {cfg : Config} (h : cfg.legal = true) (hform : cfg.wireForm = .binary)
    (p : List Byte) (off : Nat) :
    interpretDac cfg cfg.codes.opDacWrite p off = interpretDacWriteBinary cfg.codes p off := by
  simp [interpretDac, (Config.legal_opcodes h).1, hform]

/-- The rows of the four DDS opcodes. -/
theorem interpretDds_rows {cfg : Config} (h : cfg.legal = true) (p : List Byte) (off : Nat) :
    interpretDds cfg.codes cfg.codes.opTone p off = interpretTone p off ∧
      interpretDds cfg.codes cfg.codes.opDrg p off = interpretDrg cfg.codes p off ∧
      interpretDds cfg.codes cfg.codes.opLoad p off = (if p = [] then .ok .load else badField off) ∧
      interpretDds cfg.codes cfg.codes.opReset p off = (if p = [] then .ok .reset else badField off) := by
  obtain ⟨-, ⟨hot, hlt, hlo, hrt, hro, hrl⟩, -⟩ := Config.legal_opcodes h
  simp [interpretDds, hot, hlt, hlo, hrt, hro, hrl]

/-- The rows of the three sub-opcodes. -/
theorem interpretDrg_rows {cfg : Config} (h : cfg.legal = true) (p : List Byte) (off : Nat) :
    interpretDrg cfg.codes (cfg.codes.subSetup :: p) off = interpretRampSetup cfg.codes p off ∧
      interpretDrg cfg.codes (cfg.codes.subParams :: p) off = interpretRampParams cfg.codes p off ∧
      interpretDrg cfg.codes (cfg.codes.subDisable :: p) off = (if p = [] then .ok .rampDisable else badField off) := by
  obtain ⟨-, -, hps, hds, hdp⟩ := Config.legal_opcodes h
  simp [interpretDrg, hps, hds, hdp]

/-! ### Legal frames -/

/-- The bounds of R91 in the terms of stage 2. -/
theorem rampBounds_eq (p : RampParameter) :
    rampBounds p = [rampWordBound p, rampWordBound p, rampWordBound p, rampWordBound p, 2 ^ 16, 2 ^ 16] := by
  cases p <;> rfl

theorem rampWordBound_le (p : RampParameter) : rampWordBound p ≤ 2 ^ 32 := by
  cases p <;> decide

/-- The six numbers of a ramp payload within their bounds, one by one. -/
theorem forall₂_rampBounds {p : RampParameter} {ws we wd wi rn rp : Nat} :
    List.Forall₂ (· < ·) [ws, we, wd, wi, rn, rp] (rampBounds p) ↔
      ws < rampWordBound p ∧ we < rampWordBound p ∧ wd < rampWordBound p ∧ wi < rampWordBound p ∧
        rn < 2 ^ 16 ∧ rp < 2 ^ 16 := by
  simp [rampBounds_eq]

/-- The payload of 30_encoding.md R86: two codes and six joined fields. -/
theorem rampParamsPayload_eq (c : CodeTable) (p : RampParameter) (ws we wd wi rn rp : Nat) :
    [c.subParams, paramCode c p] ++ dec ws ++ [0x2C] ++ dec we ++ [0x2C] ++ dec wd ++ [0x2C] ++ dec wi ++ [0x2C] ++
      dec rn ++ [0x2C] ++ dec rp = c.subParams :: paramCode c p :: joinFields [ws, we, wd, wi, rn, rp] := by
  simp [joinFields_six]

/-- The header of a legal frame is a row of 30_encoding.md R83. -/
theorem LegalFrame.listed {cfg : Config} {dev opc : Byte} {payload : List Byte} {d : Decoded}
    (h : LegalFrame cfg dev opc payload d) : listedOpcode cfg (some dev) opc = true := by
  refine listedOpcode_iff.mpr ?_
  cases d with
  | dacInit p g =>
    obtain ⟨hdev, hopc, -⟩ := h
    exact .inl ⟨hdev, .inl hopc⟩
  | dacWrite a w =>
    obtain ⟨hdev, hopc, -⟩ := h
    exact .inl ⟨hdev, .inr hopc⟩
  | ddsTone a p f =>
    obtain ⟨hdev, hopc, -⟩ := h
    exact .inr ⟨hdev, .inl hopc⟩
  | rampSetup | rampParams | rampDisable =>
    obtain ⟨hdev, hopc, -⟩ := h
    exact .inr ⟨hdev, .inr (.inl hopc)⟩
  | load =>
    obtain ⟨hdev, hopc, -⟩ := h
    exact .inr ⟨hdev, .inr (.inr (.inl hopc))⟩
  | reset =>
    obtain ⟨hdev, hopc, -⟩ := h
    exact .inr ⟨hdev, .inr (.inr (.inr hopc))⟩

/-- Outside the binary DAC write, printable payloads within MAX_PAYLOAD are taken. -/
theorem TakenPayload.text {cfg : Config} {dev opc : Byte} {payload : List Byte}
    (hbin : binaryPayload cfg dev opc = false) (hlen : payload.length ≤ 64) (hall : payload.all payloadByte = true) :
    TakenPayload cfg dev opc payload := .inr ⟨hbin, hlen, hall⟩

theorem binaryPayload_dds {cfg : Config} (h : cfg.legal = true) (opc : Byte) :
    binaryPayload cfg cfg.ddsInd opc = false := by
  obtain ⟨hne, -⟩ := Config.legal_headers h
  simp [binaryPayload, hne]

theorem binaryPayload_dacInit {cfg : Config} (h : cfg.legal = true) (dev : Byte) :
    binaryPayload cfg dev cfg.codes.opDacInit = false := by
  simp [binaryPayload, (Config.legal_opcodes h).1.symm]

/-- The two bytes of a DAC word (30_encoding.md R77) are read back. -/
theorem wordOfBytes {w : Nat} (h : w < 2 ^ 16) :
    (BitVec.ofNat 8 (w / 256)).toNat * 256 + (BitVec.ofNat 8 w).toNat = w := by
  simp only [BitVec.toNat_ofNat]
  omega

/-- Stage 1 takes the payload of a legal frame whole. -/
theorem LegalFrame.taken {cfg : Config} (hlegal : cfg.legal = true) {dev opc : Byte} {payload : List Byte} {d : Decoded}
    (h : LegalFrame cfg dev opc payload d) : TakenPayload cfg dev opc payload := by
  obtain ⟨hsetup, hparams, hdisable⟩ := payloadByte_subopcodes hlegal
  cases d with
  | dacInit p g =>
    obtain ⟨rfl, rfl, rfl⟩ := h
    exact .text (binaryPayload_dacInit hlegal _) (by simp)
      (by simp [payloadByte_polCode hlegal, payloadByte_gainCode hlegal])
  | dacWrite a w =>
    obtain ⟨rfl, rfl, hw, -, htext, hbinary⟩ := h
    cases hform : cfg.wireForm with
    | text =>
      obtain rfl := htext hform
      have hlen : (dec w).length ≤ 5 := dec_length_le (by decide) (hw.trans (by decide))
      exact .text (by simp [binaryPayload, hform]) (by rw [List.length_cons]; omega)
        (by simp [payloadByte_addrCode hlegal])
    | binary =>
      obtain rfl := hbinary hform
      exact .inl ⟨by simp [binaryPayload, hform], rfl⟩
  | ddsTone a p f =>
    obtain ⟨rfl, rfl, ha, hp, hf, hpayload⟩ := h
    obtain rfl := hpayload.trans (joinFields_three a p f).symm
    exact .text (binaryPayload_dds hlegal _) ((joinFields_three_length ha hp hf).trans (by decide))
      (all_payloadByte_joinFields _)
  | rampSetup p =>
    obtain ⟨rfl, rfl, rfl⟩ := h
    exact .text (binaryPayload_dds hlegal _) (by simp) (by simp [hsetup, payloadByte_paramCode hlegal])
  | rampParams p ws we wd wi rn rp =>
    obtain ⟨rfl, rfl, hbounds, hpayload⟩ := h
    obtain ⟨hws, hwe, hwd, hwi, hrn, hrp⟩ := forall₂_rampBounds.mp hbounds
    have hk := rampWordBound_le p
    obtain rfl := hpayload.trans (rampParamsPayload_eq cfg.codes p ws we wd wi rn rp)
    have hlen := joinFields_six_length (hws.trans_le hk) (hwe.trans_le hk) (hwd.trans_le hk) (hwi.trans_le hk) hrn hrp
    exact .text (binaryPayload_dds hlegal _) (by simp only [List.length_cons]; omega)
      (by simp only [List.all_cons, hparams, payloadByte_paramCode hlegal, all_payloadByte_joinFields, Bool.and_self])
  | rampDisable =>
    obtain ⟨rfl, rfl, rfl⟩ := h
    exact .text (binaryPayload_dds hlegal _) (by simp) (by simp [hdisable])
  | load | reset =>
    obtain ⟨rfl, rfl, rfl⟩ := h
    exact .text (binaryPayload_dds hlegal _) (by simp) rfl

theorem interpretDacWord_of_mod {a : DeviceAddress} {w off : Nat} (h : w % 4 = 0) :
    interpretDacWord a w off = .ok (.dacWrite a w) := if_pos h

theorem interpretDacWriteText_dec {c : CodeTable} (hinj : c.injective = true) (a : DeviceAddress) {w off : Nat}
    (hw : w < 2 ^ 16) (h4 : w % 4 = 0) :
    interpretDacWriteText c (addrCode c a :: dec w) off = .ok (.dacWrite a w) := by
  obtain ⟨d, ds, hdec⟩ := List.exists_cons_of_ne_nil (dec_ne_nil w)
  have hfield := field_dec hw
  rw [hdec] at hfield ⊢
  simp only [interpretDacWriteText, addrOfCode_addrCode hinj, hfield, interpretDacWord_of_mod h4]

theorem interpretDacWriteBinary_bytes {c : CodeTable} (hinj : c.injective = true) (a : DeviceAddress) {w off : Nat}
    (hw : w < 2 ^ 16) (h4 : w % 4 = 0) :
    interpretDacWriteBinary c [addrCode c a, BitVec.ofNat 8 (w / 256), BitVec.ofNat 8 w] off =
      .ok (.dacWrite a w) := by
  simp only [interpretDacWriteBinary, addrOfCode_addrCode hinj, wordOfBytes hw, interpretDacWord_of_mod h4]

theorem interpretRampParams_joinFields {c : CodeTable} (hinj : c.injective = true) {p : RampParameter}
    {ws we wd wi rn rp off : Nat} (h : List.Forall₂ (· < ·) [ws, we, wd, wi, rn, rp] (rampBounds p)) :
    interpretRampParams c (paramCode c p :: joinFields [ws, we, wd, wi, rn, rp]) off =
      .ok (.rampParams p ws we wd wi rn rp) := by
  have hfields := fields_joinFields (by simp) h
  rw [rampBounds_eq] at hfields
  simp only [interpretRampParams, paramOfCode_paramCode hinj, hfields]

/-- Stage 2 reads the decoded form of a legal frame (43_framer_parser.md R207). -/
theorem LegalFrame.interpretDecoded_eq {cfg : Config} (hlegal : cfg.legal = true) {dev opc : Byte}
    {payload : List Byte} {d : Decoded} (h : LegalFrame cfg dev opc payload d) (off : Nat) :
    interpretDecoded cfg dev opc payload off = .ok d := by
  obtain ⟨hinj, -⟩ := Config.legal_codes hlegal
  cases d with
  | dacInit p g =>
    obtain ⟨hdev, rfl, rfl⟩ := h
    obtain rfl : dev = dacInd := hdev
    rw [interpretDecoded_dac, interpretDac_init]
    simp only [interpretDacInit, polOfCode_polCode hinj, gainOfCode_gainCode hinj]
  | dacWrite a w =>
    obtain ⟨hdev, rfl, hw, h4, htext, hbinary⟩ := h
    obtain rfl : dev = dacInd := hdev
    rw [interpretDecoded_dac]
    cases hform : cfg.wireForm with
    | text => rw [interpretDac_writeText hlegal hform, htext hform, interpretDacWriteText_dec hinj a hw h4]
    | binary => rw [interpretDac_writeBinary hlegal hform, hbinary hform, interpretDacWriteBinary_bytes hinj a hw h4]
  | ddsTone a p f =>
    obtain ⟨rfl, rfl, ha, hp, hf, hpayload⟩ := h
    obtain ⟨htone, -⟩ := interpretDds_rows hlegal payload off
    have hfields : fields payload [2 ^ 14, 2 ^ 16, 2 ^ 32] = some [a, p, f] := by
      rw [hpayload, ← joinFields_three]
      exact fields_joinFields (by simp) (.cons ha (.cons hp (.cons hf .nil)))
    simp only [interpretDecoded_dds hlegal, htone, interpretTone, hfields]
  | rampSetup p =>
    obtain ⟨rfl, rfl, rfl⟩ := h
    obtain ⟨-, hdrg, -⟩ := interpretDds_rows hlegal [cfg.codes.subSetup, paramCode cfg.codes p] off
    obtain ⟨hsetup, -⟩ := interpretDrg_rows hlegal [paramCode cfg.codes p] off
    rw [interpretDecoded_dds hlegal, hdrg, hsetup]
    simp only [interpretRampSetup, paramOfCode_paramCode hinj]
  | rampParams p ws we wd wi rn rp =>
    obtain ⟨rfl, rfl, hbounds, hpayload⟩ := h
    obtain rfl := hpayload.trans (rampParamsPayload_eq cfg.codes p ws we wd wi rn rp)
    obtain ⟨-, hdrg, -⟩ := interpretDds_rows hlegal (cfg.codes.subParams :: _) off
    obtain ⟨-, hparams, -⟩ := interpretDrg_rows hlegal (paramCode cfg.codes p :: _) off
    rw [interpretDecoded_dds hlegal, hdrg, hparams, interpretRampParams_joinFields hinj hbounds]
  | rampDisable =>
    obtain ⟨rfl, rfl, rfl⟩ := h
    obtain ⟨-, hdrg, -⟩ := interpretDds_rows hlegal [cfg.codes.subDisable] off
    obtain ⟨-, -, hdisable⟩ := interpretDrg_rows hlegal [] off
    rw [interpretDecoded_dds hlegal, hdrg, hdisable, if_pos rfl]
  | load =>
    obtain ⟨rfl, rfl, rfl⟩ := h
    obtain ⟨-, -, hload, -⟩ := interpretDds_rows hlegal [] off
    rw [interpretDecoded_dds hlegal, hload, if_pos rfl]
  | reset =>
    obtain ⟨rfl, rfl, rfl⟩ := h
    obtain ⟨-, -, -, hreset⟩ := interpretDds_rows hlegal [] off
    rw [interpretDecoded_dds hlegal, hreset, if_pos rfl]

/-- PARSE of a legal frame is the command with its fields and its decoded form (43_framer_parser.md R221 (b)). -/
theorem LegalFrame.parseReply_eq {cfg : Config} (hlegal : cfg.legal = true) {dev opc : Byte} {payload : List Byte}
    {d : Decoded} (h : LegalFrame cfg dev opc payload d) :
    parseReply cfg (frameBytes dev opc payload) = .ok ⟨dev, opc, payload, terminator, d⟩ := by
  rw [parseReply_frameBytes h.listed (h.taken hlegal), interpret, h.interpretDecoded_eq hlegal]
  rfl

end Sys2Proof.Machine
end

section
/-!
SUPPORT. What builders emit: each frame is a legal frame (30_encoding.md R75 to R91), so that each write is a unit of
20_memory.md R53 and R54. Then the statement that every step keeps whole frames.
-/

namespace Sys2Proof.Machine

open Sys2Proof

/-! ### The frames of the builders are legal -/

/-- The frame `f` spells the decoded form `d`: its fields satisfy 30_encoding.md R75 to R91. -/
def FrameOf (cfg : Config) (f : List Byte) (d : Decoded) : Prop :=
  ∃ dev opc payload, f = frameBytes dev opc payload ∧ LegalFrame cfg dev opc payload d

/-- PARSE accepts such a frame. -/
theorem FrameOf.parsed?_eq {cfg : Config} (hlegal : cfg.legal = true) {f : List Byte} {d : Decoded}
    (h : FrameOf cfg f d) : parsed? cfg f = some d := by
  obtain ⟨dev, opc, payload, rfl, hframe⟩ := h
  rw [parsed?, hframe.parseReply_eq hlegal]

theorem dacInitFrame_frameOf (cfg : Config) (p : PolarityMode) (g : GainMode) :
    FrameOf cfg (dacInitFrame cfg p g) (.dacInit p g) :=
  ⟨_, _, [polCode cfg.codes p, gainCode cfg.codes g], rfl, rfl, rfl, rfl⟩

theorem dacWriteFrame_frameOf (cfg : Config) (a : DeviceAddress) {w : Nat} (hw : w < 2 ^ 16) (h4 : w % 4 = 0) :
    FrameOf cfg (dacWriteFrame cfg a w) (.dacWrite a w) :=
  ⟨_, _, addrCode cfg.codes a :: dacWordBytes cfg.wireForm w, rfl, rfl, rfl, hw, h4,
    fun hform => by rw [hform, dacWordBytes], fun hform => by rw [hform, dacWordBytes, hi8, lo8]⟩

theorem toneFrame_frameOf (cfg : Config) {a p f : Nat} (ha : a < 2 ^ 14) (hp : p < 2 ^ 16) (hf : f < 2 ^ 32) :
    FrameOf cfg (toneFrame cfg a p f) (.ddsTone a p f) :=
  ⟨_, _, joinFields [a, p, f], rfl, rfl, rfl, ha, hp, hf, joinFields_three a p f⟩

theorem rampSetupFrame_frameOf (cfg : Config) (p : RampParameter) :
    FrameOf cfg (rampSetupFrame cfg p) (.rampSetup p) :=
  ⟨_, _, [cfg.codes.subSetup, paramCode cfg.codes p], rfl, rfl, rfl, rfl⟩

theorem rampParamsFrame_frameOf (cfg : Config) {p : RampParameter} {ws we wd wi rn rp : Nat}
    (h : List.Forall₂ (· < ·) [ws, we, wd, wi, rn, rp] (rampBounds p)) :
    FrameOf cfg (rampParamsFrame cfg p ws we wd wi rn rp) (.rampParams p ws we wd wi rn rp) :=
  ⟨_, _, cfg.codes.subParams :: paramCode cfg.codes p :: joinFields [ws, we, wd, wi, rn, rp], rfl, rfl, rfl, h,
    (rampParamsPayload_eq cfg.codes p ws we wd wi rn rp).symm⟩

theorem rampDisableFrame_frameOf (cfg : Config) : FrameOf cfg (rampDisableFrame cfg) .rampDisable :=
  ⟨_, _, [cfg.codes.subDisable], rfl, rfl, rfl, rfl⟩

theorem loadFrame_frameOf (cfg : Config) : FrameOf cfg (loadFrame cfg) .load :=
  ⟨_, _, [], rfl, rfl, rfl, rfl⟩

theorem resetFrame_frameOf (cfg : Config) : FrameOf cfg (resetFrame cfg) .reset :=
  ⟨_, _, [], rfl, rfl, rfl, rfl⟩

/-! ### The frame that a builder's reply carries -/

theorem dacInitReply_eq_ok {cfg : Config} {gain polarity : BitVec 2} {f : List Byte}
    (h : dacInitReply cfg gain polarity = .ok f) :
    ∃ g p, gain? gain = some g ∧ polarity? polarity = some p ∧ f = dacInitFrame cfg p g := by
  unfold dacInitReply at h
  split at h
  · cases h
  · next hg =>
    split at h
    · cases h
    · next hp =>
      cases h
      exact ⟨_, _, hg, hp, rfl⟩

/-- DAC.WRITE's frame holds a word of `codec` at 14 bits in a slot of 16 (41_dac.md R141). -/
theorem dacWriteReply_eq_ok {cfg : Config} {address gain polarity : BitVec 2} {voltage ref : Quantity} {f : List Byte}
    (h : dacWriteReply cfg address voltage ref gain polarity = .ok f) :
    ∃ a g p v r fs w, address? address = some a ∧ gain? gain = some g ∧ polarity? polarity = some p ∧
      finites? cfg.numerics [voltage, ref] = some [v, r] ∧ fullScale cfg.numerics g r = some fs ∧
      codec cfg.numerics v fs dacBits dacSlot (isBipolar p) = some w ∧ f = dacWriteFrame cfg a w := by
  unfold dacWriteReply at h
  split at h
  · cases h
  · next ha =>
    split at h
    · cases h
    · next hg =>
      split at h
      · cases h
      · next hp =>
        split at h
        · next hvr =>
          split at h
          · cases h
          · split at h
            · next hfs =>
              unfold dacWordReply at h
              split at h
              · cases h
              · obtain ⟨w, hw, hf⟩ := withWord_eq_ok.mp h
                cases hf
                exact ⟨_, _, _, _, _, _, w, ha, hg, hp, hvr, hfs, hw, rfl⟩
            · cases h
        · cases h

/-- DDS.TONE's frame holds ASF, POW and FTW of its operands (42_dds.md R160 to R163). -/
theorem ddsToneReply_eq_ok {cfg : Config} {amp ampRef phase freq sysclk : Quantity} {f : List Byte}
    (h : ddsToneReply cfg amp ampRef phase freq sysclk = .ok f) :
    ∃ a r p q k wa wp wf, finites? cfg.numerics [amp, ampRef, phase, freq, sysclk] = some [a, r, p, q, k] ∧
      asf cfg.numerics a r = some wa ∧ pow cfg.numerics p = some wp ∧ ftw cfg.numerics q k = some wf ∧
      f = toneFrame cfg wa wp wf := by
  unfold ddsToneReply at h
  split at h
  · next hfin =>
    split at h
    · cases h
    · split at h
      · cases h
      · split at h
        · cases h
        · split at h
          · cases h
          · obtain ⟨wa, hwa, h⟩ := withWord_eq_ok.mp h
            obtain ⟨wp, hwp, h⟩ := withWord_eq_ok.mp h
            obtain ⟨wf, hwf, h⟩ := withWord_eq_ok.mp h
            cases h
            exact ⟨_, _, _, _, _, wa, wp, wf, hfin, hwa, hwp, hwf, rfl⟩
  · cases h

/-- The words of the ramp frames are words of `codec` at the scale of the ramp (42_dds.md R165, R166). -/
theorem rampFrames_eq_ok {cfg : Config} {p : RampParameter} {n : Nat} {fs a b d c : Rat} {rn rp : Nat} {f : List Byte}
    (h : rampFrames cfg p n fs a b d c rn rp = .ok f) :
    ∃ ws we wd wi, codec cfg.numerics a fs n n false = some ws ∧ codec cfg.numerics b fs n n false = some we ∧
      codec cfg.numerics d fs n n false = some wd ∧ codec cfg.numerics c fs n n false = some wi ∧
      f = rampSetupFrame cfg p ++ rampParamsFrame cfg p ws we wd wi rn rp := by
  obtain ⟨ws, hws, h⟩ := withWord_eq_ok.mp h
  obtain ⟨we, hwe, h⟩ := withWord_eq_ok.mp h
  obtain ⟨wd, hwd, h⟩ := withWord_eq_ok.mp h
  obtain ⟨wi, hwi, h⟩ := withWord_eq_ok.mp h
  cases h
  exact ⟨ws, we, wd, wi, hws, hwe, hwd, hwi, rfl⟩

/-- DDS.RAMP's reply is the pair of ramp frames, with the rates it read (42_dds.md R165, R167). -/
theorem ddsRampReply_eq_ok {cfg : Config} {param : BitVec 2} {start stop dec inc negRate posRate ref : Quantity}
    {f : List Byte} (h : ddsRampReply cfg param start stop dec inc negRate posRate ref = .ok f) :
    ∃ p a b d c nr pr rf rn rp, rampParameter? param = some p ∧
      finites? cfg.numerics [start, stop, dec, inc, negRate, posRate, ref] = some [a, b, d, c, nr, pr, rf] ∧
      rate? nr = some rn ∧ rate? pr = some rp ∧
      rampFrames cfg p (rampScale p rf).1 (rampScale p rf).2 a b d c rn rp = .ok f := by
  unfold ddsRampReply at h
  split at h
  · cases h
  · next hp =>
    split at h
    · next hfin =>
      split at h
      · cases h
      · dsimp only at h
        split at h
        · cases h
        · split at h
          · cases h
          · split at h
            · next hrn hrp => exact ⟨_, _, _, _, _, _, _, _, _, _, hp, hfin, hrn, hrp, h⟩
            · cases h
    · cases h

/-! ### Each emission is a unit -/

theorem codec_lt {m : Numerics} {v fs : Rat} {n t w : Nat} {bip : Bool} (h : codec m v fs n t bip = some w) :
    w < 2 ^ t := by
  obtain ⟨-, -, -, hlt, -⟩ := codec_leftJustified h
  exact hlt

/-- A ramp word at the scale of its parameter is within the bound of 30_encoding.md R91. -/
theorem rampWordBound_eq (p : RampParameter) (ref : Rat) : 2 ^ (rampScale p ref).1 = rampWordBound p := by
  cases p <;> rfl

theorem rate?_lt {r : Rat} {k : Nat} (h : rate? r = some k) : k < 2 ^ 16 := by
  obtain ⟨-, hk⟩ := rate?_eq_some.mp h
  omega

/-- One frame that spells a decoded form is a unit (20_memory.md R53). -/
theorem FrameOf.wireUnit {cfg : Config} (hlegal : cfg.legal = true) {f : List Byte} {d : Decoded}
    (h : FrameOf cfg f d) : WireUnit cfg f :=
  .inl ⟨d, h.parsed?_eq hlegal⟩

theorem dacWriteReply_wireUnit {cfg : Config} (hlegal : cfg.legal = true) {address gain polarity : BitVec 2}
    {voltage ref : Quantity} {f : List Byte} (h : dacWriteReply cfg address voltage ref gain polarity = .ok f) :
    WireUnit cfg f := by
  obtain ⟨a, _, _, _, _, _, w, -, -, -, -, -, hw, rfl⟩ := dacWriteReply_eq_ok h
  obtain ⟨-, -, -, hlt, hlow⟩ := codec_leftJustified hw
  exact (dacWriteFrame_frameOf cfg a hlt hlow).wireUnit hlegal

theorem ddsToneReply_wireUnit {cfg : Config} (hlegal : cfg.legal = true) {amp ampRef phase freq sysclk : Quantity}
    {f : List Byte} (h : ddsToneReply cfg amp ampRef phase freq sysclk = .ok f) : WireUnit cfg f := by
  obtain ⟨_, _, _, _, _, wa, wp, wf, -, hwa, hwp, hwf, rfl⟩ := ddsToneReply_eq_ok h
  exact (toneFrame_frameOf cfg (codec_lt hwa) (codec_lt hwp) (codec_lt hwf)).wireUnit hlegal

/-- The ramp pair is one unit: setup, then the parameters of the same ramp (20_memory.md R54). -/
theorem ddsRampReply_wireUnit {cfg : Config} (hlegal : cfg.legal = true) {param : BitVec 2}
    {start stop dec inc negRate posRate ref : Quantity} {f : List Byte}
    (h : ddsRampReply cfg param start stop dec inc negRate posRate ref = .ok f) : WireUnit cfg f := by
  obtain ⟨p, a, b, d, c, _, _, rf, rn, rp, -, -, hrn, hrp, hframes⟩ := ddsRampReply_eq_ok h
  obtain ⟨ws, we, wd, wi, hws, hwe, hwd, hwi, rfl⟩ := rampFrames_eq_ok hframes
  have word : ∀ {x : Rat} {w : Nat},
      codec cfg.numerics x (rampScale p rf).2 (rampScale p rf).1 (rampScale p rf).1 false = some w →
        w < rampWordBound p := fun hw => rampWordBound_eq p rf ▸ codec_lt hw
  have hbounds : List.Forall₂ (· < ·) [ws, we, wd, wi, rn, rp] (rampBounds p) :=
    forall₂_rampBounds.mpr ⟨word hws, word hwe, word hwd, word hwi, rate?_lt hrn, rate?_lt hrp⟩
  exact .inr ⟨_, _, p, ws, we, wd, wi, rn, rp, rfl, (rampSetupFrame_frameOf cfg p).parsed?_eq hlegal,
    (rampParamsFrame_frameOf cfg hbounds).parsed?_eq hlegal⟩

/-- In a legal configuration what an instruction emits is a unit. -/
theorem ending_emits_wireUnit {cfg : Config} (hlegal : cfg.legal = true) {i : Instr} {r : Reply (List Byte)}
    {f : List Byte} (hend : ending cfg i = .emits r) (hr : r = .ok f) : WireUnit cfg f := by
  subst hr
  cases i with
  | dacInit gain polarity =>
    obtain ⟨g, p, -, -, rfl⟩ := dacInitReply_eq_ok (Ending.emits.inj hend)
    exact (dacInitFrame_frameOf cfg p g).wireUnit hlegal
  | dacWrite => exact dacWriteReply_wireUnit hlegal (Ending.emits.inj hend)
  | ddsTone => exact ddsToneReply_wireUnit hlegal (Ending.emits.inj hend)
  | ddsRamp => exact ddsRampReply_wireUnit hlegal (Ending.emits.inj hend)
  | ddsLoad =>
    cases hend
    exact (loadFrame_frameOf cfg).wireUnit hlegal
  | ddsReset =>
    cases hend
    exact (resetFrame_frameOf cfg).wireUnit hlegal
  | ddsRampoff =>
    cases hend
    exact (rampDisableFrame_frameOf cfg).wireUnit hlegal
  | codecEncode | codecDecode | frame | parse | rx | frameDacInit | frameDacWriteText | frameDacWriteBinary
  | frameDdsTone | frameDdsRampSetup | frameDdsRampParams | frameDdsRampDisable | frameDdsLoad | frameDdsReset =>
    cases hend

/-! ### Every step keeps whole frames -/

/-- `Emit` of a unit keeps whole frames (20_memory.md R52). -/
theorem State.WholeFrames.emit {s : State} (h : s.WholeFrames) {f : List Byte} (hf : WireUnit s.cfg f) :
    (s.emit f).WholeFrames := by
  obtain ⟨htx, hunits⟩ := h
  refine ⟨by simp [htx], fun w hw => ?_⟩
  rcases List.mem_append.mp hw with hw | hw
  · exact hunits w hw
  · rw [List.mem_singleton.mp hw]
    exact hf

/-- Whole frames are about `tx`, the writes and the configuration only. -/
theorem State.WholeFrames.of_eq {s t : State} (h : s.WholeFrames) (htx : t.tx = s.tx) (hwrites : t.writes = s.writes)
    (hcfg : t.cfg = s.cfg) : t.WholeFrames := by
  unfold State.WholeFrames
  rwa [htx, hwrites, hcfg]

/-- A request that returns leaves the transmit stream. -/
theorem finish_wholeFrames {r : Reply Value} {s t : State} (hs : s.WholeFrames) (h : finish r s = .next t) :
    t.WholeFrames := by
  rcases finish_eq_next.mp h with ⟨v, -, rfl⟩ | ⟨e, -, rfl⟩ <;> exact hs.of_eq rfl rfl rfl

/-- An instruction keeps whole frames: a builder emits a unit, the others leave the transmit stream. -/
theorem exec_wholeFrames {i : Instr} {s t : State} (hlegal : s.cfg.legal = true) (hs : s.WholeFrames)
    (h : exec i s = .next t) : t.WholeFrames := by
  obtain ⟨-, hrun⟩ := exec_eq_next_iff.mp h
  cases hend : ending s.cfg i with
  | returns r =>
    rw [hend] at hrun
    exact finish_wholeFrames hs hrun
  | emits r =>
    rw [hend] at hrun
    rcases finishEmit_eq_next.mp hrun with ⟨f, hr, rfl⟩ | ⟨e, -, rfl⟩
    · exact (hs.emit (ending_emits_wireUnit hlegal hend hr)).of_eq rfl rfl rfl
    · exact hs.of_eq rfl rfl rfl
  | receives b =>
    rw [hend] at hrun
    exact finish_wholeFrames (s := s.setParser (step1 s.cfg s.parser b).1) (hs.of_eq rfl rfl rfl) hrun

/-- Settles O10: a step idles, resets the block, or performs an instruction. -/
theorem stepKeepsWholeFrames : Obligations.StepKeepsWholeFrames := by
  rintro s t ⟨hlegal, hparser, hframes⟩ h
  obtain ⟨hcfg, hparser'⟩ := stepKeepsParserWellFormed s t hlegal hparser h
  refine ⟨hcfg ▸ hlegal, hparser', ?_⟩
  rcases step_next_cases h with ⟨-, rfl⟩ | ⟨rest, -, rfl⟩ | ⟨x, rest, i, -, -, hexec⟩
  · exact hframes
  · exact State.wholeFrames_of_nil rfl rfl
  · exact exec_wholeFrames (s := s.takeInput rest) hlegal (hframes.of_eq rfl rfl rfl) hexec

end Sys2Proof.Machine
end

section
/-!
SUPPORT. How instructions are presented: each row's submission decodes to its row, and a request is refused for its
code exactly where the code is reserved.
-/

namespace Sys2Proof.Machine

open Sys2Proof

/-! ### The rows of the wire headers -/

/-- The DAC rows (30_encoding.md R97): the write header stands for the row of the wire form. -/
theorem decodeDacFrame_rows {cfg : Config} (h : cfg.legal = true) (rest : List Byte) :
    decodeDacFrame cfg (cfg.codes.opDacInit :: rest) = some (.frameDacInit rest) ∧
      (cfg.wireForm = .text →
        decodeDacFrame cfg (cfg.codes.opDacWrite :: rest) = some (.frameDacWriteText rest)) ∧
      (cfg.wireForm = .binary →
        decodeDacFrame cfg (cfg.codes.opDacWrite :: rest) = some (.frameDacWriteBinary rest)) := by
  obtain ⟨hwi, -⟩ := Config.legal_opcodes h
  simp +contextual [decodeDacFrame, hwi]

/-- The DDS rows (30_encoding.md R97), by their opcode: what follows the opcode decides the rest. -/
theorem decodeDdsFrame_rows {cfg : Config} (h : cfg.legal = true) (rest : List Byte) :
    decodeDdsFrame cfg.codes (cfg.codes.opTone :: rest) = some (.frameDdsTone rest) ∧
      decodeDdsFrame cfg.codes (cfg.codes.opDrg :: cfg.codes.subSetup :: rest) = some (.frameDdsRampSetup rest) ∧
      decodeDdsFrame cfg.codes (cfg.codes.opDrg :: cfg.codes.subParams :: rest) = some (.frameDdsRampParams rest) ∧
      decodeDdsFrame cfg.codes (cfg.codes.opDrg :: cfg.codes.subDisable :: rest) = some (.frameDdsRampDisable rest) ∧
      decodeDdsFrame cfg.codes (cfg.codes.opLoad :: terminator :: rest) = some (.frameDdsLoad rest) ∧
      decodeDdsFrame cfg.codes (cfg.codes.opReset :: terminator :: rest) = some (.frameDdsReset rest) := by
  obtain ⟨-, ⟨hot, hlt, hlo, hrt, hro, hrl⟩, hps, hds, hdp⟩ := Config.legal_opcodes h
  simp [decodeDdsFrame, hot, hlt, hlo, hrt, hro, hrl, hps, hds, hdp]

/-- A load or reset header holds the terminator (log 7): with another byte in its place no row is read. -/
theorem decodeDdsFrame_payload {cfg : Config} (h : cfg.legal = true) {o b : Byte} {rest : List Byte}
    (ho : o = cfg.codes.opLoad ∨ o = cfg.codes.opReset) (hb : b ≠ terminator) :
    decodeDdsFrame cfg.codes (o :: b :: rest) = none := by
  obtain ⟨-, ⟨-, hlt, hlo, hrt, hro, hrl⟩, -⟩ := Config.legal_opcodes h
  rcases ho with rfl | rfl
  · simp [decodeDdsFrame, hlt, hlo, hb]
  · simp [decodeDdsFrame, hrt, hro, hrl, hb]

/-- A wire frame whose bytes begin with a row's header decodes to the row. -/
theorem decode_wire_of_row {cfg : Config} {bytes : List Byte} {i : Instr} (h : decodeFrame cfg bytes = some i) :
    decode cfg (.wire bytes) = .ok i := by
  rw [decode, h, Option.getD_some]

theorem decode_wire_dac {cfg : Config} {bytes : List Byte} {i : Instr} (h : decodeDacFrame cfg bytes = some i) :
    decode cfg (.wire (dacInd :: bytes)) = .ok i :=
  decode_wire_of_row ((decodeFrame_dac cfg bytes).trans h)

theorem decode_wire_dds {cfg : Config} (hlegal : cfg.legal = true) {bytes : List Byte} {i : Instr}
    (h : decodeDdsFrame cfg.codes bytes = some i) : decode cfg (.wire (cfg.ddsInd :: bytes)) = .ok i := by
  obtain ⟨hne, -⟩ := Config.legal_headers hlegal
  exact decode_wire_of_row ((decodeFrame_dds hne bytes).trans h)

/-- A row that depends on the wire form is well-formed in that form only. -/
theorem wireForm_of_wellFormed {cfg : Config} {i : Instr} {w : WireForm} (h : i.wellFormed cfg = true)
    (hi : i.wireForm? = some w) : cfg.wireForm = w := by
  obtain ⟨-, hform⟩ := Bool.and_eq_true_iff.mp h
  simpa [hi, eq_comm] using hform

/-- Settles O1: a request is read by its operation code, a wire frame by the header of its row. -/
theorem decodeOfEncode : Obligations.DecodeOfEncode := by
  intro cfg i hlegal hwf
  have hdac := decodeDacFrame_rows hlegal
  have hdds := decodeDdsFrame_rows hlegal
  cases i with
  | codecEncode | codecDecode | dacInit | dacWrite | ddsTone | ddsRamp | ddsLoad | ddsReset | ddsRampoff | frame
  | parse | rx => rfl
  | frameDacInit rest =>
    obtain ⟨hinit, -⟩ := hdac rest
    exact decode_wire_dac hinit
  | frameDacWriteText rest =>
    obtain ⟨-, htext, -⟩ := hdac rest
    exact decode_wire_dac (htext (wireForm_of_wellFormed hwf rfl))
  | frameDacWriteBinary rest =>
    obtain ⟨-, -, hbinary⟩ := hdac rest
    exact decode_wire_dac (hbinary (wireForm_of_wellFormed hwf rfl))
  | frameDdsTone rest =>
    obtain ⟨htone, -⟩ := hdds rest
    exact decode_wire_dds hlegal htone
  | frameDdsRampSetup rest =>
    obtain ⟨-, hsetup, -⟩ := hdds rest
    exact decode_wire_dds hlegal hsetup
  | frameDdsRampParams rest =>
    obtain ⟨-, -, hparams, -⟩ := hdds rest
    exact decode_wire_dds hlegal hparams
  | frameDdsRampDisable rest =>
    obtain ⟨-, -, -, hdisable, -⟩ := hdds rest
    exact decode_wire_dds hlegal hdisable
  | frameDdsLoad rest =>
    obtain ⟨-, -, -, -, hload, -⟩ := hdds rest
    exact decode_wire_dds hlegal hload
  | frameDdsReset rest =>
    obtain ⟨-, -, -, -, -, hreset⟩ := hdds rest
    exact decode_wire_dds hlegal hreset

/-- Settles O3: each written word is the encoding of its instruction in a legal configuration. -/
theorem writtenWordsDecode : Obligations.WrittenWordsDecode := by
  have read : ∀ i : Instr, i.wellFormed .standard = true → decode .standard (encode .standard i) = .ok i := fun i =>
    decodeOfEncode .standard i Config.standard_legal
  exact ⟨read (.dacInit 0 1) rfl, read .ddsLoad rfl, read (.rx 0x44) rfl, read (.frameDacInit _) rfl,
    read (.frameDacWriteText _) rfl, decodeOfEncode _ (.frameDacWriteBinary _) (by decide) rfl,
    read (.frameDdsTone _) rfl, read (.frameDdsRampSetup _) rfl, read (.frameDdsRampParams _) rfl,
    read (.frameDdsRampDisable _) rfl, read (.frameDdsLoad _) rfl, read (.frameDdsReset _) rfl⟩

/-! ### Reserved operation codes -/

theorem reservedOp_iff {op : BitVec 4} : reservedOp op = true ↔ op ∈ [0x0#4, 0xD#4, 0xE#4, 0xF#4] := by
  simp [reservedOp, or_assoc]

/-- No operation of 30_encoding.md R71 has a reserved code. -/
theorem decodeRequest_ok {r : Request} {i : Instr} (h : decodeRequest r = .ok i) : reservedOp r.op = false := by
  by_contra hres
  have hmem := reservedOp_iff.mp (Bool.eq_true_of_not_eq_false hres)
  obtain ⟨op, operands⟩ := r
  simp only [List.mem_cons, List.not_mem_nil, or_false] at hmem
  rcases hmem with rfl | rfl | rfl | rfl <;> cases h

/-- A request that is no instruction is refused for its code where that is reserved, else for its operands. -/
theorem decodeRequest_error {r : Request} {e : DecodeError} (h : decodeRequest r = .error e) :
    e = if reservedOp r.op then .reservedOp r.op else .operandRecord r.op := by
  unfold decodeRequest at h
  split at h <;> cases h
  rfl

/-- A request is refused for its code exactly where the code is reserved (30_encoding.md R72). -/
theorem decodeRequest_reserved_iff {r : Request} :
    decodeRequest r = .error (.reservedOp r.op) ↔ reservedOp r.op = true := by
  cases hdec : decodeRequest r with
  | ok i => simp [decodeRequest_ok hdec]
  | error e => rw [decodeRequest_error hdec]; split <;> simp_all

/-- An instruction is refused for its numbers alone. -/
theorem exec_ne_undecodable (i : Instr) (s : State) (e : DecodeError) : exec i s ≠ .refused (.undecodable e) := by
  rw [exec_eq_ending, withNumbers]
  split
  · cases ending s.cfg i with
    | returns r => exact finish_ne_refused
    | emits r => exact finishEmit_ne_refused
    | receives b => exact finish_ne_refused
  · nofun

/-- A submission is refused as undecodable exactly where it does not decode. -/
theorem step_undecodable_iff {s : State} {x : Submission} {rest : List Input} {e : DecodeError}
    (hin : s.inputs = .submit x :: rest) :
    step s = .refused (.undecodable e) ↔ decode s.cfg x = .error e := by
  cases hdec : decode s.cfg x with
  | ok i => simp [step_submit hin hdec, exec_ne_undecodable]
  | error e' => simp [step, hin, hdec]

/-- Settles O5: the step refuses what does not decode, with the decoder's reason. -/
theorem reservedOperationRefused : Obligations.ReservedOperationRefused := fun _ _ _ hin =>
  (step_undecodable_iff hin).trans (decodeRequest_reserved_iff.trans reservedOp_iff)

/-- Settles O58: `readFrame` and PARSE are one reading of the bytes. -/
theorem wireFramesReadAsParse : Obligations.WireFramesReadAsParse := fun _ _ =>
  ⟨rfl, rfl, rfl, rfl, rfl, rfl, rfl, rfl, rfl⟩

end Sys2Proof.Machine
end

section
/-!
SUPPORT. The converse of reading numerals: what `field` and `fields` accept is what `dec` and `joinFields` write
(43_framer_parser.md R220).
-/

namespace Sys2Proof.Machine

open Sys2Proof

/-! ### A spelling without a leading zero is a numeral -/

/-- Every digit byte is the digit of its value. -/
theorem digit_of_isDigit {b : Byte} (h : isDigit b = true) : b.toNat - 0x30 < 10 ∧ digit (b.toNat - 0x30) = b := by
  revert h
  revert b
  decide

theorem spelled_append_singleton (s : List Byte) (b : Byte) :
    spelled (s ++ [b]) = 10 * spelled s + (b.toNat - 0x30) := by
  simp [spelled]

/-- Without its last digit a spelling that had no leading zero has none, and does not begin with `'0'` at all. -/
theorem noLeadingZero_init {s : List Byte} {b : Byte} (hs : s ≠ []) (h : noLeadingZero (s ++ [b]) = true) :
    noLeadingZero s = true ∧ s ≠ dec 0 := by
  obtain ⟨c, rest, rfl⟩ := List.exists_cons_of_ne_nil hs
  have hc : c ≠ 0x30#8 := by simpa [noLeadingZero] using h
  refine ⟨by simp [noLeadingZero, hc], fun hzero => hc ?_⟩
  exact (List.cons.inj hzero).1

/-- Digits without a leading zero are the numeral of the number they spell. -/
theorem dec_spelled {s : List Byte} (hs : s ≠ []) (hdigits : s.all isDigit = true) (hzero : noLeadingZero s = true) :
    dec (spelled s) = s := by
  induction s using List.reverseRecOn with
  | nil => exact absurd rfl hs
  | append_singleton s b ih =>
    rw [List.all_append, Bool.and_eq_true] at hdigits
    obtain ⟨hall, hb⟩ := hdigits
    obtain ⟨hlt, hdigit⟩ := digit_of_isDigit (b := b) (by simpa using hb)
    rw [spelled_append_singleton]
    by_cases hnil : s = []
    · subst hnil
      rw [show spelled [] = 0 from rfl, Nat.mul_zero, Nat.zero_add, dec_of_lt hlt, hdigit, List.nil_append]
    · obtain ⟨hzero', hne⟩ := noLeadingZero_init hnil hzero
      have hdec := ih hnil hall hzero'
      have hpos : 0 < spelled s := Nat.pos_of_ne_zero fun h => hne (by rw [← h, hdec])
      rw [dec_mul_ten_add hpos hlt, hdec, hdigit]

/-- `field` accepts numerals of numbers below the bound only. -/
theorem field_eq_some {s : List Byte} {bound n : Nat} (h : field s bound = some n) : s = dec n ∧ n < bound := by
  unfold field at h
  split at h
  · next hs =>
    obtain ⟨hne, hdigits, hzero, hlt⟩ := hs
    cases h
    exact ⟨(dec_spelled hne hdigits hzero).symm, hlt⟩
  · cases h

/-! ### Accepted fields are joined fields -/

/-- Fields within their bounds are numerals, each below its bound. -/
theorem fieldList_eq_some {parts : List (List Byte)} {bounds ns : List Nat} (h : fieldList parts bounds = some ns) :
    parts = ns.map dec ∧ List.Forall₂ (· < ·) ns bounds := by
  induction parts generalizing bounds ns with
  | nil =>
    cases bounds with
    | nil => cases h; exact ⟨rfl, .nil⟩
    | cons => cases h
  | cons part parts ih =>
    cases bounds with
    | nil => cases h
    | cons bound bounds =>
      rw [fieldList] at h
      split at h
      · next n ns' hn hns =>
        cases h
        obtain ⟨rfl, hlt⟩ := field_eq_some hn
        obtain ⟨rfl, hlts⟩ := ih hns
        exact ⟨rfl, .cons hlt hlts⟩
      · cases h

theorem splitFields_ne_nil (s : List Byte) : splitFields s ≠ [] := by
  cases s with
  | nil => nofun
  | cons b rest =>
    rw [splitFields]
    split
    · nofun
    · split <;> nofun

/-- The parts with separators between them are the bytes that were split. -/
theorem intercalate_splitFields (s : List Byte) : [separator].intercalate (splitFields s) = s := by
  induction s with
  | nil => rfl
  | cons b rest ih =>
    obtain ⟨part, parts, hparts⟩ := List.exists_cons_of_ne_nil (splitFields_ne_nil rest)
    rw [hparts] at ih
    rw [splitFields, hparts]
    split
    · next hb => rw [hb, List.intercalate_cons_cons, ih, List.nil_append, List.singleton_append]
    · cases parts <;> simpa [List.intercalate] using ih

theorem intercalate_map_dec (ns : List Nat) : [separator].intercalate (ns.map dec) = joinFields ns := by
  induction ns with
  | nil => rfl
  | cons n ns ih =>
    cases ns with
    | nil => simp [List.intercalate]
    | cons m ns =>
      rw [List.map_cons] at ih
      rw [joinFields_cons_cons, ← ih, List.map_cons, List.map_cons, List.intercalate_cons_cons, List.append_assoc,
        List.singleton_append]

/-- `fields` accepts joined numerals within their bounds only. -/
theorem fields_eq_some {s : List Byte} {bounds ns : List Nat} (h : fields s bounds = some ns) :
    List.Forall₂ (· < ·) ns bounds ∧ s = joinFields ns := by
  obtain ⟨hparts, hlt⟩ := fieldList_eq_some h
  exact ⟨hlt, by rw [← intercalate_map_dec, ← hparts, intercalate_splitFields]⟩

/-! ### Joined fields denote one list of numbers, and their length -/

theorem dec_injective : Function.Injective dec := fun n m h => by
  rw [← spelled_dec n, h, spelled_dec]

theorem joinFields_inj {ns ms : List Nat} (hns : ns ≠ []) (hms : ms ≠ []) (h : joinFields ns = joinFields ms) :
    ns = ms :=
  dec_injective.list_map (by rw [← splitFields_joinFields hns, h, splitFields_joinFields hms])

theorem dec_length_pos (n : Nat) : 0 < (dec n).length := List.length_pos_of_ne_nil (dec_ne_nil n)

/-- Every field has a digit, and separators stand between them. -/
theorem joinFields_length_ge (ns : List Nat) : 2 * ns.length ≤ (joinFields ns).length + 1 := by
  induction ns with
  | nil => simp
  | cons n ns ih =>
    have := dec_length_pos n
    cases ns with
    | nil => rw [joinFields_singleton, List.length_singleton]; omega
    | cons m ns =>
      rw [List.length_cons] at ih
      rw [joinFields_cons_cons, List.length_append, List.length_cons, List.length_cons, List.length_cons]
      omega

end Sys2Proof.Machine
end

section
/-!
SUPPORT. The lengths of the frames that builders emit (30_encoding.md R97).
-/

namespace Sys2Proof.Machine

open Sys2Proof

theorem dacWriteFrame_length_text {cfg : Config} (hform : cfg.wireForm = .text) (a : DeviceAddress) {w : Nat}
    (hw : w < 2 ^ 16) : 5 ≤ (dacWriteFrame cfg a w).length ∧ (dacWriteFrame cfg a w).length ≤ 9 := by
  have := dec_length_pos w
  have := dec_length_le (k := 5) (by decide) (hw.trans (by decide))
  simp only [dacWriteFrame, dacWordBytes, hform, List.length_append, List.length_cons, List.length_nil]
  omega

theorem dacWriteFrame_length_binary {cfg : Config} (hform : cfg.wireForm = .binary) (a : DeviceAddress) (w : Nat) :
    (dacWriteFrame cfg a w).length = 6 := by
  simp [dacWriteFrame, dacWordBytes, hform]

theorem toneFrame_length (cfg : Config) {a p f : Nat} (ha : a < 2 ^ 14) (hp : p < 2 ^ 16) (hf : f < 2 ^ 32) :
    8 ≤ (toneFrame cfg a p f).length ∧ (toneFrame cfg a p f).length ≤ 25 := by
  have := joinFields_length_ge [a, p, f]
  have := joinFields_three_length ha hp hf
  simp only [toneFrame, List.length_append, List.length_cons, List.length_nil] at *
  omega

theorem rampSetupFrame_length (cfg : Config) (p : RampParameter) : (rampSetupFrame cfg p).length = 5 := rfl

theorem rampParamsFrame_length (cfg : Config) (p : RampParameter) {ws we wd wi rn rp : Nat} (hws : ws < 2 ^ 32)
    (hwe : we < 2 ^ 32) (hwd : wd < 2 ^ 32) (hwi : wi < 2 ^ 32) (hrn : rn < 2 ^ 16) (hrp : rp < 2 ^ 16) :
    16 ≤ (rampParamsFrame cfg p ws we wd wi rn rp).length ∧
      (rampParamsFrame cfg p ws we wd wi rn rp).length ≤ 60 := by
  have := joinFields_length_ge [ws, we, wd, wi, rn, rp]
  have := joinFields_six_length hws hwe hwd hwi hrn hrp
  simp only [rampParamsFrame, List.length_append, List.length_cons, List.length_nil] at *
  omega

/-- Every word of `codec` fits the widest slot (10_state.md R33). -/
theorem codec_lt_widest {m : Numerics} {v fs : Rat} {n t w : Nat} {bip : Bool} (h : codec m v fs n t bip = some w) :
    w < 2 ^ 32 := by
  obtain ⟨-, -, ht, hlt, -⟩ := codec_leftJustified h
  exact hlt.trans_le (Nat.pow_le_pow_right two_pos ht)

theorem ddsRampReply_length {cfg : Config} {param : BitVec 2} {start stop dec inc negRate posRate ref : Quantity}
    {f : List Byte} (h : ddsRampReply cfg param start stop dec inc negRate posRate ref = .ok f) :
    5 + 16 ≤ f.length ∧ f.length ≤ 5 + 60 := by
  obtain ⟨p, _, _, _, _, _, _, _, rn, rp, -, -, hrn, hrp, hframes⟩ := ddsRampReply_eq_ok h
  obtain ⟨ws, we, wd, wi, hws, hwe, hwd, hwi, rfl⟩ := rampFrames_eq_ok hframes
  have := rampParamsFrame_length cfg p (codec_lt_widest hws) (codec_lt_widest hwe) (codec_lt_widest hwd)
    (codec_lt_widest hwi) (rate?_lt hrn) (rate?_lt hrp)
  rw [List.length_append, rampSetupFrame_length]
  omega

/-- The bytes that a builder answers are the frame of its reply. -/
theorem emitted_frame {i : Instr} {s t : State} {r : Reply (List Byte)} {f : List Byte}
    (hend : ending s.cfg i = .emits r) (h : exec i s = .next t) (hres : t.result = some (.ok (.bytes f))) :
    r = .ok f := by
  obtain ⟨-, hrun⟩ := exec_eq_next_iff.mp h
  rw [hend] at hrun
  rcases finishEmit_eq_next.mp hrun with ⟨f', rfl, rfl⟩ | ⟨e, -, rfl⟩ <;> cases hres
  rfl

/-- Settles O50: the length of the frame in each builder's reply. -/
theorem frameLengths : Obligations.FrameLengths := by
  intro s t i f h hres
  refine ⟨?dacInit, ?dacWrite, ?ddsTone, ?ddsRamp, ?loadReset, ?rampoff⟩
  case dacInit =>
    rintro gain pol rfl
    obtain ⟨g, p, -, -, rfl⟩ := dacInitReply_eq_ok (emitted_frame rfl h hres)
    rfl
  case dacWrite =>
    rintro addr v ref gain pol rfl
    obtain ⟨a, _, _, _, _, _, w, -, -, -, -, -, hw, rfl⟩ := dacWriteReply_eq_ok (emitted_frame rfl h hres)
    exact ⟨fun hform => dacWriteFrame_length_text hform a (codec_lt hw),
      fun hform => dacWriteFrame_length_binary hform a w⟩
  case ddsTone =>
    rintro amp ampRef phase freq sysclk rfl
    obtain ⟨_, _, _, _, _, wa, wp, wf, -, hwa, hwp, hwf, rfl⟩ := ddsToneReply_eq_ok (emitted_frame rfl h hres)
    exact toneFrame_length s.cfg (codec_lt hwa) (codec_lt hwp) (codec_lt hwf)
  case ddsRamp =>
    rintro param start stop dec inc negRate posRate ref rfl
    exact ddsRampReply_length (emitted_frame rfl h hres)
  case loadReset =>
    rintro (rfl | rfl) <;> cases emitted_frame rfl h hres <;> rfl
  case rampoff =>
    rintro rfl
    cases emitted_frame rfl h hres
    rfl

end Sys2Proof.Machine
end

section
/-!
SUPPORT. Wire frames presented whole. PARSE of a frame is stage 2 on its fields (43_framer_parser.md R208), so that each
row answers what its row of R207 gives; then the rows, each with its errors, and the headers that are none.
-/

namespace Sys2Proof.Machine

open Sys2Proof

/-! ### From the bytes of a frame to its answer -/

theorem exec_parse (bytes : List Byte) (s : State) :
    exec (.parse bytes) s = finish ((parseReply s.cfg bytes).map .command) s := rfl

/-- An instruction that reads the bytes of a legal frame as PARSE does answers the frame's command. -/
theorem LegalFrame.answers {s : State} {i : Instr} {dev opc : Byte} {payload : List Byte} {d : Decoded}
    (hlegal : s.cfg.legal = true) (hi : exec i s = exec (.parse (frameBytes dev opc payload)) s)
    (h : LegalFrame s.cfg dev opc payload d) :
    Answers i s (.ok (.command ⟨dev, opc, payload, terminator, d⟩)) := by
  rw [Answers, hi, exec_parse, h.parseReply_eq hlegal]
  rfl

/-- An instruction that reads bytes as PARSE does answers the error that PARSE raises. -/
theorem answers_of_parseReply_raise {s : State} {i : Instr} {bytes : List Byte} {e : Err}
    (hi : exec i s = exec (.parse bytes) s) (h : parseReply s.cfg bytes = .raise e) : Answers i s (.err e) := by
  rw [Answers, hi, exec_parse, h]
  rfl

/-- An instruction that reads a frame as PARSE does answers the error that stage 2 raises on the frame's fields. -/
theorem answers_of_interpretDecoded_raise {s : State} {i : Instr} {dev opc : Byte} {payload : List Byte} {e : Err}
    (hlisted : listedOpcode s.cfg (some dev) opc = true) (htaken : TakenPayload s.cfg dev opc payload)
    (hi : exec i s = exec (.parse (frameBytes dev opc payload)) s)
    (h : interpretDecoded s.cfg dev opc payload (2 + payload.length) = .raise e) : Answers i s (.err e) := by
  refine answers_of_parseReply_raise hi ?_
  rw [parseReply_frameBytes hlisted htaken, interpret, h]
  rfl

/-- The payloads of the text rows: printable bytes within MAX_PAYLOAD (30_encoding.md R74). -/
def TextPayload (payload : List Byte) : Prop := payload.all payloadByte = true ∧ payload.length ≤ 64

theorem TextPayload.nil : TextPayload [] := ⟨rfl, by decide⟩

theorem TextPayload.cons {b : Byte} {payload : List Byte} (hb : payloadByte b = true)
    (hall : payload.all payloadByte = true) (hlen : payload.length ≤ 63) : TextPayload (b :: payload) :=
  ⟨by simp [hb, hall], Nat.succ_le_succ hlen⟩

/-- The answer to a DAC init frame is the one of its row, an error here. -/
theorem dacInit_raises {s : State} {payload : List Byte} {e : Err} (hlegal : s.cfg.legal = true)
    (hp : TextPayload payload) (h : interpretDacInit s.cfg.codes payload (2 + payload.length) = .raise e) :
    Answers (.frameDacInit (payload ++ [0x21])) s (.err e) := by
  obtain ⟨hall, hlen⟩ := hp
  refine answers_of_interpretDecoded_raise (dev := dacInd) (opc := s.cfg.codes.opDacInit)
    (listedOpcode_iff.mpr (.inl ⟨rfl, .inl rfl⟩)) (.text (binaryPayload_dacInit hlegal _) hlen hall) rfl ?_
  rw [interpretDecoded_dac, interpretDac_init, h]

/-- The answer to a DAC write frame in the text form. -/
theorem dacWriteText_raises {s : State} {payload : List Byte} {e : Err} (hlegal : s.cfg.legal = true)
    (hform : s.cfg.wireForm = .text) (hp : TextPayload payload)
    (h : interpretDacWriteText s.cfg.codes payload (2 + payload.length) = .raise e) :
    Answers (.frameDacWriteText (payload ++ [0x21])) s (.err e) := by
  obtain ⟨hall, hlen⟩ := hp
  refine answers_of_interpretDecoded_raise (dev := dacInd) (opc := s.cfg.codes.opDacWrite)
    (listedOpcode_iff.mpr (.inl ⟨rfl, .inr rfl⟩)) (.text (by simp [binaryPayload, hform]) hlen hall) rfl ?_
  rw [interpretDecoded_dac, interpretDac_writeText hlegal hform, h]

/-- The answer to a DAC write frame in the binary form, whose three payload bytes may be any. -/
theorem dacWriteBinary_raises {s : State} {b hi lo : Byte} {e : Err} (hlegal : s.cfg.legal = true)
    (hform : s.cfg.wireForm = .binary) (h : interpretDacWriteBinary s.cfg.codes [b, hi, lo] 5 = .raise e) :
    Answers (.frameDacWriteBinary [b, hi, lo, 0x21]) s (.err e) := by
  refine answers_of_interpretDecoded_raise (dev := dacInd) (opc := s.cfg.codes.opDacWrite) (payload := [b, hi, lo])
    (listedOpcode_iff.mpr (.inl ⟨rfl, .inr rfl⟩)) (.inl ⟨by simp [binaryPayload, hform], rfl⟩) rfl ?_
  rw [interpretDecoded_dac, interpretDac_writeBinary hlegal hform]
  exact h

/-- The answer to a frame of the DDS, by the rows of its opcode. -/
theorem dds_raises {s : State} {i : Instr} {opc : Byte} {payload : List Byte} {e : Err} (hlegal : s.cfg.legal = true)
    (hopc : opc = s.cfg.codes.opTone ∨ opc = s.cfg.codes.opDrg ∨ opc = s.cfg.codes.opLoad ∨ opc = s.cfg.codes.opReset)
    (hp : TextPayload payload) (hi : exec i s = exec (.parse (frameBytes s.cfg.ddsInd opc payload)) s)
    (h : interpretDds s.cfg.codes opc payload (2 + payload.length) = .raise e) : Answers i s (.err e) := by
  obtain ⟨hall, hlen⟩ := hp
  refine answers_of_interpretDecoded_raise (listedOpcode_iff.mpr (.inr ⟨rfl, hopc⟩))
    (.text (binaryPayload_dds hlegal _) hlen hall) hi ?_
  rw [interpretDecoded_dds hlegal, h]

/-- The answer to a DRG frame. -/
theorem drg_raises {s : State} {i : Instr} {payload : List Byte} {e : Err} (hlegal : s.cfg.legal = true)
    (hp : TextPayload payload)
    (hi : exec i s = exec (.parse (frameBytes s.cfg.ddsInd s.cfg.codes.opDrg payload)) s)
    (h : interpretDrg s.cfg.codes payload (2 + payload.length) = .raise e) : Answers i s (.err e) := by
  obtain ⟨-, hdrg, -⟩ := interpretDds_rows hlegal payload (2 + payload.length)
  exact dds_raises hlegal (.inr (.inl rfl)) hp hi (hdrg.trans h)

/-- The answer to a DRG frame, for the bytes after its sub-opcode. -/
theorem drg_raises_after_sub {s : State} {i : Instr} {sub : Byte} {rest : List Byte} {e : Err}
    (hlegal : s.cfg.legal = true) (hsub : payloadByte sub = true) (hall : rest.all payloadByte = true)
    (hlen : rest.length ≤ 63)
    (hi : exec i s = exec (.parse (frameBytes s.cfg.ddsInd s.cfg.codes.opDrg (sub :: rest))) s)
    (h : interpretDrg s.cfg.codes (sub :: rest) (3 + rest.length) = .raise e) : Answers i s (.err e) := by
  have hoff : 2 + (sub :: rest).length = 3 + rest.length := by rw [List.length_cons]; omega
  exact drg_raises hlegal (.cons hsub hall hlen) hi (hoff ▸ h)

/-! ### Codes in no row -/

theorem addrOfCode_eq_none {c : CodeTable} {b : Byte} (h : b ∉ [c.dacA, c.dacB, c.dacBoth]) :
    addrOfCode c b = none := by
  simp_all [addrOfCode]

theorem paramOfCode_eq_none {c : CodeTable} {b : Byte} (h : b ∉ [c.frequency, c.phase, c.amplitude]) :
    paramOfCode c b = none := by
  simp_all [paramOfCode]

/-! ### DAC init -/

theorem interpretDacInit_badField (c : CodeTable) {payload : List Byte} (off : Nat) (h : payload.length ≠ 2) :
    interpretDacInit c payload off = badField off := by
  unfold interpretDacInit
  split
  · exact absurd rfl h
  · rfl

theorem interpretDacInit_polarity {c : CodeTable} {b0 : Byte} (b1 : Byte) (off : Nat) (h : polOfCode c b0 = none) :
    interpretDacInit c [b0, b1] off = .raise (.unsupportedParameter .polarity) := by
  simp only [interpretDacInit, h]

theorem interpretDacInit_gain {c : CodeTable} {b0 b1 : Byte} {p : PolarityMode} (off : Nat)
    (hp : polOfCode c b0 = some p) (hg : gainOfCode c b1 = none) :
    interpretDacInit c [b0, b1] off = .raise .unsupportedGainMode := by
  simp only [interpretDacInit, hp, hg]

/-- Settles O51: the legal frame is read, and the row's errors are those of stage 2. -/
theorem dacInitFrameIsRead : Obligations.DacInitFrameIsRead := by
  intro s hlegal
  refine ⟨fun p g => LegalFrame.answers hlegal rfl ⟨rfl, rfl, rfl⟩, fun b0 b1 h0 h1 => ?_⟩
  have two : TextPayload [b0, b1] := .cons h0 (by simp [h1]) (by simp)
  refine ⟨fun hpol => ?_, fun p hpol hgain => ?_, fun payload hall hlen hne => ?_⟩
  · exact dacInit_raises hlegal two (interpretDacInit_polarity b1 _ hpol)
  · exact dacInit_raises hlegal two (interpretDacInit_gain _ hpol hgain)
  · exact dacInit_raises hlegal ⟨hall, hlen⟩ (interpretDacInit_badField _ _ hne)

/-! ### DAC write -/

theorem interpretDacWord_badField (a : DeviceAddress) {w : Nat} (off : Nat) (h : w % 4 ≠ 0) :
    interpretDacWord a w off = badField off := if_neg h

/-- What is not the numeral of a multiple of 4 below `2 ^ 16` is no word (43_framer_parser.md R207). -/
theorem interpretDacWriteText_badField {c : CodeTable} (hinj : c.injective = true) (a : DeviceAddress)
    {ds : List Byte} (off : Nat) (h : ¬ ∃ w, w < 2 ^ 16 ∧ w % 4 = 0 ∧ ds = dec w) :
    interpretDacWriteText c (addrCode c a :: ds) off = badField off := by
  cases ds with
  | nil => rfl
  | cons d ds =>
    simp only [interpretDacWriteText, addrOfCode_addrCode hinj]
    split
    · rfl
    · next w hfield =>
      obtain ⟨hds, hlt⟩ := field_eq_some hfield
      exact interpretDacWord_badField a off fun h4 => h ⟨w, hlt, h4, hds⟩

theorem interpretDacWriteText_address {c : CodeTable} {b : Byte} {ds : List Byte} (off : Nat)
    (hb : b ∉ [c.dacA, c.dacB, c.dacBoth]) (hds : ds ≠ []) :
    interpretDacWriteText c (b :: ds) off = .raise (.unsupportedParameter .address) := by
  obtain ⟨d, ds, rfl⟩ := List.exists_cons_of_ne_nil hds
  simp only [interpretDacWriteText, addrOfCode_eq_none hb]

theorem interpretDacWriteBinary_address {c : CodeTable} {b : Byte} (hi lo : Byte) (off : Nat)
    (hb : b ∉ [c.dacA, c.dacB, c.dacBoth]) :
    interpretDacWriteBinary c [b, hi, lo] off = .raise (.unsupportedParameter .address) := by
  simp only [interpretDacWriteBinary, addrOfCode_eq_none hb]

theorem interpretDacWriteBinary_badField {c : CodeTable} (hinj : c.injective = true) (a : DeviceAddress) {w : Nat}
    (off : Nat) (hw : w < 2 ^ 16) (h4 : w % 4 ≠ 0) :
    interpretDacWriteBinary c [addrCode c a, BitVec.ofNat 8 (w / 256), BitVec.ofNat 8 w] off = badField off := by
  simp only [interpretDacWriteBinary, addrOfCode_addrCode hinj, wordOfBytes hw, interpretDacWord_badField a off h4]

/-- A text write frame with a listed address and no word after it is BAD_FIELD at its terminator. -/
theorem dacWriteText_badField {s : State} (hlegal : s.cfg.legal = true) (hform : s.cfg.wireForm = .text)
    (a : DeviceAddress) {ds : List Byte} (hall : ds.all payloadByte = true) (hlen : ds.length ≤ 63)
    (h : ¬ ∃ w, w < 2 ^ 16 ∧ w % 4 = 0 ∧ ds = dec w) :
    Answers (.frameDacWriteText (addrCode s.cfg.codes a :: ds ++ [0x21])) s
      (.err (.framingError .badField (3 + ds.length))) := by
  obtain ⟨hinj, -⟩ := Config.legal_codes hlegal
  have hoff : 3 + ds.length = 2 + (addrCode s.cfg.codes a :: ds).length := by rw [List.length_cons]; omega
  rw [hoff]
  exact dacWriteText_raises hlegal hform (.cons (payloadByte_addrCode hlegal a) hall hlen)
    (interpretDacWriteText_badField hinj a _ h)

/-- Settles O52: a multiple of 4 makes a legal frame; another word is BAD_FIELD in each row. -/
theorem dacWriteFrameIsRead : Obligations.DacWriteFrameIsRead := by
  intro s a w hlegal hw
  obtain ⟨hinj, -⟩ := Config.legal_codes hlegal
  refine ⟨fun hform => ⟨fun h4 => ?_, fun h4 => ?_⟩, fun hform => ⟨fun h4 => ?_, fun h4 => ?_⟩⟩
  · exact LegalFrame.answers hlegal rfl ⟨rfl, rfl, hw, h4, fun _ => rfl, fun hbin => (nomatch hform.symm.trans hbin)⟩
  · have hlen := dec_length_le (k := 5) (by decide) (hw.trans (by decide))
    refine dacWriteText_badField hlegal hform a (all_payloadByte_dec w) (by omega) ?_
    rintro ⟨w', -, h4', hdec⟩
    exact h4 (dec_injective hdec ▸ h4')
  · exact LegalFrame.answers hlegal rfl ⟨rfl, rfl, hw, h4, fun htext => (nomatch hform.symm.trans htext), fun _ => rfl⟩
  · exact dacWriteBinary_raises hlegal hform (interpretDacWriteBinary_badField hinj a 5 hw h4)

/-- Settles O53: the errors of stage 2 in the two write rows. -/
theorem dacWriteFrameErrorsAreNamed : Obligations.DacWriteFrameErrorsAreNamed := by
  intro s hlegal
  refine ⟨fun hform => ⟨?empty, ?short, ?address, ?word⟩, fun hform b hi lo hb => ?binary⟩
  case empty => exact dacWriteText_raises hlegal hform .nil rfl
  case short =>
    intro b hb
    exact dacWriteText_raises hlegal hform (payload := [b]) (.cons hb rfl (Nat.zero_le 63)) rfl
  case address =>
    intro b ds hb hall hne hlen hmem
    exact dacWriteText_raises hlegal hform (.cons hb hall hlen) (interpretDacWriteText_address _ hmem hne)
  case word =>
    intro a ds hall hlen h
    exact dacWriteText_badField hlegal hform a hall hlen h
  case binary => exact dacWriteBinary_raises hlegal hform (interpretDacWriteBinary_address hi lo 5 hb)

/-! ### Single tone -/

/-- A payload that is not joined fields within the bounds has no fields. -/
theorem fields_eq_none {payload : List Byte} {bounds : List Nat}
    (h : ¬ ∃ ns, List.Forall₂ (· < ·) ns bounds ∧ payload = joinFields ns) : fields payload bounds = none :=
  Option.eq_none_iff_forall_ne_some.mpr fun ns hns => h ⟨ns, fields_eq_some hns⟩

theorem interpretTone_badField {payload : List Byte} (off : Nat)
    (h : ¬ ∃ ns, List.Forall₂ (· < ·) ns [2 ^ 14, 2 ^ 16, 2 ^ 32] ∧ payload = joinFields ns) :
    interpretTone payload off = badField off := by
  simp only [interpretTone, fields_eq_none h]

theorem tone_badField {s : State} (hlegal : s.cfg.legal = true) {payload : List Byte} (hp : TextPayload payload)
    (h : ¬ ∃ ns, List.Forall₂ (· < ·) ns [2 ^ 14, 2 ^ 16, 2 ^ 32] ∧ payload = joinFields ns) :
    Answers (.frameDdsTone (payload ++ [0x21])) s (.err (.framingError .badField (2 + payload.length))) := by
  obtain ⟨htone, -⟩ := interpretDds_rows hlegal payload (2 + payload.length)
  exact dds_raises hlegal (.inl rfl) hp rfl (htone.trans (interpretTone_badField _ h))

/-- Three words of which one is at or over its bound are no fields: a payload denotes one list of numbers. -/
theorem tone_out_of_bounds {a p f : Nat} (h : ¬ (a < 2 ^ 14 ∧ p < 2 ^ 16 ∧ f < 2 ^ 32)) :
    ¬ ∃ ns, List.Forall₂ (· < ·) ns [2 ^ 14, 2 ^ 16, 2 ^ 32] ∧ joinFields [a, p, f] = joinFields ns := by
  rintro ⟨ns, hlt, hjoin⟩
  have hne : ns ≠ [] := by rintro rfl; cases hlt
  obtain rfl := joinFields_inj (by simp) hne hjoin
  exact h (by simpa using hlt)

/-- Settles O54: words within their bounds make a legal frame, and no other payload has the three fields. -/
theorem toneFrameIsRead : Obligations.ToneFrameIsRead := by
  intro s a p f hlegal
  refine ⟨fun payload hall hlen h => tone_badField hlegal ⟨hall, hlen⟩ h, fun ha hp hf => ?_, fun h hlen => ?_⟩
  · exact LegalFrame.answers hlegal rfl ⟨rfl, rfl, ha, hp, hf, rfl⟩
  · rw [← joinFields_three] at hlen ⊢
    exact tone_badField hlegal ⟨all_payloadByte_joinFields _, hlen⟩ (tone_out_of_bounds h)

/-! ### The DRG frames -/

/-- Settles O55: words and rates below their bounds make a legal frame, whatever the ramp (43_framer_parser.md
R222). -/
theorem rampFramesAreRead : Obligations.RampFramesAreRead := by
  intro s p hlegal
  refine ⟨LegalFrame.answers hlegal rfl ⟨rfl, rfl, rfl⟩, LegalFrame.answers hlegal rfl ⟨rfl, rfl, rfl⟩, ?_⟩
  intro k ws we wd wi rn rp hk hwords hrn hrp
  have hbound : rampWordBound p = k := by rcases hk with ⟨rfl, rfl⟩ | ⟨rfl, rfl⟩ | ⟨rfl, rfl⟩ <;> rfl
  have hlt : ws < k ∧ we < k ∧ wd < k ∧ wi < k := by simpa using hwords
  have hbounds : List.Forall₂ (· < ·) [ws, we, wd, wi, rn, rp] (rampBounds p) := by
    rw [forall₂_rampBounds, hbound]
    tauto
  exact LegalFrame.answers hlegal rfl ⟨rfl, rfl, hbounds, (rampParamsPayload_eq _ p ws we wd wi rn rp).symm⟩

theorem interpretRampSetup_badField (c : CodeTable) {p : List Byte} (off : Nat) (h : p.length ≠ 1) :
    interpretRampSetup c p off = badField off := by
  unfold interpretRampSetup
  split
  · exact absurd rfl h
  · rfl

theorem interpretRampSetup_parameter {c : CodeTable} {b : Byte} (off : Nat)
    (h : b ∉ [c.frequency, c.phase, c.amplitude]) :
    interpretRampSetup c [b] off = .raise (.unsupportedParameter .rampParameter) := by
  simp only [interpretRampSetup, paramOfCode_eq_none h]

theorem interpretRampParams_parameter {c : CodeTable} {b : Byte} (rest : List Byte) (off : Nat)
    (h : b ∉ [c.frequency, c.phase, c.amplitude]) :
    interpretRampParams c (b :: rest) off = .raise (.unsupportedParameter .rampParameter) := by
  simp only [interpretRampParams, paramOfCode_eq_none h]

theorem interpretRampParams_badField {c : CodeTable} (hinj : c.injective = true) (p : RampParameter)
    {rest : List Byte} (off : Nat) (h : ¬ ∃ ns, List.Forall₂ (· < ·) ns (rampBounds p) ∧ rest = joinFields ns) :
    interpretRampParams c (paramCode c p :: rest) off = badField off := by
  have hfields := fields_eq_none h
  rw [rampBounds_eq] at hfields
  simp only [interpretRampParams, paramOfCode_paramCode hinj, hfields]

/-- The answer to a ramp-setup frame, for the bytes after the sub-opcode. -/
theorem rampSetup_raises {s : State} (hlegal : s.cfg.legal = true) {rest : List Byte} {e : Err}
    (hall : rest.all payloadByte = true) (hlen : rest.length ≤ 63)
    (h : interpretRampSetup s.cfg.codes rest (3 + rest.length) = .raise e) :
    Answers (.frameDdsRampSetup (rest ++ [0x21])) s (.err e) := by
  obtain ⟨hsub, -, -⟩ := payloadByte_subopcodes hlegal
  obtain ⟨hsetup, -⟩ := interpretDrg_rows hlegal rest (3 + rest.length)
  exact drg_raises_after_sub hlegal hsub hall hlen rfl (hsetup.trans h)

/-- The answer to a ramp-parameters frame, for the bytes after the sub-opcode. -/
theorem rampParams_raises {s : State} (hlegal : s.cfg.legal = true) {rest : List Byte} {e : Err}
    (hall : rest.all payloadByte = true) (hlen : rest.length ≤ 63)
    (h : interpretRampParams s.cfg.codes rest (3 + rest.length) = .raise e) :
    Answers (.frameDdsRampParams (rest ++ [0x21])) s (.err e) := by
  obtain ⟨-, hsub, -⟩ := payloadByte_subopcodes hlegal
  obtain ⟨-, hparams, -⟩ := interpretDrg_rows hlegal rest (3 + rest.length)
  exact drg_raises_after_sub hlegal hsub hall hlen rfl (hparams.trans h)

/-- Bytes after the disable sub-opcode are BAD_FIELD. -/
theorem rampDisable_badField {s : State} (hlegal : s.cfg.legal = true) {rest : List Byte}
    (hall : rest.all payloadByte = true) (hlen : rest.length ≤ 63) (hne : rest ≠ []) :
    Answers (.frameDdsRampDisable (rest ++ [0x21])) s (.err (.framingError .badField (3 + rest.length))) := by
  obtain ⟨-, -, hsub⟩ := payloadByte_subopcodes hlegal
  obtain ⟨-, -, hdisable⟩ := interpretDrg_rows hlegal rest (3 + rest.length)
  exact drg_raises_after_sub hlegal hsub hall hlen rfl (hdisable.trans (if_neg hne))

/-- Settles O56: the errors of stage 2 in the three DRG rows. -/
theorem rampFrameErrorsAreNamed : Obligations.RampFrameErrorsAreNamed := by
  intro s hlegal
  obtain ⟨hinj, -⟩ := Config.legal_codes hlegal
  refine ⟨?parameter, ?setup, fun rest hall hlen hne => rampDisable_badField hlegal hall hlen hne, ?missing, ?fields⟩
  case parameter =>
    intro b rest hb hall hlen hmem
    refine ⟨fun _ => ?_, ?_⟩
    · exact rampSetup_raises hlegal (rest := [b]) (by simp [hb]) (by simp) (interpretRampSetup_parameter _ hmem)
    · exact rampParams_raises hlegal (by simp [hb, hall]) (Nat.succ_le_succ hlen)
        (interpretRampParams_parameter rest _ hmem)
  case setup =>
    intro rest hall hlen hne
    exact rampSetup_raises hlegal hall hlen (interpretRampSetup_badField _ _ hne)
  case missing => exact rampParams_raises hlegal (rest := []) rfl (by decide) rfl
  case fields =>
    intro p rest hall hlen h
    have hoff : 4 + rest.length = 3 + (paramCode s.cfg.codes p :: rest).length := by rw [List.length_cons]; omega
    rw [hoff]
    exact rampParams_raises hlegal (by simp [payloadByte_paramCode hlegal, hall]) (Nat.succ_le_succ hlen)
      (interpretRampParams_badField hinj p _ h)

/-! ### Load and reset -/

/-- Bytes after a whole frame are TRAILING at its end (43_framer_parser.md R208). -/
theorem parseReply_trailing {cfg : Config} {dev opc : Byte} {payload : List Byte} (b : Byte) (rest : List Byte)
    (hlisted : listedOpcode cfg (some dev) opc = true) (h : TakenPayload cfg dev opc payload) :
    parseReply cfg (frameBytes dev opc payload ++ b :: rest) =
      .raise (.framingError .trailing (2 + payload.length + 1)) := by
  obtain ⟨p, htaking, hend, hframe⟩ := taking_payload h
  have hevent : (step1 cfg p terminator).2 = .frame dev opc payload (2 + payload.length) := by
    rw [step1_terminator hend, hframe]
  calc parseReply cfg (frameBytes dev opc payload ++ b :: rest)
      = parseFrom cfg .reset 0 ([dev, opc] ++ (payload ++ terminator :: b :: rest)) := by
        simp [parseReply, frameBytes]
    _ = parseFrom cfg (readingPayload cfg dev opc) 2 (payload ++ terminator :: b :: rest) :=
        parseFrom_append_of_taking _ (taking_header hlisted)
    _ = parseFrom cfg p (2 + payload.length) (terminator :: b :: rest) := parseFrom_append_of_taking _ htaking
    _ = .raise (.framingError .trailing (2 + payload.length + 1)) := by
        rw [parseFrom_cons_frame hevent, if_pos (by simp)]

/-- A load or reset frame with bytes after it is TRAILING at its end. -/
theorem loadReset_trailing {s : State} {i : Instr} {o : Byte} (hlegal : s.cfg.legal = true) (b : Byte)
    (rest : List Byte) (ho : o = s.cfg.codes.opLoad ∨ o = s.cfg.codes.opReset)
    (hi : exec i s = exec (.parse (frameBytes s.cfg.ddsInd o [] ++ b :: rest)) s) :
    Answers i s (.err (.framingError .trailing 3)) :=
  answers_of_parseReply_raise hi (parseReply_trailing b rest (listedOpcode_iff.mpr (.inr ⟨rfl, .inr (.inr ho)⟩))
    (.text (binaryPayload_dds hlegal o) (Nat.zero_le 64) rfl))

/-- A load or reset frame with a payload is BAD_FIELD at its terminator. -/
theorem loadReset_badField {s : State} (hlegal : s.cfg.legal = true) {o : Byte} {p : List Byte}
    (ho : o = s.cfg.codes.opLoad ∨ o = s.cfg.codes.opReset) (hne : p ≠ []) (hp : TextPayload p) :
    Answers (.parse ([s.cfg.ddsInd, o] ++ p ++ [0x21])) s (.err (.framingError .badField (2 + p.length))) := by
  obtain ⟨-, -, hload, hreset⟩ := interpretDds_rows hlegal p (2 + p.length)
  refine dds_raises hlegal (.inr (.inr ho)) hp rfl ?_
  rcases ho with rfl | rfl
  · exact hload.trans (if_neg hne)
  · exact hreset.trans (if_neg hne)

/-- A load or reset frame with a payload decodes to PARSE of its bytes: the byte in the terminator's place is none. -/
theorem decode_loadReset_payload {cfg : Config} (hlegal : cfg.legal = true) {o : Byte} {p : List Byte}
    (ho : o = cfg.codes.opLoad ∨ o = cfg.codes.opReset) (hne : p ≠ []) (hall : p.all payloadByte = true) :
    decode cfg (.wire ([cfg.ddsInd, o] ++ p ++ [0x21])) = .ok (.parse ([cfg.ddsInd, o] ++ p ++ [0x21])) := by
  obtain ⟨b, rest, rfl⟩ := List.exists_cons_of_ne_nil hne
  obtain ⟨hdev, -⟩ := Config.legal_headers hlegal
  obtain ⟨hb, -⟩ := payloadByte_iff.mp (List.all_eq_true.mp hall b (by simp))
  have hnone : decodeFrame cfg ([cfg.ddsInd, o] ++ b :: rest ++ [0x21]) = none :=
    (decodeFrame_dds hdev _).trans (decodeDdsFrame_payload hlegal ho hb)
  rw [decode, hnone, Option.getD_none]

/-- Settles O57: the legal frames are read; stage 1 finds bytes after them, stage 2 a payload. -/
theorem loadAndResetFramesAreRead : Obligations.LoadAndResetFramesAreRead := by
  intro s hlegal
  refine ⟨LegalFrame.answers hlegal rfl ⟨rfl, rfl, rfl⟩, LegalFrame.answers hlegal rfl ⟨rfl, rfl, rfl⟩,
    fun b rest => ⟨?_, ?_⟩, fun o p ho hne hall hlen => ⟨?_, ?_⟩⟩
  · exact loadReset_trailing hlegal b rest (.inl rfl) rfl
  · exact loadReset_trailing hlegal b rest (.inr rfl) rfl
  · exact decode_loadReset_payload hlegal ho hne hall
  · exact loadReset_badField hlegal ho hne ⟨hall, hlen⟩

/-! ### Headers that are no row -/

/-- A first byte that is no device is BAD_DEVICE (43_framer_parser.md R202). -/
theorem parseReply_badDevice {cfg : Config} {b : Byte} (rest : List Byte) (hdac : b ≠ dacInd) (hdds : b ≠ cfg.ddsInd) :
    parseReply cfg (b :: rest) = .raise (.framingError .badDevice 0) := by
  have hstep : step1 cfg .reset b = stageError .badDevice 0 b := if_neg (not_or.mpr ⟨hdac, hdds⟩)
  exact parseFrom_cons_error (congrArg Prod.snd hstep)

/-- After a device, an opcode that is not listed for it is BAD_OPCODE (43_framer_parser.md R203). -/
theorem parseReply_badOpcode {cfg : Config} {d o : Byte} (rest : List Byte) (hd : d = dacInd ∨ d = cfg.ddsInd)
    (ho : listedOpcode cfg (some d) o = false) :
    parseReply cfg (d :: o :: rest) = .raise (.framingError .badOpcode 1) := by
  have hdevice : step1 cfg .reset d = (⟨.expectOpcode, some d, none, [], false, 1⟩, .none) := if_pos hd
  have hopcode : step1 cfg ⟨.expectOpcode, some d, none, [], false, 1⟩ o = stageError .badOpcode 1 o :=
    if_neg (by simp [ho])
  rw [parseReply, parseFrom_cons_none (congrArg Prod.snd hdevice), hdevice]
  exact parseFrom_cons_error (congrArg Prod.snd hopcode)

theorem interpretDrg_badSubopcode {c : CodeTable} {b : Byte} (rest : List Byte) (off : Nat)
    (h : b ∉ [c.subSetup, c.subParams, c.subDisable]) :
    interpretDrg c (b :: rest) off = .raise (.framingError .badSubopcode off) := by
  simp_all [interpretDrg]

/-- Settles O59: stage 1 names the device and the opcode, stage 2 the sub-opcode. -/
theorem illegalHeadersAreNamed : Obligations.IllegalHeadersAreNamed := by
  intro s b o rest hlegal
  obtain ⟨hne, -⟩ := Config.legal_headers hlegal
  refine ⟨?device, ?dac, ?dds, ?missing, ?unlisted⟩
  case device => exact fun hdac hdds => answers_of_parseReply_raise rfl (parseReply_badDevice rest hdac hdds)
  case dac =>
    intro ho
    refine answers_of_parseReply_raise rfl (parseReply_badOpcode rest (.inl rfl) (Bool.eq_false_iff.mpr ?_))
    rw [ne_eq, listedOpcode_iff]
    rintro (⟨-, hlisted⟩ | ⟨hdev, -⟩)
    · exact ho (by simpa using hlisted)
    · exact hne hdev.symm
  case dds =>
    intro ho
    refine answers_of_parseReply_raise rfl (parseReply_badOpcode rest (.inr rfl) (Bool.eq_false_iff.mpr ?_))
    rw [ne_eq, listedOpcode_iff]
    rintro (⟨hdev, -⟩ | ⟨-, hlisted⟩)
    · exact hne hdev
    · exact ho (by simpa using hlisted)
  case missing => exact drg_raises hlegal .nil rfl rfl
  case unlisted =>
    intro hb hmem payload hall hlen
    exact drg_raises_after_sub hlegal hb hall hlen rfl (interpretDrg_badSubopcode payload _ hmem)

end Sys2Proof.Machine
end

section
/-!
SUPPORT. Rounding to binary64 is rounding to the nearest binary64 value, ties to even (40_codec.md R114): the rounding
among the multiples of its last place, then among all binary64 values. So a binary64 value rounds to itself.
-/

namespace Sys2Proof.Machine

open Sys2Proof

/-! ### Among the multiples of the last place -/

/-- Two multiples of a unit differ by a unit at least. -/
theorem unit_le_abs_sub {u : Rat} (hu : 0 < u) {m c : Int} (hne : m ≠ c) : u ≤ |m * u - c * u| := by
  have hunits : (1 : Rat) ≤ |(m : Rat) - c| := by exact_mod_cast Int.one_le_abs (sub_ne_zero.mpr hne)
  rw [← sub_mul, abs_mul, abs_of_pos hu]
  nlinarith

/-- No multiple of the last place is nearer than the rounding, and another is as near in a tie only: it is then next to
the rounding, which is even. -/
theorem RoundsTo.nearest_multiple {q : Rat} {c : Nat} {k : Int} (h : RoundsTo q c k) {m : Int} (hne : m ≠ c) :
    |(c : Rat) * 2 ^ k - q| ≤ |m * (2 : Rat) ^ k - q| ∧
      (|m * (2 : Rat) ^ k - q| = |(c : Rat) * 2 ^ k - q| →
        c % 2 = 0 ∧ |m * (2 : Rat) ^ k - c * 2 ^ k| = 2 ^ k) := by
  have hunit := unit_le_abs_sub (u := (2 : Rat) ^ k) (by positivity) hne
  have htriangle := abs_sub_le (m * (2 : Rat) ^ k) q (c * 2 ^ k)
  rw [abs_sub_comm q] at htriangle
  rw [Int.cast_natCast] at hunit
  have hnear := h.near
  refine ⟨by linarith, fun heq => ⟨h.even_of_tie (by linarith), by linarith⟩⟩

/-! ### Among the binary64 values -/

/-- From the bottom of a binade on, and everywhere at the finest last place, binary64 values are multiples of the last
place. -/
theorem IsBinary64.exists_multiple {y : Rat} (hy : IsBinary64 y) {k : Int}
    (hk : k = -1074 ∨ 2 ^ 52 * (2 : Rat) ^ k ≤ y) : ∃ m : Int, y = m * (2 : Rat) ^ k := by
  obtain ⟨c, l, hc, hl, -, habs⟩ := hy
  have hkl : k ≤ l := by
    rcases hk with rfl | hbinade
    · exact hl
    by_contra hlt
    have hc' : (c : Rat) < 2 ^ 53 := by exact_mod_cast hc
    have hstep : (2 : Rat) ^ (1 + l) ≤ 2 ^ k := zpow_le_zpow_right₀ one_le_two (by omega)
    rw [zpow_add₀ two_ne_zero, zpow_one] at hstep
    have hl0 : (0 : Rat) < 2 ^ l := by positivity
    have := le_abs_self y
    nlinarith
  have hscale : (2 : Rat) ^ l = 2 ^ (l - k).toNat * 2 ^ k := by
    rw [← two_zpow_of_nonneg (by omega), ← zpow_add₀ two_ne_zero, sub_add_cancel]
  rw [hscale, ← mul_assoc] at habs
  rcases eq_or_eq_neg_of_abs_eq habs with hy | hy
  · exact ⟨c * 2 ^ (l - k).toNat, by push_cast; exact hy⟩
  · exact ⟨-(c * 2 ^ (l - k).toNat), by push_cast; rw [neg_mul]; exact hy⟩

/-- A binary64 value is a multiple of the rounding's last place, or below the binade and farther away. -/
theorem RoundsTo.multiple_or_farther {q y : Rat} {c : Nat} {k : Int} (h : RoundsTo q c k) (hy : IsBinary64 y) :
    (∃ m : Int, y = m * (2 : Rat) ^ k) ∨ |(c : Rat) * 2 ^ k - q| < |y - q| := by
  rcases h.normal with hk | hbinade
  · exact .inl (hy.exists_multiple (.inl hk))
  rcases le_or_gt (2 ^ 52 * (2 : Rat) ^ k) y with hle | hlt
  · exact .inl (hy.exists_multiple (.inr hle))
  · right
    have hbottom : |(c : Rat) * 2 ^ k - q| ≤ |2 ^ 52 * (2 : Rat) ^ k - q| := by
      by_cases hne : (2 ^ 52 : Int) = c
      · rw [show (c : Rat) = 2 ^ 52 by exact_mod_cast hne.symm]
      · exact_mod_cast (h.nearest_multiple hne).1
    refine hbottom.trans_lt ?_
    rw [abs_of_nonpos (by linarith), abs_of_neg (by linarith)]
    linarith

/-- A rounding of `e + 1` bits at least, below the format's limit, has its last place `e` below that limit. -/
theorem lastPlace_add_lt {c e : Nat} {k l : Int} (he : 2 ^ e ≤ c) (hlt : (c : Rat) * 2 ^ k < 2 ^ l) : k + e < l := by
  have hle : (2 : Rat) ^ e ≤ c := by exact_mod_cast he
  refine (zpow_lt_zpow_iff_right₀ (one_lt_two (α := Rat))).mp (lt_of_le_of_lt ?_ hlt)
  rw [zpow_add₀ two_ne_zero, zpow_natCast, mul_comm]
  gcongr

/-- A rounding below the format's limit is a binary64 value; a significand that reached `2 ^ 53` starts the next
binade. -/
theorem RoundsTo.isBinary64 {q : Rat} {c : Nat} {k : Int} (h : RoundsTo q c k)
    (hlt : (c : Rat) * 2 ^ k < 2 ^ (1024 : Int)) : IsBinary64 (c * (2 : Rat) ^ k) := by
  have habs : |(c : Rat) * 2 ^ k| = c * 2 ^ k := abs_of_nonneg (mul_nonneg c.cast_nonneg (zpow_nonneg zero_le_two k))
  have hk := h.finest_le
  rcases h.le_binade.lt_or_eq with hc | rfl
  · have hplace : k ≠ -1074 → k + 52 < 1024 := fun hne => lastPlace_add_lt (e := 52) (h.normal_le hne) hlt
    exact ⟨c, k, hc, hk, by omega, habs⟩
  · have hplace : k + 53 < 1024 := lastPlace_add_lt (e := 53) le_rfl hlt
    refine ⟨2 ^ 52, k + 1, by norm_num, by omega, by omega, habs.trans ?_⟩
    rw [zpow_add_one₀ two_ne_zero]
    push_cast
    ring

/-! ### The rounding of every rational -/

/-- `x` is the binary64 value nearest to `q`, and of two that are equally near the one with the even significand. -/
def IsNearestEven (q x : Rat) : Prop :=
  IsBinary64 x ∧ (∀ y, IsBinary64 y → |x - q| ≤ |y - q|) ∧
    ∀ y, IsBinary64 y → y ≠ x → |y - q| = |x - q| →
      ∃ (c : Nat) (k : Int), c % 2 = 0 ∧ |x| = c * (2 : Rat) ^ k ∧ |y - x| = (2 : Rat) ^ k

theorem isBinary64_zero : IsBinary64 0 := ⟨0, 0, by norm_num, by norm_num, by norm_num, by simp⟩

theorem IsBinary64.neg {x : Rat} (h : IsBinary64 x) : IsBinary64 (-x) := by
  simpa only [IsBinary64, abs_neg] using h

/-- A binary64 value is its own rounding. -/
theorem IsBinary64.isNearestEven_self {x : Rat} (h : IsBinary64 x) : IsNearestEven x x := by
  refine ⟨h, fun y _ => by simp, fun y _ hne heq => absurd ?_ hne⟩
  simpa [sub_eq_zero] using heq

theorem RoundsTo.isNearestEven {q : Rat} {c : Nat} {k : Int} (h : RoundsTo q c k)
    (hx : IsBinary64 (c * (2 : Rat) ^ k)) : IsNearestEven q (c * (2 : Rat) ^ k) := by
  refine ⟨hx, fun y hy => ?_, fun y hy hne heq => ?_⟩
  · rcases h.multiple_or_farther hy with ⟨m, rfl⟩ | hfar
    · rcases eq_or_ne m c with rfl | hm
      · simp
      · exact (h.nearest_multiple hm).1
    · exact hfar.le
  · rcases h.multiple_or_farther hy with ⟨m, rfl⟩ | hfar
    · have hm : m ≠ c := by
        rintro rfl
        simp at hne
      obtain ⟨heven, hgap⟩ := (h.nearest_multiple hm).2 heq
      exact ⟨c, k, heven, abs_of_nonneg (by positivity), hgap⟩
    · exact absurd heq hfar.ne'

/-- The format is symmetric about zero. -/
theorem IsNearestEven.neg {q x : Rat} (h : IsNearestEven q x) : IsNearestEven (-q) (-x) := by
  obtain ⟨hx, hnear, htie⟩ := h
  have hflip : ∀ a b : Rat, |a - -b| = |-a - b| := fun a b => by rw [← abs_neg]; congr 1; ring
  refine ⟨hx.neg, fun y hy => ?_, fun y hy hne heq => ?_⟩
  · rw [hflip, hflip, neg_neg]
    exact hnear _ hy.neg
  · rw [hflip, hflip, neg_neg] at heq
    obtain ⟨c, k, heven, habs, hgap⟩ := htie _ hy.neg (fun hyx => hne (neg_eq_iff_eq_neg.mp hyx)) heq
    exact ⟨c, k, heven, by rwa [abs_neg], by rwa [hflip]⟩

theorem fl_isNearestEven {q x : Rat} (h : fl q = some x) : IsNearestEven q x := by
  have hpos : ∀ {q x : Rat}, 0 < q → fl q = some x → IsNearestEven q x := by
    intro q x hq h
    obtain ⟨c, k, hround, hfl⟩ := fl_of_pos hq
    rw [hfl] at h
    split at h
    next hlt =>
      cases h
      exact hround.isNearestEven (hround.isBinary64 hlt)
    next => cases h
  rcases lt_trichotomy q 0 with hq | rfl | hq
  · have hneg : fl (-q) = some (-x) := by rw [fl_neg, h]; rfl
    simpa using (hpos (neg_pos.mpr hq) hneg).neg
  · rw [fl_zero] at h
    cases h
    exact isBinary64_zero.isNearestEven_self
  · exact hpos hq h

/-- Settles O28, from the overflow threshold and the rounding among all binary64 values. -/
theorem roundsToNearestEven : Obligations.RoundsToNearestEven := fun q =>
  ⟨by simpa only [zpow_ofNat] using fl_eq_none_iff q, fun _ => fl_isNearestEven⟩

/-! ### Binary64 values round to themselves -/

/-- The binade of the largest binary64 values, in the units of `two_zpow_limit`. -/
theorem two_zpow_top : (2 : Rat) ^ (971 : Int) = 2 * 2 ^ (970 : Int) := by
  rw [← zpow_one_add₀ two_ne_zero]
  rfl

/-- In the top binade a significand stays in the format exactly when it has 53 bits. -/
theorem fl_top_ne_none_iff {x : Rat} {c : Nat} (h : |x| = c * (2 : Rat) ^ (971 : Int)) :
    fl x ≠ none ↔ c < 2 ^ 53 := by
  have hw : (0 : Rat) < 2 ^ (970 : Int) := by positivity
  rw [ne_eq, fl_eq_none_iff, not_le, h, two_zpow_limit, two_zpow_top]
  generalize (2 : Rat) ^ (970 : Int) = w at *
  rw [← mul_assoc, ← sub_one_mul, mul_lt_mul_iff_left₀ hw]
  constructor
  · intro hlt
    have hlt' : ((c * 2 + 1 : Nat) : Rat) < (2 ^ 54 : Nat) := by
      push_cast
      linarith
    have : c * 2 + 1 < 2 ^ 54 := by exact_mod_cast hlt'
    omega
  · intro hlt
    have : ((c + 1 : Nat) : Rat) ≤ (2 ^ 53 : Nat) := by exact_mod_cast hlt
    push_cast at this
    linarith

/-- The largest binary64 value is below the overflow threshold. -/
theorem IsBinary64.fl_ne_none {x : Rat} (h : IsBinary64 x) : fl x ≠ none := by
  obtain ⟨c, k, hc, -, hk, habs⟩ := h
  have htop : |(c : Rat) * 2 ^ (971 : Int)| = c * 2 ^ (971 : Int) := abs_of_nonneg (by positivity)
  have hle : |x| ≤ |(c : Rat) * 2 ^ (971 : Int)| := by
    rw [habs, htop]
    exact mul_le_mul_of_nonneg_left (zpow_le_zpow_right₀ one_le_two hk) c.cast_nonneg
  exact Option.ne_none_iff_exists'.mpr (fl_isSome_of_abs_le hle ((fl_top_ne_none_iff htop).mpr hc))

theorem IsBinary64.fl_self {x : Rat} (h : IsBinary64 x) : fl x = some x := by
  obtain ⟨y, hy⟩ := Option.ne_none_iff_exists'.mp h.fl_ne_none
  obtain ⟨-, hnear, -⟩ := fl_isNearestEven hy
  have hzero : |y - x| ≤ 0 := by simpa using hnear x h
  rw [hy, sub_eq_zero.mp (abs_nonpos_iff.mp hzero)]

theorem isBinary64_of_fl_eq_some {q x : Rat} (h : fl q = some x) : IsBinary64 x := (fl_isNearestEven h).1

/-- Doubling a binary64 value is exact, within the format. -/
theorem IsBinary64.two_mul {x : Rat} (h : IsBinary64 x) (hfl : fl (2 * x) ≠ none) : IsBinary64 (2 * x) := by
  obtain ⟨c, k, hc, hlo, hk, habs⟩ := h
  have habs2 : |2 * x| = 2 * (c * (2 : Rat) ^ k) := by rw [abs_mul, habs, abs_two]
  rcases hk.lt_or_eq with hk | rfl
  · refine ⟨c, k + 1, hc, by omega, by omega, habs2.trans ?_⟩
    rw [zpow_add_one₀ two_ne_zero]
    ring
  · have htop : |2 * x| = (2 * c : Nat) * (2 : Rat) ^ (971 : Int) := by
      rw [habs2, ← mul_assoc, Nat.cast_mul, Nat.cast_two]
    exact ⟨2 * c, 971, (fl_top_ne_none_iff htop).mp hfl, hlo, le_rfl, htop⟩

end Sys2Proof.Machine
end

section
/-!
SUPPORT. The quantizer: `codec` under EXACT (40_codec.md R113, R122), and the circular phase words (R118, 42_dds.md
R162).
-/

namespace Sys2Proof.Machine

open Sys2Proof

/-! ### `quantize` -/

/-- Floor, saturating at full scale, as one minimum (40_codec.md R113, R115). -/
theorem quantize_eq_min {f : Rat} (n : Nat) (h : f ≤ 1) : quantize f n = min (2 ^ n - 1) ⌊f * 2 ^ n⌋.toNat := by
  have hp : (0 : Rat) < 2 ^ n := by positivity
  have hfloor : ⌊f * 2 ^ n⌋ ≤ ((2 ^ n : Nat) : Int) := by
    rw [Int.floor_le_iff]
    push_cast
    nlinarith
  have hrat : (f * 2 ^ n).floor = ⌊f * 2 ^ n⌋ := rfl
  have hpos := Nat.two_pow_pos n
  unfold quantize
  simp only [hrat]
  split <;> omega

@[simp] theorem quantize_zero (n : Nat) : quantize 0 n = 0 := by simp [quantize_eq_min]

@[simp] theorem quantize_one (n : Nat) : quantize 1 n = 2 ^ n - 1 := by
  have hfloor : ⌊(1 : Rat) * 2 ^ n⌋ = ((2 ^ n : Nat) : Int) := by
    rw [one_mul, Int.floor_eq_iff]
    push_cast
    exact ⟨le_rfl, by linarith⟩
  rw [quantize_eq_min n le_rfl, hfloor, Int.toNat_natCast, min_eq_left (Nat.sub_le _ _)]

theorem quantize_half {n : Nat} (hn : 1 ≤ n) : quantize (1 / 2) n = 2 ^ (n - 1) := by
  have hdouble : 2 ^ n = 2 * 2 ^ (n - 1) := by rw [← pow_succ', Nat.sub_add_cancel hn]
  have hfloor : ⌊(1 / 2 : Rat) * 2 ^ n⌋ = ((2 ^ (n - 1) : Nat) : Int) := by
    have hcast : (2 : Rat) ^ n = 2 * 2 ^ (n - 1) := by exact_mod_cast hdouble
    rw [hcast, Int.floor_eq_iff]
    push_cast
    constructor <;> linarith
  have hpos := Nat.two_pow_pos (n - 1)
  rw [quantize_eq_min n (by norm_num), hfloor, Int.toNat_natCast]
  omega

theorem quantize_mono {f g : Rat} (n : Nat) (hfg : f ≤ g) (hg : g ≤ 1) : quantize f n ≤ quantize g n := by
  rw [quantize_eq_min n (hfg.trans hg), quantize_eq_min n hg]
  have : ⌊f * 2 ^ n⌋ ≤ ⌊g * 2 ^ n⌋ := Int.floor_le_floor (by gcongr)
  omega

/-- Below the saturated top cell the raw word is the floor (40_codec.md R122). -/
theorem quantize_eq_iff {f : Rat} {n k : Nat} (h0 : 0 ≤ f) (h1 : f ≤ 1) (hk : k < 2 ^ n - 1) :
    quantize f n = k ↔ (k : Rat) ≤ f * 2 ^ n ∧ f * 2 ^ n < k + 1 := by
  rw [quantize_eq_min n h1, Int.floor_toNat, ← Nat.floor_eq_iff (by positivity)]
  omega

/-- The greatest raw word, as a rational. -/
theorem cast_greatest (n : Nat) : ((2 ^ n - 1 : Nat) : Rat) = 2 ^ n - 1 := by
  rw [Nat.cast_sub Nat.one_le_two_pow, Nat.cast_pow, Nat.cast_two, Nat.cast_one]

/-- The raw word is at most one step below the fraction, and a whole step below it exactly at full scale. -/
theorem quantize_bracket {f : Rat} (n : Nat) (h0 : 0 ≤ f) (h1 : f ≤ 1) :
    (quantize f n : Rat) ≤ f * 2 ^ n ∧ f * 2 ^ n ≤ quantize f n + 1 ∧
      (f * 2 ^ n = quantize f n + 1 ↔ f = 1) := by
  have hp : (0 : Rat) < 2 ^ n := by positivity
  rcases h1.lt_or_eq with hlt | rfl
  · have hq : quantize f n = ⌊f * 2 ^ n⌋₊ := by
      have hfloor : ⌊f * 2 ^ n⌋₊ < 2 ^ n := by
        rw [Nat.floor_lt (by positivity)]
        push_cast
        nlinarith
      rw [quantize_eq_min n h1, Int.floor_toNat]
      omega
    have hup := Nat.lt_floor_add_one (f * 2 ^ n)
    rw [hq]
    exact ⟨Nat.floor_le (by positivity), hup.le, iff_of_false hup.ne hlt.ne⟩
  · rw [quantize_one, cast_greatest]
    simp

/-! ### The exact fraction -/

/-- The fraction of 40_codec.md R111 and R112 (`fraction_eq_exactFraction`). -/
def exactFraction (v fs : Rat) (bip : Bool) : Rat := if bip then (v + fs) / (2 * fs) else v / fs

theorem fraction_eq_exactFraction (v fs : Rat) (bip : Bool) :
    fraction .exact v fs bip = some (exactFraction v fs bip) := fraction_exact v fs bip

/-- The fraction measures the value from the lower end, in steps of the quantizer (00_scope.md R18). -/
theorem exactFraction_scale {fs : Rat} (hfs : 0 < fs) (v : Rat) (n : Nat) (bip : Bool) :
    lowerEnd fs bip + exactFraction v fs bip * 2 ^ n * quantStep fs n bip = v := by
  cases bip
  · simp only [lowerEnd, exactFraction, quantStep, Bool.false_eq_true, if_false]
    field_simp
    ring
  · simp only [lowerEnd, exactFraction, quantStep, if_true]
    field_simp
    ring

theorem exactFraction_mono {v w fs : Rat} (hfs : 0 < fs) (h : v ≤ w) (bip : Bool) :
    exactFraction v fs bip ≤ exactFraction w fs bip := by
  cases bip <;> simp only [exactFraction, Bool.false_eq_true, if_false, if_true] <;> gcongr

theorem exactFraction_lowerEnd (fs : Rat) (bip : Bool) : exactFraction (lowerEnd fs bip) fs bip = 0 := by
  cases bip <;> simp [exactFraction, lowerEnd]

theorem exactFraction_eq_one_iff {v fs : Rat} (hfs : 0 < fs) (bip : Bool) : exactFraction v fs bip = 1 ↔ v = fs := by
  cases bip
  · simp only [exactFraction, Bool.false_eq_true, if_false]
    exact div_eq_one_iff_eq hfs.ne'
  · simp only [exactFraction, if_true]
    rw [div_eq_one_iff_eq (by positivity)]
    constructor <;> intro <;> linarith

theorem exactFraction_bounds {v fs : Rat} {bip : Bool} (hfs : 0 < fs) (hlo : lowerEnd fs bip ≤ v) (hle : v ≤ fs) :
    0 ≤ exactFraction v fs bip ∧ exactFraction v fs bip ≤ 1 :=
  ⟨(exactFraction_lowerEnd fs bip).symm.trans_le (exactFraction_mono hfs hlo bip),
    (exactFraction_mono hfs hle bip).trans_eq ((exactFraction_eq_one_iff hfs bip).mpr rfl)⟩

theorem rawWord_eq_quantize {m : Numerics} {v fs f : Rat} {bip : Bool} (n : Nat) (h : fraction m v fs bip = some f) :
    rawWord m v fs n bip = quantize f n := by
  simp only [rawWord, h]

@[simp] theorem rawWord_exact (v fs : Rat) (n : Nat) (bip : Bool) :
    rawWord .exact v fs n bip = quantize (exactFraction v fs bip) n :=
  rawWord_eq_quantize n (fraction_eq_exactFraction v fs bip)

/-! ### The laws of `codec` -/

/-- Inside its precondition `codec` is the raw word, left-justified. -/
theorem codec_eq {m : Numerics} {v fs : Rat} {n t : Nat} {bip : Bool} (hwidths : legalWidths n t = true)
    (hfs : 0 < fs) (hlo : lowerEnd fs bip ≤ v) (hle : v ≤ fs) :
    codec m v fs n t bip = some (rawWord m v fs n bip * 2 ^ (t - n)) :=
  codec_eq_some_iff.mpr ⟨codecPre_iff.mpr ⟨hwidths, hfs, hlo, hle⟩, rfl⟩

theorem lowerEnd_le {fs : Rat} (hfs : 0 < fs) (bip : Bool) : lowerEnd fs bip ≤ fs := by
  cases bip <;> simp only [lowerEnd, Bool.false_eq_true, if_false, if_true] <;> linarith

/-- Settles O26: `codec` is the quantized exact fraction, which the laws of `quantize` describe. -/
theorem codecLaws : Obligations.CodecLaws := by
  intro fs n t bip hn hnt ht hfs
  have hwidths := legalWidths_iff.mpr ⟨hn, hnt, ht⟩
  refine ⟨fun v hlo hle => ?range, fun v1 v2 w1 w2 h12 h1 h2 => ?monotone, ?lower, ?full⟩
  case range =>
    obtain ⟨h0, h1⟩ := exactFraction_bounds hfs hlo hle
    refine ⟨_, codec_eq hwidths hfs hlo hle, Nat.le_sub_one_of_lt (rawWord_lt n hfs hle), fun k hk => ?_⟩
    rw [rawWord_exact]
    exact quantize_eq_iff h0 h1 hk
  case monotone =>
    obtain ⟨-, rfl⟩ := codec_eq_some_iff.mp h1
    obtain ⟨hpre, rfl⟩ := codec_eq_some_iff.mp h2
    obtain ⟨-, -, hlo, hle⟩ := codecPre_iff.mp hpre
    rw [rawWord_exact, rawWord_exact]
    exact Nat.mul_le_mul_right _
      (quantize_mono n (exactFraction_mono hfs h12 bip) (exactFraction_bounds hfs hlo hle).2)
  case lower =>
    refine (codec_eq hwidths hfs le_rfl (lowerEnd_le hfs bip)).trans ?_
    rw [rawWord_exact, exactFraction_lowerEnd, quantize_zero, Nat.zero_mul]
  case full =>
    rw [codec_eq hwidths hfs (lowerEnd_le hfs bip) le_rfl, rawWord_exact,
      (exactFraction_eq_one_iff hfs bip).mpr rfl, quantize_one]

/-! ### Circular phases -/

/-- The part of a phase within its turn, before rounding (40_codec.md R118). -/
def turnPart (p : Rat) : Rat := p - 360 * (⌊p / 360⌋ : Rat)

theorem turnPart_bounds (p : Rat) : 0 ≤ turnPart p ∧ turnPart p < 360 := by
  have hlo := Int.floor_le (p / 360)
  have hhi := Int.lt_floor_add_one (p / 360)
  unfold turnPart
  constructor <;> linarith

/-- Whole turns do not change the part within the turn. -/
theorem turnPart_add_turns (p : Rat) (k : Int) : turnPart (p + 360 * k) = turnPart p := by
  have hdiv : (p + 360 * k) / 360 = p / 360 + k := by ring
  simp only [turnPart, hdiv, Int.floor_add_intCast]
  push_cast
  ring

/-- The reduced phase is the part within the turn rounded once, with 360 taken as 0. -/
theorem red360_eq (m : Numerics) (p : Rat) :
    ∃ x, rnd m (turnPart p) = some x ∧ red360 m p = if x = 360 then 0 else x := by
  obtain ⟨h0, h1⟩ := turnPart_bounds p
  have h360 : rnd m 360 = some 360 := by cases m <;> decide +kernel
  obtain ⟨x, hx⟩ := rnd_isSome_of_abs_le (abs_le_abs_of_nonneg h0 h1.le) h360
  refine ⟨x, hx, ?_⟩
  have hfloor : p - 360 * ((p / 360).floor : Rat) = turnPart p := rfl
  simp only [red360, hfloor, hx]

theorem red360_exact (p : Rat) : red360 .exact p = turnPart p := by
  obtain ⟨x, hx, hred⟩ := red360_eq .exact p
  cases hx
  rw [hred, if_neg (turnPart_bounds p).2.ne]

theorem red360_ne_360 (m : Numerics) (p : Rat) : red360 m p ≠ 360 := by
  obtain ⟨x, -, hred⟩ := red360_eq m p
  rw [hred]
  split
  · norm_num
  · assumption

/-- Whole turns reduce to 0 under either arithmetic. -/
theorem red360_turns (m : Numerics) (k : Int) : red360 m (360 * k) = 0 := by
  obtain ⟨x, hx, hred⟩ := red360_eq m (360 * k)
  have hturn : turnPart (360 * k) = 0 := by
    simp [turnPart]
  rw [hturn, rnd_zero] at hx
  cases hx
  rw [hred, if_neg (by norm_num)]

/-- The phase word is the 16-bit raw word of the reduced phase (42_dds.md R162). -/
theorem pow_eq (m : Numerics) (p : Rat) : pow m p = some (rawWord m (red360 m p) 360 16 false) := by
  obtain ⟨h0, h1⟩ := red360_bounds m p
  rw [pow, phaseBits, codec_eq rfl (by norm_num) h0 h1, Nat.sub_self, pow_zero, Nat.mul_one]

/-- A zero phase encodes as 0 under either arithmetic. -/
theorem rawWord_zero_unipolar (m : Numerics) (fs : Rat) (n : Nat) : rawWord m 0 fs n false = 0 := by
  rw [rawWord_eq_quantize n (f := 0) (by rw [fraction_unipolar, zero_div, rnd_zero]), quantize_zero]

/-- Under EXACT a reduced phase is below full scale, so that its word never saturates. -/
theorem pow_exact (p : Rat) : pow .exact p = some ⌊turnPart p / 360 * 65536⌋.toNat := by
  obtain ⟨-, hlt⟩ := turnPart_bounds p
  have hone : turnPart p / 360 < 1 := (div_lt_one (by norm_num)).mpr hlt
  have hfloor : ⌊turnPart p / 360 * 2 ^ 16⌋ < 2 ^ 16 := by
    rw [Int.floor_lt]
    push_cast
    nlinarith
  have h16 : (2 : Rat) ^ 16 = 65536 := by norm_num
  rw [pow_eq, rawWord_exact, red360_exact]
  simp only [exactFraction, Bool.false_eq_true, if_false]
  rw [quantize_eq_min 16 hone.le, ← h16]
  congr 1
  omega

/-- Settles O35, from the part of a phase within its turn. -/
theorem phaseWordIsCircular : Obligations.PhaseWordIsCircular := by
  refine ⟨red360_exact, red360_eq .binary64, fun m p => ?bounds, fun m k => ?turns, fun p => ?word,
    fun p k => ?circular⟩
  case bounds =>
    obtain ⟨h0, h1⟩ := red360_bounds m p
    exact ⟨h0, h1.lt_of_ne (red360_ne_360 m p)⟩
  case turns => rw [pow_eq, red360_turns, rawWord_zero_unipolar]
  case word =>
    have hpart : p / 360 - (⌊p / 360⌋ : Rat) = turnPart p / 360 := by
      unfold turnPart
      ring
    rw [pow_exact, hpart]
  case circular => rw [pow_exact, pow_exact, turnPart_add_turns]

end Sys2Proof.Machine
end

section
/-!
SUPPORT. No request evaluates `codec` outside its precondition (40_codec.md R117), in any configuration and from any
parser state: the parser's only fault is a missing row.
-/

namespace Sys2Proof.Machine

open Sys2Proof

/-! ### Replies without the fault of `codec` -/

/-- The reply is not the fault of a `codec` outside its precondition (93 I6); it may be another fault. -/
def Reply.CodecSafe {α : Type} (r : Reply α) : Prop := r ≠ .fault .codecPrecondition

theorem Reply.Completes.codecSafe {α : Type} {r : Reply α} (h : r.Completes) : r.CodecSafe := h _

theorem Reply.CodecSafe.map {α β : Type} {r : Reply α} (h : r.CodecSafe) (f : α → β) : (r.map f).CodecSafe :=
  fun hx => h (Reply.map_eq_fault.mp hx)

theorem noFrameRow_codecSafe {α : Type} : (Reply.fault .noFrameRow : Reply α).CodecSafe := nofun

theorem interpretDac_codecSafe (cfg : Config) (o : Byte) (p : List Byte) (off : Nat) :
    (interpretDac cfg o p off).CodecSafe := by
  unfold interpretDac
  split
  · exact (interpretDacInit_completes _ p off).codecSafe
  · split
    · split
      · exact (interpretDacWriteText_completes _ p off).codecSafe
      · by_cases hlen : p.length = 3
        · exact (interpretDacWriteBinary_completes _ off hlen).codecSafe
        · unfold interpretDacWriteBinary
          split
          · exact absurd rfl hlen
          · exact noFrameRow_codecSafe
    · exact noFrameRow_codecSafe

theorem interpretDds_codecSafe (c : CodeTable) (o : Byte) (p : List Byte) (off : Nat) :
    (interpretDds c o p off).CodecSafe := by
  by_cases ho : o = c.opTone ∨ o = c.opDrg ∨ o = c.opLoad ∨ o = c.opReset
  · exact (interpretDds_completes p off ho).codecSafe
  · simp only [not_or] at ho
    simp only [interpretDds, ho, if_false]
    exact noFrameRow_codecSafe

/-- Stage 2 evaluates no `codec`: its one fault is a missing row. -/
theorem interpret_codecSafe (cfg : Config) (d o : Byte) (p : List Byte) (off : Nat) :
    (interpret cfg d o p off).CodecSafe := by
  refine Reply.CodecSafe.map ?_ _
  unfold interpretDecoded
  split
  · exact interpretDac_codecSafe cfg o p off
  · split
    · exact interpretDds_codecSafe _ o p off
    · exact noFrameRow_codecSafe

theorem parseFrom_codecSafe (cfg : Config) (p : Parser) (i : Nat) (bytes : List Byte) :
    (parseFrom cfg p i bytes).CodecSafe := by
  induction bytes generalizing p i with
  | nil => exact nofun
  | cons b rest ih =>
    cases hev : (step1 cfg p b).2 with
    | none =>
      rw [parseFrom_cons_none hev]
      exact ih _ _
    | error r off =>
      rw [parseFrom_cons_error hev]
      exact nofun
    | frame d o payload off =>
      rw [parseFrom_cons_frame hev]
      split
      · exact nofun
      · exact interpret_codecSafe cfg d o payload off

theorem rxReply_codecSafe (cfg : Config) (ev : Event) : (rxReply cfg ev).CodecSafe := by
  cases ev with
  | none => exact nofun
  | error r off => exact nofun
  | frame d o payload off => exact (interpret_codecSafe cfg d o payload off).map _

/-- An ending whose reply is not that fault does not end in it. -/
theorem finish_ne_codecPrecondition {r : Reply Value} (h : r.CodecSafe) (s : State) :
    finish r s ≠ .fault .codecPrecondition := fun hx => h (finish_eq_fault.mp hx)

theorem finishEmit_ne_codecPrecondition {r : Reply (List Byte)} (h : r.CodecSafe) (s : State) :
    finishEmit r s ≠ .fault .codecPrecondition := fun hx => h (finishEmit_eq_fault.mp hx)

/-- Every ending evaluates `codec` inside its precondition, in any configuration and from any parser state. -/
theorem ending_ne_codecPrecondition (i : Instr) (s : State) :
    (ending s.cfg i).run s ≠ .fault .codecPrecondition := by
  cases i with
  | codecEncode value fs n t bip =>
    exact finish_ne_codecPrecondition ((encodeReply_completes _ value fs n t bip).codecSafe.map _) s
  | codecDecode word fs n t bip =>
    exact finish_ne_codecPrecondition ((decodeReply_completes _ word fs n t bip).codecSafe.map _) s
  | dacInit gain polarity => exact finishEmit_ne_codecPrecondition (dacInitReply_completes _ gain polarity).codecSafe s
  | dacWrite address voltage ref gain polarity =>
    exact finishEmit_ne_codecPrecondition (dacWriteReply_completes _ address voltage ref gain polarity).codecSafe s
  | ddsTone amp ampRef phase freq sysclk =>
    exact finishEmit_ne_codecPrecondition (ddsToneReply_completes _ amp ampRef phase freq sysclk).codecSafe s
  | ddsRamp param start stop dec inc negRate posRate ref =>
    exact finishEmit_ne_codecPrecondition
      (ddsRampReply_completes _ param start stop dec inc negRate posRate ref).codecSafe s
  | ddsLoad | ddsReset | ddsRampoff => exact finishEmit_ne_codecPrecondition (Reply.Completes.ok _).codecSafe s
  | frame dev opc payload =>
    exact finish_ne_codecPrecondition ((frameReply_completes _ dev opc payload).codecSafe.map _) s
  | rx b => exact finish_ne_codecPrecondition (rxReply_codecSafe _ _) _
  | parse | frameDacInit | frameDacWriteText | frameDacWriteBinary | frameDdsTone | frameDdsRampSetup
  | frameDdsRampParams | frameDdsRampDisable | frameDdsLoad | frameDdsReset =>
    exact finish_ne_codecPrecondition ((parseFrom_codecSafe _ _ _ _).map _) s

/-- Settles O13: `codec` has its value where the model checks R117, and no reply asks for it elsewhere. -/
theorem codecNeverOutsidePrecondition : Obligations.CodecNeverOutsidePrecondition := by
  refine ⟨fun m v fs n t bip => ?_, fun s i hfault => ?_⟩
  · have hsome : (codec m v fs n t bip).isSome = true ↔ codecPre v fs n t bip = true := by
      simp [Option.isSome_iff_exists, codec_eq_some_iff]
    simp only [hsome, codecPre_iff, legalWidths_iff, and_assoc, lowerEnd]
  · rw [exec_eq_ending] at hfault
    exact ending_ne_codecPrecondition i s (withNumbers_eq_fault.mp hfault).2

end Sys2Proof.Machine
end

section
/-!
SUPPORT. ENCODE and DECODE (40_codec.md R120, R121): which check raises, what they answer past their checks, the corner
cases under either arithmetic, and the round trip under EXACT.
-/

namespace Sys2Proof.Machine

open Sys2Proof

/-! ### Operands -/

/-- An operand stands for a number of its arithmetic: rounding leaves it. -/
theorem rnd_self_of_finite? {m : Numerics} {x : Quantity} {q : Rat} (h : finite? m x = some q) : rnd m q = some q := by
  cases m with
  | exact => rfl
  | binary64 =>
    cases x with
    | real r => exact (isBinary64_of_fl_eq_some h).fl_self
    | inf b => cases h
    | nan => cases h

/-- Doubling a number of the arithmetic is exact, within the format. -/
theorem rnd_two_mul {m : Numerics} {q k : Rat} (hq : rnd m q = some q) (h : rnd m (2 * q) = some k) : k = 2 * q := by
  cases m with
  | exact => exact (Option.some.inj h).symm
  | binary64 =>
    have hne : fl (2 * q) ≠ none := Option.ne_none_iff_exists'.mpr ⟨k, h⟩
    have hself := ((isBinary64_of_fl_eq_some hq).two_mul hne).fl_self
    exact Option.some.inj (h.symm.trans hself)

theorem rnd_neg {m : Numerics} {q x : Rat} (h : rnd m q = some x) : rnd m (-q) = some (-x) := by
  cases m with
  | exact =>
    cases h
    rfl
  | binary64 =>
    rw [rnd_binary64] at h
    rw [rnd_binary64, fl_neg, h]
    rfl

theorem rnd_half (m : Numerics) : rnd m (1 / 2) = some (1 / 2) := by cases m <;> decide +kernel

theorem expressible_binary64 (x : Quantity) : x.expressible .binary64 = true := by cases x <;> rfl

theorem widths?_eq_some_iff {m : Numerics} {n t : Quantity} {n' t' : Nat} :
    widths? m n t = some (n', t') ↔
      natural? m n = some n' ∧ natural? m t = some t' ∧ legalWidths n' t' = true := by
  constructor
  · intro h
    have hlegal := legalWidths_of_widths? h
    unfold widths? at h
    split at h
    · split at h
      · cases h
        exact ⟨‹_›, ‹_›, hlegal⟩
      · cases h
    · cases h
  · rintro ⟨hn, ht, hlegal⟩
    simp only [widths?, hn, ht, hlegal, if_true]

/-- Operands that are no legal widths. -/
theorem widths?_eq_none {m : Numerics} {n t : Quantity}
    (h : ¬ ∃ n' t', natural? m n = some n' ∧ natural? m t = some t' ∧ 1 ≤ n' ∧ n' ≤ t' ∧ t' ≤ 32) :
    widths? m n t = none := by
  cases hw : widths? m n t with
  | none => rfl
  | some w =>
    obtain ⟨hn, ht, hlegal⟩ := widths?_eq_some_iff.mp hw
    exact absurd ⟨w.1, w.2, hn, ht, legalWidths_iff.mp hlegal⟩ h

theorem widths?_of_legal {m : Numerics} {n t : Quantity} {n' t' : Nat} (hn : natural? m n = some n')
    (ht : natural? m t = some t') (h1 : 1 ≤ n') (hnt : n' ≤ t') (h32 : t' ≤ 32) : widths? m n t = some (n', t') :=
  widths?_eq_some_iff.mpr ⟨hn, ht, legalWidths_iff.mpr ⟨h1, hnt, h32⟩⟩

/-! ### Answers from replies -/

theorem answers_ok {i : Instr} {s : State} {v : Value} (hx : i.numbers.all (Quantity.expressible s.cfg.numerics) = true)
    (h : ending s.cfg i = .returns (.ok v)) : Answers i s (.ok v) := by
  rw [Answers, exec_eq_ending, withNumbers_of_expressible _ hx, h]
  rfl

theorem answers_err {i : Instr} {s : State} {e : Err} (hx : i.numbers.all (Quantity.expressible s.cfg.numerics) = true)
    (h : ending s.cfg i = .returns (.raise e)) : Answers i s (.err e) := by
  rw [Answers, exec_eq_ending, withNumbers_of_expressible _ hx, h]
  rfl

section encode

variable {s : State} {value fs n t : Quantity} {bip : Bool} {v f : Rat} {n' t' : Nat}

theorem answers_encode_word {w : FixedPointWord}
    (hx : [value, fs, n, t].all (Quantity.expressible s.cfg.numerics) = true)
    (h : encodeReply s.cfg value fs n t bip = .ok w) : Answers (.codecEncode value fs n t bip) s (.ok (.word w)) :=
  answers_ok hx (by rw [ending, h]; rfl)

theorem answers_encode_err {e : Err} (hx : [value, fs, n, t].all (Quantity.expressible s.cfg.numerics) = true)
    (h : encodeReply s.cfg value fs n t bip = .raise e) : Answers (.codecEncode value fs n t bip) s (.err e) :=
  answers_err hx (by rw [ending, h]; rfl)

/-! ### The checks of ENCODE, in order -/

theorem finites?_pair {m : Numerics} {x y : Quantity} {p q : Rat} (hx : finite? m x = some p)
    (hy : finite? m y = some q) : finites? m [x, y] = some [p, q] := by
  simp [finites?, hx, hy]

theorem encodeReply_nonfinite {cfg : Config}
    (h : finite? cfg.numerics value = none ∨ finite? cfg.numerics fs = none) :
    encodeReply cfg value fs n t bip = .raise (.outOfRange .nonfinite) := by
  have hnone : finites? cfg.numerics [value, fs] = none := by
    rcases h with h | h
    · simp [finites?, h]
    · cases finite? cfg.numerics value <;> simp [finites?, h]
  simp only [encodeReply, hnone]

theorem encodeReply_width {cfg : Config} (hv : finite? cfg.numerics value = some v)
    (hf : finite? cfg.numerics fs = some f) (hw : widths? cfg.numerics n t = none) :
    encodeReply cfg value fs n t bip = .raise (.outOfRange .width) := by
  simp only [encodeReply, finites?_pair hv hf, hw]

theorem encodeReply_reference {cfg : Config} (hv : finite? cfg.numerics value = some v)
    (hf : finite? cfg.numerics fs = some f) (hw : widths? cfg.numerics n t = some (n', t')) (hf0 : f ≤ 0) :
    encodeReply cfg value fs n t bip = .raise (.outOfRange .reference) := by
  simp only [encodeReply, finites?_pair hv hf, hw, not_lt.mpr hf0, not_false_iff, if_true]

theorem encodeReply_value {cfg : Config} (hv : finite? cfg.numerics value = some v)
    (hf : finite? cfg.numerics fs = some f) (hw : widths? cfg.numerics n t = some (n', t')) (hf0 : 0 < f)
    (hout : ¬ (lowerEnd f bip ≤ v ∧ v ≤ f)) :
    encodeReply cfg value fs n t bip = .raise (.outOfRange .value) := by
  simp only [encodeReply, finites?_pair hv hf, hw, hf0, hout, not_true, not_false_iff, if_true, if_false]

/-- The operands pass every check of ENCODE and stand for these numbers (40_codec.md R120). -/
structure EncodePasses (m : Numerics) (value fs n t : Quantity) (bip : Bool) (v f : Rat) (n' t' : Nat) : Prop where
  finite_value : finite? m value = some v
  finite_fs : finite? m fs = some f
  widths : widths? m n t = some (n', t')
  pos : 0 < f
  lower : lowerEnd f bip ≤ v
  upper : v ≤ f

/-- Past its checks ENCODE answers the word of `codec`. -/
theorem EncodePasses.answers (h : EncodePasses s.cfg.numerics value fs n t bip v f n' t')
    (hx : [value, fs, n, t].all (Quantity.expressible s.cfg.numerics) = true) :
    Answers (.codecEncode value fs n t bip) s
      (.ok (.word ⟨n', t', rawWord s.cfg.numerics v f n' bip * 2 ^ (t' - n')⟩)) := by
  obtain ⟨hv, hf, hw, hpos, hlo, hle⟩ := h
  refine answers_encode_word hx ?_
  simp only [encodeReply, finites?_pair hv hf, hw, hpos, hlo, hle, and_self, not_true, if_false,
    codec_eq (legalWidths_of_widths? hw) hpos hlo hle, withWord_some]

/-- The same, where the fraction is a number. -/
theorem EncodePasses.answers_quantize {q : Rat} (h : EncodePasses s.cfg.numerics value fs n t bip v f n' t')
    (hx : [value, fs, n, t].all (Quantity.expressible s.cfg.numerics) = true)
    (hq : fraction s.cfg.numerics v f bip = some q) :
    Answers (.codecEncode value fs n t bip) s (.ok (.word ⟨n', t', quantize q n' * 2 ^ (t' - n')⟩)) :=
  rawWord_eq_quantize n' hq ▸ h.answers hx

end encode

/-- The fraction where no operation leaves the format: exact, or rounded in the order of 40_codec.md R114. -/
theorem fraction_of_operations {m : Numerics} {v f q : Rat} {bip : Bool}
    (h : (m = .exact ∧ q = (if bip then (v + f) / (2 * f) else v / f)) ∨
      (m = .binary64 ∧ bip = false ∧ fl (v / f) = some q) ∨
      (m = .binary64 ∧ bip = true ∧
        ∃ t1 t2, fl (v + f) = some t1 ∧ fl (2 * f) = some t2 ∧ fl (t1 / t2) = some q)) :
    fraction m v f bip = some q := by
  rcases h with ⟨rfl, rfl⟩ | ⟨rfl, rfl, hq⟩ | ⟨rfl, rfl, t1, t2, h1, h2, hq⟩
  · exact fraction_exact v f bip
  · exact hq
  · exact (fraction_bipolar (m := .binary64) h1 h2).trans hq

/-- Settles O19, check by check; past them the fraction is quantized. -/
theorem encodeFollowsRule : Obligations.EncodeFollowsRule := by
  intro s value fs n t bip hx
  refine ⟨fun h => answers_encode_err hx (encodeReply_nonfinite h), fun v f hv hf => ⟨fun hw =>
    answers_encode_err hx (encodeReply_width hv hf (widths?_eq_none hw)), fun n' t' hn ht h1 hnt h32 => ?_⟩⟩
  have hw := widths?_of_legal hn ht h1 hnt h32
  refine ⟨fun hf0 => answers_encode_err hx (encodeReply_reference hv hf hw hf0), fun hf0 hout =>
    answers_encode_err hx (encodeReply_value hv hf hw hf0 hout), fun hf0 hlo hle q hq => ?_⟩
  have hfraction := fraction_of_operations hq
  rw [← quantize_eq_min n' (fraction_le_one hf0 hle hfraction)]
  exact EncodePasses.answers_quantize ⟨hv, hf, hw, hf0, hlo, hle⟩ hx hfraction

/-! ### The corner cases of ENCODE -/

/-- Full scale has the fraction 1, over an infinite scale too (40_codec.md R115, R120; log 18). -/
theorem fraction_fullScale {m : Numerics} {fs : Rat} (hself : rnd m fs = some fs) (hfs : 0 < fs) (bip : Bool) :
    fraction m fs fs bip = some 1 := by
  cases bip with
  | false => rw [fraction_unipolar, div_self hfs.ne', rnd_one]
  | true =>
    cases h2 : rnd m (2 * fs) with
    | none => simp [fraction_at_infinity h2, fractionAtInfinity]
    | some k =>
      have hk := rnd_two_mul hself h2
      rw [fraction_bipolar (two_mul fs ▸ h2) h2, hk, div_self (by positivity), rnd_one]

/-- The lower end has the fraction 0. -/
theorem fraction_lowerEnd (m : Numerics) {fs : Rat} (hfs : 0 < fs) (bip : Bool) :
    fraction m (lowerEnd fs bip) fs bip = some 0 := by
  cases bip with
  | false => simp [lowerEnd, rnd_zero]
  | true =>
    have hsum : rnd m (-fs + fs) = some 0 := by rw [neg_add_cancel, rnd_zero]
    change fraction m (-fs) fs true = some 0
    cases h2 : rnd m (2 * fs) with
    | none =>
      rw [fraction_at_infinity h2, hsum]
      simp [fractionAtInfinity, hfs.ne', (show -fs ≠ fs by linarith)]
    | some k => rw [fraction_bipolar hsum h2, zero_div, rnd_zero]

/-- The bipolar 0 has the fraction one half, over an infinite scale too (40_codec.md R120; log 18). -/
theorem fraction_midScale {m : Numerics} {fs : Rat} (hself : rnd m fs = some fs) (hfs : 0 < fs) :
    fraction m 0 fs true = some (1 / 2) := by
  cases h2 : rnd m (2 * fs) with
  | none => simp [fraction_at_infinity h2, fractionAtInfinity, hfs.ne]
  | some k =>
    have hsum : rnd m (0 + fs) = some fs := by rw [zero_add, hself]
    have hhalf : fs / (2 * fs) = 1 / 2 := by field_simp
    rw [fraction_bipolar hsum h2, rnd_two_mul hself h2, hhalf, rnd_half]

/-- Settles O20: the fractions 1, 0 and one half, quantized. -/
theorem encodeCornerCases : Obligations.EncodeCornerCases := by
  intro s value fs n t bip v f n' t' hx hv hf hf0 hn ht h1 hnt h32
  have hw := widths?_of_legal hn ht h1 hnt h32
  have hself := rnd_self_of_finite? hf
  refine ⟨?full, ?lower, ?mid⟩
  case full =>
    rintro rfl
    have hpass : EncodePasses s.cfg.numerics value fs n t bip v v n' t' :=
      ⟨hv, hf, hw, hf0, lowerEnd_le hf0 bip, le_rfl⟩
    simpa only [quantize_one] using hpass.answers_quantize hx (fraction_fullScale hself hf0 bip)
  case lower =>
    rintro rfl
    have hpass : EncodePasses s.cfg.numerics value fs n t bip (lowerEnd f bip) f n' t' :=
      ⟨hv, hf, hw, hf0, le_rfl, lowerEnd_le hf0 bip⟩
    simpa only [quantize_zero, Nat.zero_mul] using hpass.answers_quantize hx (fraction_lowerEnd _ hf0 bip)
  case mid =>
    rintro rfl rfl
    have hpass : EncodePasses s.cfg.numerics value fs n t true 0 f n' t' :=
      ⟨hv, hf, hw, hf0, neg_nonpos.mpr hf0.le, hf0.le⟩
    simpa only [quantize_half h1] using hpass.answers_quantize hx (fraction_midScale hself hf0)

/-- Settles O21: a finite sum over an infinite scale is 0 (log 18). -/
theorem encodeOverInfiniteScale : Obligations.EncodeOverInfiniteScale := by
  intro s value fs n t v f n' t' hm hv hf hf0 hlo hlt hv0 hn ht h1 hnt h32 hscale hsum
  rw [← hm] at hv hf hn ht
  have hx : [value, fs, n, t].all (Quantity.expressible s.cfg.numerics) = true := by
    simp [hm, expressible_binary64]
  have hpass : EncodePasses s.cfg.numerics value fs n t true v f n' t' :=
    ⟨hv, hf, widths?_of_legal hn ht h1 hnt h32, hf0, hlo, hlt.le⟩
  have hfraction : fraction s.cfg.numerics v f true = some 0 := by
    obtain ⟨t1, ht1⟩ := Option.ne_none_iff_exists'.mp hsum
    rw [hm, fraction_at_infinity (m := .binary64) hscale, rnd_binary64, ht1]
    simp [fractionAtInfinity, hlt.ne, hv0]
  simpa only [quantize_zero, Nat.zero_mul] using hpass.answers_quantize hx hfraction

/-! ### The checks of DECODE, in order -/

section decode

variable {s : State} {word fs n t : Quantity} {bip : Bool} {f : Rat} {w n' t' : Nat}

theorem answers_decode_number {x : Rat} (hx : [word, fs, n, t].all (Quantity.expressible s.cfg.numerics) = true)
    (h : decodeReply s.cfg word fs n t bip = .ok x) : Answers (.codecDecode word fs n t bip) s (.ok (.number x)) :=
  answers_ok hx (by rw [ending, h]; rfl)

theorem answers_decode_err {e : Err} (hx : [word, fs, n, t].all (Quantity.expressible s.cfg.numerics) = true)
    (h : decodeReply s.cfg word fs n t bip = .raise e) : Answers (.codecDecode word fs n t bip) s (.err e) :=
  answers_err hx (by rw [ending, h]; rfl)

theorem decodeReply_nonfinite {cfg : Config} (h : finite? cfg.numerics fs = none) :
    decodeReply cfg word fs n t bip = .raise (.outOfRange .nonfinite) := by
  simp only [decodeReply, h]

theorem decodeReply_width {cfg : Config} (hf : finite? cfg.numerics fs = some f)
    (hw : widths? cfg.numerics n t = none) : decodeReply cfg word fs n t bip = .raise (.outOfRange .width) := by
  simp only [decodeReply, hf, hw]

theorem decodeReply_reference {cfg : Config} (hf : finite? cfg.numerics fs = some f)
    (hw : widths? cfg.numerics n t = some (n', t')) (hf0 : f ≤ 0) :
    decodeReply cfg word fs n t bip = .raise (.outOfRange .reference) := by
  simp only [decodeReply, hf, hw, not_lt.mpr hf0, not_false_iff, if_true]

theorem decodeReply_value {cfg : Config} (hf : finite? cfg.numerics fs = some f)
    (hw : widths? cfg.numerics n t = some (n', t')) (hf0 : 0 < f)
    (hout : ¬ ∃ w, natural? cfg.numerics word = some w ∧ w < 2 ^ t') :
    decodeReply cfg word fs n t bip = .raise (.outOfRange .value) := by
  simp only [decodeReply, hf, hw, hf0, not_true, if_false]
  cases hword : natural? cfg.numerics word with
  | none => rfl
  | some w =>
    have hlarge : ¬ w < 2 ^ t' := fun hlt => hout ⟨w, hword, hlt⟩
    simp only [hlarge, not_false_iff, if_true]

/-- The operands pass every check of DECODE and stand for these numbers (40_codec.md R121). -/
structure DecodePasses (m : Numerics) (word fs n t : Quantity) (w : Nat) (f : Rat) (n' t' : Nat) : Prop where
  natural_word : natural? m word = some w
  finite_fs : finite? m fs = some f
  widths : widths? m n t = some (n', t')
  pos : 0 < f
  lt : w < 2 ^ t'

/-- Past its checks DECODE answers the number of the raw word. -/
theorem DecodePasses.answers (h : DecodePasses s.cfg.numerics word fs n t w f n' t')
    (hx : [word, fs, n, t].all (Quantity.expressible s.cfg.numerics) = true) :
    Answers (.codecDecode word fs n t bip) s
      (.ok (.number (decodedNumber s.cfg.numerics (w >>> (t' - n')) f n' bip))) := by
  obtain ⟨hword, hf, hw, hpos, hlt⟩ := h
  refine answers_decode_number hx ?_
  simp only [decodeReply, hf, hw, hpos, hword, hlt, not_true, if_false, Nat.shiftRight_eq_div_pow]

end decode

/-- Under EXACT a raw word decodes as 40_codec.md R121 gives it. -/
theorem decodedNumber_exact (raw : Nat) (fs : Rat) (n : Nat) (bip : Bool) :
    decodedNumber .exact raw fs n bip = if bip then raw * (2 * fs) / 2 ^ n - fs else raw * fs / 2 ^ n := by
  cases bip
  · exact decodedNumber_unipolar rfl rfl
  · exact decodedNumber_bipolar rfl rfl rfl rfl

/-- The lower edge of the raw word's cell: so many steps above the lower end. -/
theorem decodedNumber_exact_eq_steps (raw : Nat) (fs : Rat) (n : Nat) (bip : Bool) :
    decodedNumber .exact raw fs n bip = lowerEnd fs bip + raw * quantStep fs n bip := by
  rw [decodedNumber_exact]
  cases bip <;> simp only [lowerEnd, quantStep, Bool.false_eq_true, if_false, if_true] <;> ring

/-- Settles O24, check by check; past them the number of the raw word. -/
theorem decodeFollowsRule : Obligations.DecodeFollowsRule := by
  intro s word fs n t bip hx
  refine ⟨fun h => answers_decode_err hx (decodeReply_nonfinite h), fun f hf => ⟨fun hw =>
    answers_decode_err hx (decodeReply_width hf (widths?_eq_none hw)), fun n' t' hn ht h1 hnt h32 => ?_⟩⟩
  have hw := widths?_of_legal hn ht h1 hnt h32
  refine ⟨fun hf0 => answers_decode_err hx (decodeReply_reference hf hw hf0), fun hf0 hout =>
    answers_decode_err hx (decodeReply_value hf hw hf0 hout), fun w hf0 hword hlt => ?_⟩
  have hanswers := DecodePasses.answers (bip := bip) ⟨hword, hf, hw, hf0, hlt⟩ hx
  refine ⟨fun hm => ?exact, fun hm hbip p x h1 h2 => ?unipolar, fun hm hbip k p y x h1 h2 h3 h4 => ?bipolar⟩
  case exact => rwa [hm, decodedNumber_exact] at hanswers
  case unipolar =>
    subst hbip
    rwa [hm, decodedNumber_unipolar (m := .binary64) h1 h2] at hanswers
  case bipolar =>
    subst hbip
    rwa [hm, decodedNumber_bipolar (m := .binary64) h1 h2 h3 h4] at hanswers

/-! ### The corner cases of DECODE -/

/-- Where the product leaves the format, the reading of log 18 and the free value of log 12. -/
theorem decodedNumber_at_infinity {m : Numerics} {raw n : Nat} {fs : Rat} {bip : Bool}
    (h : ∀ k, (if bip then rnd m (2 * fs) else some fs) = some k → rnd m (raw * k) = none) :
    decodedNumber m raw fs n bip = decodedAtInfinity m raw fs n bip := by
  unfold decodedNumber
  cases hk : (if bip then rnd m (2 * fs) else some fs) with
  | none => rfl
  | some k => simp [h k hk]

/-- The least raw word decodes to the lower end, over an infinite scale too. -/
theorem decodedNumber_zero {m : Numerics} {fs : Rat} (hself : rnd m fs = some fs) (n : Nat) (bip : Bool) :
    decodedNumber m 0 fs n bip = lowerEnd fs bip := by
  have hprod : ∀ k : Rat, rnd m (((0 : Nat) : Rat) * k) = some 0 := fun k => by simp [rnd_zero]
  have hquot : rnd m ((0 : Rat) / 2 ^ n) = some 0 := by rw [zero_div, rnd_zero]
  cases bip with
  | false => exact decodedNumber_unipolar (hprod fs) hquot
  | true =>
    cases hk : rnd m (2 * fs) with
    | none => exact decodedNumber_at_infinity (by simp [hk])
    | some k =>
      have hlower : rnd m (0 - fs) = some (-fs) := by
        rw [zero_sub]
        exact rnd_neg hself
      exact decodedNumber_bipolar hk (hprod k) hquot hlower

/-- All the steps of the quantizer make the legal interval. -/
theorem lowerEnd_add_steps (fs : Rat) (n : Nat) (bip : Bool) :
    lowerEnd fs bip + 2 ^ n * quantStep fs n bip = fs := by
  cases bip
  · simp only [lowerEnd, quantStep, Bool.false_eq_true, if_false]
    field_simp
    ring
  · simp only [lowerEnd, quantStep, if_true]
    field_simp
    ring

theorem quantStep_pos {fs : Rat} (hfs : 0 < fs) (n : Nat) (bip : Bool) : 0 < quantStep fs n bip := by
  cases bip <;> simp only [quantStep, Bool.false_eq_true, if_false, if_true] <;> positivity

theorem quantStep_le {fs : Rat} {n : Nat} (hfs : 0 < fs) (hn : 1 ≤ n) (bip : Bool) : quantStep fs n bip ≤ fs := by
  have htwo : (2 : Rat) ≤ 2 ^ n := by
    calc (2 : Rat) = 2 ^ 1 := (pow_one 2).symm
      _ ≤ 2 ^ n := pow_le_pow_right₀ one_le_two hn
  cases bip <;> simp only [quantStep, Bool.false_eq_true, if_false, if_true] <;> rw [div_le_iff₀ (by positivity)] <;>
    nlinarith

/-- Where its product leaves the format, the greatest raw word decodes to full scale less one step, rounded once. -/
theorem decodedNumber_greatest_at_infinity {m : Numerics} {fs : Rat} {n : Nat} {bip : Bool}
    (hself : rnd m fs = some fs) (hfs : 0 < fs) (hn : 1 ≤ n)
    (h : rnd m (((2 ^ n - 1 : Nat) : Rat) * (if bip then 2 * fs else fs)) = none) :
    ∃ x, rnd m (fs - quantStep fs n bip) = some x ∧ decodedNumber m (2 ^ n - 1) fs n bip = x := by
  have hstep := quantStep_pos hfs n bip
  have hle := quantStep_le hfs hn bip
  obtain ⟨x, hx⟩ := rnd_isSome_of_abs_le (abs_le_abs_of_nonneg (by linarith) (by linarith)) hself
    (q := fs - quantStep fs n bip)
  have hscale : ∀ k, (if bip then rnd m (2 * fs) else some fs) = some k → k = if bip then 2 * fs else fs := by
    intro k hk
    cases bip with
    | false => exact (Option.some.inj hk).symm
    | true => exact rnd_two_mul hself hk
  have hne : 2 ^ n - 1 ≠ 0 := by
    have := Nat.one_lt_two_pow (Nat.one_le_iff_ne_zero.mp hn)
    omega
  refine ⟨x, hx, (decodedNumber_at_infinity fun k hk => hscale k hk ▸ h).trans ?_⟩
  simp [decodedAtInfinity, hne, hx]

/-- Settles O25, from the numbers of the least and the greatest raw word. -/
theorem decodeCornerCases : Obligations.DecodeCornerCases := by
  intro s word fs n t bip w f n' t' hx hword hlt hf hf0 hn ht h1 hnt h32
  have hself := rnd_self_of_finite? hf
  have hanswers := DecodePasses.answers (bip := bip) ⟨hword, hf, widths?_of_legal hn ht h1 hnt h32, hf0, hlt⟩ hx
  refine ⟨fun hleast => ?least, fun hgreatest => ⟨fun hm => ?exact, fun hm hover => ?overflow⟩⟩
  case least =>
    rwa [Nat.shiftRight_eq_div_pow, Nat.div_eq_of_lt hleast, decodedNumber_zero hself] at hanswers
  case exact =>
    have hnumber : decodedNumber .exact (2 ^ n' - 1) f n' bip = f - quantStep f n' bip := by
      rw [decodedNumber_exact_eq_steps, cast_greatest]
      linear_combination lowerEnd_add_steps f n' bip
    rwa [hgreatest, hm, hnumber] at hanswers
  case overflow =>
    rw [hm] at hself
    obtain ⟨x, hround, hnumber⟩ := decodedNumber_greatest_at_infinity (m := .binary64) hself hf0 h1 hover
    rw [hgreatest, hm, hnumber] at hanswers
    exact ⟨x, hround, hanswers⟩

/-! ### Every request past its checks answers, and the round trip -/

/-- Settles O22: past their checks the two requests answer, whatever the free values are. -/
theorem codecRequestsAlwaysAnswer : Obligations.CodecRequestsAlwaysAnswer := by
  intro s x fs n t bip f n' t' hx hf hf0 hn ht h1 hnt h32
  have hw := widths?_of_legal hn ht h1 hnt h32
  exact ⟨fun v hv hlo hle => ⟨_, rawWord_lt n' hf0 hle, EncodePasses.answers ⟨hv, hf, hw, hf0, hlo, hle⟩ hx⟩,
    fun w hword hlt => ⟨_, DecodePasses.answers ⟨hword, hf, hw, hf0, hlt⟩ hx⟩⟩

theorem natural?_exact_natCast (k : Nat) : natural? .exact (.real k) = some k := natural?_eq_some.mpr rfl

/-- Settles O27: value and decoded number are measured from the lower end in steps, by the exact fraction and by the raw
word just below it. -/
theorem roundTripWithinOneStep : Obligations.RoundTripWithinOneStep := by
  intro s v fs n t bip hm hn hnt ht hfs hlo hle
  have hwidths := legalWidths_iff.mpr ⟨hn, hnt, ht⟩
  have hw : widths? s.cfg.numerics (.real n) (.real t) = some (n, t) := by
    rw [hm]
    exact widths?_of_legal (natural?_exact_natCast n) (natural?_exact_natCast t) hn hnt ht
  have hfinite : ∀ q : Rat, finite? s.cfg.numerics (.real q) = some q := fun q => by rw [hm, finite?_exact]
  have hx : ∀ q : Rat, [.real q, .real fs, .real n, .real t].all (Quantity.expressible s.cfg.numerics) = true :=
    fun q => by rw [hm]; rfl
  have hencode := EncodePasses.answers (bip := bip) ⟨hfinite v, hfinite fs, hw, hfs, hlo, hle⟩ (hx v)
  obtain ⟨-, -, -, hlt, -⟩ := codec_leftJustified (codec_eq (m := s.cfg.numerics) hwidths hfs hlo hle)
  have hdecode := DecodePasses.answers (bip := bip)
    ⟨natural?_eq_some.mpr (hfinite _), hfinite fs, hw, hfs, hlt⟩ (hx _)
  rw [Nat.shiftRight_eq_div_pow, Nat.mul_div_cancel _ (Nat.two_pow_pos _)] at hdecode
  refine ⟨_, _, hencode, hdecode, ?_⟩
  obtain ⟨h0, h1⟩ := exactFraction_bounds hfs hlo hle
  obtain ⟨hbelow, habove, htop⟩ := quantize_bracket n h0 h1
  have hstep := quantStep_pos hfs n bip
  have hv := exactFraction_scale hfs v n bip
  rw [hm, rawWord_exact, decodedNumber_exact_eq_steps, ← exactFraction_eq_one_iff hfs bip, ← htop]
  change _ ∧ _ ≤ _ + quantStep fs n bip ∧ (_ = _ + quantStep fs n bip ↔ _)
  generalize quantize (exactFraction v fs bip) n = raw at *
  generalize exactFraction v fs bip * 2 ^ n = a at *
  generalize quantStep fs n bip = d at *
  subst hv
  refine ⟨by gcongr, ?_, ?_⟩
  · calc lowerEnd fs bip + a * d ≤ lowerEnd fs bip + (raw + 1) * d := by gcongr
      _ = lowerEnd fs bip + raw * d + d := by ring
  · rw [add_assoc, add_right_inj, ← add_one_mul, mul_left_inj' hstep.ne']

end Sys2Proof.Machine
end

section
/-!
SUPPORT. The DAC builders (41_dac.md R140 to R145): which check of DAC.INIT and DAC.WRITE raises, the frame past the
checks, and the bipolar word at its landmarks.
-/

namespace Sys2Proof.Machine

open Sys2Proof

/-! ### Codes in no row of 30_encoding.md R73 -/

theorem gain?_eq_none_iff {c : BitVec 2} : gain? c = none ↔ c = 3 := by
  revert c
  decide

theorem address?_eq_none_iff {c : BitVec 2} : address? c = none ↔ c = 3 := by
  revert c
  decide

theorem polarity?_eq_none_iff {c : BitVec 2} : polarity? c = none ↔ 2 ≤ c.toNat := by
  revert c
  decide

theorem gain?_of_ne {c : BitVec 2} (h : c ≠ 3) : ∃ g, gain? c = some g :=
  Option.ne_none_iff_exists'.mp (mt gain?_eq_none_iff.mp h)

theorem address?_of_ne {c : BitVec 2} (h : c ≠ 3) : ∃ a, address? c = some a :=
  Option.ne_none_iff_exists'.mp (mt address?_eq_none_iff.mp h)

/-! ### A builder's reply on the result port -/

/-- A builder that raises answers its error and emits nothing (60_exceptions.md R246). -/
theorem answers_of_emits_raise {i : Instr} {s : State} {e : Err}
    (hx : i.numbers.all (Quantity.expressible s.cfg.numerics) = true) (h : ending s.cfg i = .emits (.raise e)) :
    Answers i s (.err e) := by
  rw [Answers, exec_eq_ending, withNumbers_of_expressible _ hx, h]
  rfl

/-- A builder with a frame emits and returns it. -/
theorem emits_of_emits_ok {i : Instr} {s : State} {f : List Byte}
    (hx : i.numbers.all (Quantity.expressible s.cfg.numerics) = true) (h : ending s.cfg i = .emits (.ok f)) :
    Emits i s f := by
  rw [Emits, exec_eq_ending, withNumbers_of_expressible _ hx, h]
  rfl

/-! ### DAC.INIT -/

section init

variable {cfg : Config} {gain polarity : BitVec 2} {g : GainMode} {p : PolarityMode}

theorem dacInitReply_gain (hg : gain? gain = none) :
    dacInitReply cfg gain polarity = .raise .unsupportedGainMode := by
  simp only [dacInitReply, hg]

theorem dacInitReply_polarity (hg : gain? gain = some g) (hp : polarity? polarity = none) :
    dacInitReply cfg gain polarity = .raise (.unsupportedParameter .polarity) := by
  simp only [dacInitReply, hg, hp]

theorem dacInitReply_frame (hg : gain? gain = some g) (hp : polarity? polarity = some p) :
    dacInitReply cfg gain polarity = .ok (dacInitFrame cfg p g) := by
  simp only [dacInitReply, hg, hp]

end init

/-- Settles O31, check by check. -/
theorem dacInitFollowsRule : Obligations.DacInitFollowsRule := by
  intro s gain pol
  refine ⟨fun hgain => ?gain, fun hgain hpol => ?polarity, fun g p hgain hpol => ?frame⟩
  case gain =>
    exact answers_of_emits_raise rfl (congrArg _ (dacInitReply_gain (gain?_eq_none_iff.mpr hgain)))
  case polarity =>
    obtain ⟨g, hg⟩ := gain?_of_ne hgain
    exact answers_of_emits_raise rfl (congrArg _ (dacInitReply_polarity hg (polarity?_eq_none_iff.mpr hpol)))
  case frame =>
    exact emits_of_emits_ok rfl
      (congrArg _ (dacInitReply_frame (mem_gainRows.mp hgain) (mem_polarityRows.mp hpol)))

/-! ### The checks of DAC.WRITE, in order -/

theorem finites?_pair_eq_none {m : Numerics} {x y : Quantity} (h : finite? m x = none ∨ finite? m y = none) :
    finites? m [x, y] = none := by
  rcases h with h | h
  · simp [finites?, h]
  · cases finite? m x <;> simp [finites?, h]

theorem legalDacReference_iff {r : Rat} : legalDacReference r = true ↔ 2 ≤ r ∧ r ≤ 3 := by
  simp [legalDacReference]

/-- The three codes of a DAC.WRITE name an address, a gain and a polarity (30_encoding.md R73). -/
structure DacCodes (address gain polarity : BitVec 2) (a : DeviceAddress) (g : GainMode) (p : PolarityMode) : Prop where
  address_eq : address? address = some a
  gain_eq : gain? gain = some g
  polarity_eq : polarity? polarity = some p

section write

variable {cfg : Config} {address gain polarity : BitVec 2} {voltage ref : Quantity} {a : DeviceAddress} {g : GainMode}
  {p : PolarityMode} {v r fs : Rat}

theorem dacWriteReply_address (ha : address? address = none) :
    dacWriteReply cfg address voltage ref gain polarity = .raise (.unsupportedParameter .address) := by
  simp only [dacWriteReply, ha]

theorem dacWriteReply_gain (ha : address? address = some a) (hg : gain? gain = none) :
    dacWriteReply cfg address voltage ref gain polarity = .raise .unsupportedGainMode := by
  simp only [dacWriteReply, ha, hg]

theorem dacWriteReply_polarity (ha : address? address = some a) (hg : gain? gain = some g)
    (hp : polarity? polarity = none) :
    dacWriteReply cfg address voltage ref gain polarity = .raise (.unsupportedParameter .polarity) := by
  simp only [dacWriteReply, ha, hg, hp]

theorem dacWriteReply_nonfinite (hcodes : DacCodes address gain polarity a g p)
    (h : finite? cfg.numerics voltage = none ∨ finite? cfg.numerics ref = none) :
    dacWriteReply cfg address voltage ref gain polarity = .raise (.outOfRange .nonfinite) := by
  obtain ⟨ha, hg, hp⟩ := hcodes
  simp only [dacWriteReply, ha, hg, hp, finites?_pair_eq_none h]

theorem dacWriteReply_reference (hcodes : DacCodes address gain polarity a g p)
    (hv : finite? cfg.numerics voltage = some v) (hr : finite? cfg.numerics ref = some r) (hout : ¬ (2 ≤ r ∧ r ≤ 3)) :
    dacWriteReply cfg address voltage ref gain polarity = .raise (.outOfRange .reference) := by
  obtain ⟨ha, hg, hp⟩ := hcodes
  have hbad : legalDacReference r = false := Bool.eq_false_iff.mpr (mt legalDacReference_iff.mp hout)
  simp only [dacWriteReply, ha, hg, hp, finites?_pair hv hr, hbad, Bool.false_eq_true, not_false_iff, if_true]

/-- Past the reference check DAC.WRITE goes on with the full scale of its gain and reference. -/
theorem dacWriteReply_word (hcodes : DacCodes address gain polarity a g p)
    (hv : finite? cfg.numerics voltage = some v) (hr : finite? cfg.numerics ref = some r)
    (hlegal : legalDacReference r = true) (hfs : fullScale cfg.numerics g r = some fs) :
    dacWriteReply cfg address voltage ref gain polarity = dacWordReply cfg a v fs (isBipolar p) := by
  obtain ⟨ha, hg, hp⟩ := hcodes
  simp only [dacWriteReply, ha, hg, hp, finites?_pair hv hr, hlegal, not_true, if_false, hfs]

end write

/-! ### The word of DAC.WRITE and its frame -/

theorem dacWordReply_value {cfg : Config} {a : DeviceAddress} {v fs : Rat} {bip : Bool}
    (hout : ¬ (lowerEnd fs bip ≤ v ∧ v ≤ fs)) : dacWordReply cfg a v fs bip = .raise (.outOfRange .value) :=
  if_pos hout

theorem dacWordReply_frame {cfg : Config} {a : DeviceAddress} {v fs : Rat} {bip : Bool} {w : Nat}
    (hlo : lowerEnd fs bip ≤ v) (hle : v ≤ fs) (hw : codec cfg.numerics v fs dacBits dacSlot bip = some w) :
    dacWordReply cfg a v fs bip = .ok (dacWriteFrame cfg a w) := by
  simp only [dacWordReply, hlo, hle, and_self, not_true, if_false, hw, withWord_some]

theorem isBipolar_eq (p : PolarityMode) : isBipolar p = decide (p = .bipolar) := by cases p <;> rfl

theorem lowerEnd_isBipolar (fs : Rat) (p : PolarityMode) :
    lowerEnd fs (isBipolar p) = if p = .bipolar then -fs else 0 := by
  simp [lowerEnd, isBipolar_eq]

theorem dacWriteFrame_text {cfg : Config} (hform : cfg.wireForm = .text) (a : DeviceAddress) (w : Nat) :
    dacWriteFrame cfg a w = [0x44, cfg.codes.opDacWrite, addrCode cfg.codes a] ++ dec w ++ [0x21] := by
  simp only [dacWriteFrame, dacWordBytes, hform]
  rfl

theorem dacWriteFrame_binary {cfg : Config} (hform : cfg.wireForm = .binary) (a : DeviceAddress) (w : Nat) :
    dacWriteFrame cfg a w =
      [0x44, cfg.codes.opDacWrite, addrCode cfg.codes a, BitVec.ofNat 8 (w / 256), BitVec.ofNat 8 w, 0x21] := by
  simp only [dacWriteFrame, dacWordBytes, hform]
  rfl

/-- The multiplier 4.32 is rounded once, and its rounding stays in the format (40_codec.md R119). -/
theorem rnd_mult_x432 (m : Numerics) : rnd m (432 / 100) = some (mult m .x432) := by cases m <;> decide +kernel

/-- Settles O32, check by check; past them the word of `codec` at the full scale, in the frame of the wire form. -/
theorem dacWriteFollowsRule : Obligations.DacWriteFollowsRule := by
  intro s addr volts ref gain pol hx
  have raises : ∀ {e : Err}, dacWriteReply s.cfg addr volts ref gain pol = .raise e →
      Answers (.dacWrite addr volts ref gain pol) s (.err e) := fun h => answers_of_emits_raise hx (congrArg _ h)
  refine ⟨fun haddr => ?address, fun haddr hgain => ?gain, fun haddr hgain hpol => ?polarity,
    fun a g p haddr hgain hpol => ?codes⟩
  case address => exact raises (dacWriteReply_address (address?_eq_none_iff.mpr haddr))
  case gain =>
    obtain ⟨a, ha⟩ := address?_of_ne haddr
    exact raises (dacWriteReply_gain ha (gain?_eq_none_iff.mpr hgain))
  case polarity =>
    obtain ⟨a, ha⟩ := address?_of_ne haddr
    obtain ⟨g, hg⟩ := gain?_of_ne hgain
    exact raises (dacWriteReply_polarity ha hg (polarity?_eq_none_iff.mpr hpol))
  case codes =>
    have hcodes : DacCodes addr gain pol a g p :=
      ⟨mem_addressRows.mp haddr, mem_gainRows.mp hgain, mem_polarityRows.mp hpol⟩
    refine ⟨fun h => raises (dacWriteReply_nonfinite hcodes h), fun v r hv hr =>
      ⟨fun hout => raises (dacWriteReply_reference hcodes hv hr hout), fun h2 h3 => ?_⟩⟩
    have hlegal := legalDacReference_iff.mpr ⟨h2, h3⟩
    obtain ⟨fs, hfs, hpos⟩ := fullScale_pos s.cfg.numerics g hlegal
    have hreply := dacWriteReply_word hcodes hv hr hlegal hfs
    refine ⟨mult s.cfg.numerics g, fs, ?_, ?_, ?_, hfs, hpos, ?value, ?frame⟩
    · rintro rfl
      rfl
    · rintro rfl
      rfl
    · rintro rfl
      exact rnd_mult_x432 _
    case value =>
      rw [← lowerEnd_isBipolar]
      exact fun hout => raises (hreply.trans (dacWordReply_value hout))
    case frame =>
      rw [← lowerEnd_isBipolar, ← isBipolar_eq]
      intro hlo hle
      obtain ⟨w, hw⟩ := codec_isSome (m := s.cfg.numerics) (n := 14) (t := 16) (by decide) hpos hlo hle
      have hemits : Emits (.dacWrite addr volts ref gain pol) s (dacWriteFrame s.cfg a w) :=
        emits_of_emits_ok hx (congrArg _ (hreply.trans (dacWordReply_frame hlo hle hw)))
      exact ⟨w, hw, fun hform => dacWriteFrame_text hform a w ▸ hemits,
        fun hform => dacWriteFrame_binary hform a w ▸ hemits⟩

/-! ### The bipolar word at its landmarks -/

/-- Inside its precondition, where the fraction is a number, `codec` quantizes it and left-justifies the raw word. -/
theorem codec_eq_quantize {m : Numerics} {v fs f : Rat} {n t : Nat} {bip : Bool} (hwidths : legalWidths n t = true)
    (hfs : 0 < fs) (hlo : lowerEnd fs bip ≤ v) (hle : v ≤ fs) (hf : fraction m v fs bip = some f) :
    codec m v fs n t bip = some (quantize f n * 2 ^ (t - n)) := by
  rw [codec_eq hwidths hfs hlo hle, rawWord_eq_quantize n hf]

/-- A whole number of steps quantizes to that number. -/
theorem quantize_steps {n k : Nat} (hk : k < 2 ^ n) : quantize (k / 2 ^ n) n = k := by
  have hone : (k : Rat) / 2 ^ n ≤ 1 := (div_le_one (by positivity)).mpr (by exact_mod_cast hk.le)
  rw [quantize_eq_min n hone, div_mul_cancel₀ _ (by positivity), Int.floor_natCast, Int.toNat_natCast]
  omega

/-- Under either arithmetic the bipolar DAC word is 0 at `-fs`, mid-scale at 0 V and saturated at `fs` (41_dac.md R145),
for a full scale that is a number of the arithmetic. -/
theorem bipolarWord_landmarks {m : Numerics} {fs : Rat} (hself : rnd m fs = some fs) (hfs : 0 < fs) :
    codec m (-fs) fs 14 16 true = some 0 ∧ codec m 0 fs 14 16 true = some 0x8000 ∧
      codec m fs fs 14 16 true = some 0xFFFC := by
  have hwidths : legalWidths 14 16 = true := by decide
  have hle := lowerEnd_le hfs true
  refine ⟨?least, ?mid, ?full⟩
  case least =>
    exact (codec_eq_quantize hwidths hfs le_rfl hle (fraction_lowerEnd m hfs true)).trans (by simp)
  case mid =>
    refine (codec_eq_quantize hwidths hfs (neg_nonpos.mpr hfs.le) hfs.le (fraction_midScale hself hfs)).trans ?_
    norm_num [quantize_half]
  case full =>
    exact (codec_eq_quantize hwidths hfs hle le_rfl (fraction_fullScale hself hfs true)).trans (by simp)

/-- Under EXACT one step below full scale has the greatest word too. -/
theorem bipolarWord_topStep {fs : Rat} (hfs : 0 < fs) :
    codec .exact (fs - 2 * fs / 2 ^ 14) fs 14 16 true = some 0xFFFC := by
  have hfraction : fraction .exact (fs - 2 * fs / 2 ^ 14) fs true = some (((2 ^ 14 - 1 : Nat) : Rat) / 2 ^ 14) := by
    rw [fraction_eq_exactFraction, cast_greatest]
    simp only [exactFraction, if_true]
    congr 1
    field_simp
    ring
  have hlo : lowerEnd fs true ≤ fs - 2 * fs / 2 ^ 14 := by
    simp only [lowerEnd, if_true]
    linarith
  rw [codec_eq_quantize (by decide) hfs hlo (by linarith) hfraction, quantize_steps (by norm_num)]
  rfl

/-- Settles O33: the landmarks under each arithmetic, and the top step under EXACT. -/
theorem bipolarWordIsOffsetBinary : Obligations.BipolarWordIsOffsetBinary := by
  intro fs hfs
  obtain ⟨hleast, hmid, hfull⟩ := bipolarWord_landmarks (rnd_exact fs) hfs
  exact ⟨hleast, hmid, bipolarWord_topStep hfs, hfull, fun hself => bipolarWord_landmarks (m := .binary64) hself hfs⟩

end Sys2Proof.Machine
end

section
/-!
SUPPORT. The DDS builders (42_dds.md R160 to R170): which check of DDS.TONE and DDS.RAMP raises, the frames past the
checks, and the fixed frames of DDS.LOAD, DDS.RESET and DDS.RAMPOFF.
-/

namespace Sys2Proof.Machine

open Sys2Proof

/-! ### The checks of DDS.TONE, in order -/

section tone

variable {cfg : Config} {amp ampRef phase freq sysclk : Quantity} {a r p f k : Rat}

theorem ddsToneReply_nonfinite (hfin : finites? cfg.numerics [amp, ampRef, phase, freq, sysclk] = none) :
    ddsToneReply cfg amp ampRef phase freq sysclk = .raise (.outOfRange .nonfinite) := by
  simp only [ddsToneReply, hfin]

variable (hfin : finites? cfg.numerics [amp, ampRef, phase, freq, sysclk] = some [a, r, p, f, k])

include hfin

theorem ddsToneReply_reference (href : r ≤ 0 ∨ k ≤ 0) :
    ddsToneReply cfg amp ampRef phase freq sysclk = .raise (.outOfRange .reference) := by
  simp only [ddsToneReply, hfin]
  by_cases hr : 0 < r
  · rw [if_neg (not_not.mpr hr), if_pos (not_lt.mpr (href.resolve_left (not_le.mpr hr)))]
  · rw [if_pos hr]

theorem ddsToneReply_value (hr : 0 < r) (hk : 0 < k) (hout : ¬ (0 ≤ a ∧ a ≤ r ∧ 0 ≤ f ∧ f ≤ k)) :
    ddsToneReply cfg amp ampRef phase freq sysclk = .raise (.outOfRange .value) := by
  simp only [ddsToneReply, hfin]
  rw [if_neg (not_not.mpr hr), if_neg (not_not.mpr hk)]
  by_cases hamp : 0 ≤ a ∧ a ≤ r
  · rw [if_neg (not_not.mpr hamp), if_pos fun hfreq => hout (and_assoc.mp ⟨hamp, hfreq⟩)]
  · rw [if_pos hamp]

/-- Past the checks ASF, POW and FTW have their values, and the reply is their tone frame. -/
theorem ddsToneReply_frame (hr : 0 < r) (hk : 0 < k) (ha : 0 ≤ a) (har : a ≤ r) (hf : 0 ≤ f) (hfk : f ≤ k) :
    ∃ wa wp wf, asf cfg.numerics a r = some wa ∧ pow cfg.numerics p = some wp ∧ ftw cfg.numerics f k = some wf ∧
      ddsToneReply cfg amp ampRef phase freq sysclk = .ok (toneFrame cfg wa wp wf) := by
  obtain ⟨wa, hwa⟩ : ∃ w, asf cfg.numerics a r = some w := codec_isSome (by decide) hr ha har
  obtain ⟨wp, hwp⟩ := pow_isSome cfg.numerics p
  obtain ⟨wf, hwf⟩ : ∃ w, ftw cfg.numerics f k = some w := codec_isSome (by decide) hk hf hfk
  refine ⟨wa, wp, wf, hwa, hwp, hwf, ?_⟩
  simp only [ddsToneReply, hfin, hr, hk, ha, har, hf, hfk, and_self, not_true, if_false, hwa, hwp, hwf, withWord_some]

end tone

theorem toneFrame_eq (cfg : Config) (a p f : Nat) :
    toneFrame cfg a p f =
      [cfg.ddsInd, cfg.codes.opTone] ++ dec a ++ [0x2C] ++ dec p ++ [0x2C] ++ dec f ++ [0x21] := by
  simp [toneFrame, joinFields_three, terminator]

/-- Settles O34, check by check; past them the three words of `codec` in the tone frame. -/
theorem ddsToneFollowsRule : Obligations.DdsToneFollowsRule := by
  intro s amp ampRef phase freq sysclk hx
  have raises : ∀ {e : Err}, ddsToneReply s.cfg amp ampRef phase freq sysclk = .raise e →
      Answers (.ddsTone amp ampRef phase freq sysclk) s (.err e) := fun h => answers_of_emits_raise hx (congrArg _ h)
  refine ⟨fun hfin => raises (ddsToneReply_nonfinite hfin), fun a r p f k hfin =>
    ⟨fun href => raises (ddsToneReply_reference hfin href),
      fun hr hk hout => raises (ddsToneReply_value hfin hr hk hout), fun hr hk ha har hf hfk => ?frame⟩⟩
  case frame =>
    obtain ⟨wa, wp, wf, hwa, hwp, hwf, hreply⟩ := ddsToneReply_frame hfin hr hk ha har hf hfk
    exact ⟨wa, wp, wf, hwa, hwp, hwf, toneFrame_eq s.cfg wa wp wf ▸ emits_of_emits_ok hx (congrArg _ hreply)⟩

/-! ### The parts of DDS.RAMP -/

theorem rampParameter?_eq_none_iff {c : BitVec 2} : rampParameter? c = none ↔ c = 3 := by
  revert c
  decide

theorem rampParameter?_of_ne {c : BitVec 2} (h : c ≠ 3) : ∃ p, rampParameter? c = some p :=
  Option.ne_none_iff_exists'.mp (mt rampParameter?_eq_none_iff.mp h)

theorem inScale_iff {fs x : Rat} : inScale fs x = true ↔ 0 ≤ x ∧ x ≤ fs := by
  simp [inScale]

theorem all_inScale_iff {fs : Rat} {xs : List Rat} : xs.all (inScale fs) = true ↔ ∀ x ∈ xs, 0 ≤ x ∧ x ≤ fs := by
  simp only [List.all_eq_true, inScale_iff]

/-- A step is held to the rounded difference where that stays in the format (42_dds.md R164; log 13). -/
theorem stepFits_iff {m : Numerics} {x a b diff : Rat} (hdiff : rnd m (b - a) = some diff) :
    stepFits m x a b = true ↔ x ≤ diff := by
  simp [stepFits, hdiff]

theorem rampBoundsError_start {m : Numerics} {a b d c : Rat} (hab : ¬ a < b) :
    rampBoundsError m a b d c = some .startNotBelowStop :=
  if_pos hab

section bounds

variable {m : Numerics} {a b d c diff : Rat}

theorem rampBoundsError_increment (hdiff : rnd m (b - a) = some diff) (hab : a < b) (hc : ¬ c ≤ diff) :
    rampBoundsError m a b d c = some .incrementTooLarge := by
  rw [rampBoundsError, if_neg (not_not.mpr hab), if_pos (mt (stepFits_iff hdiff).mp hc)]

theorem rampBoundsError_decrement (hdiff : rnd m (b - a) = some diff) (hab : a < b) (hc : c ≤ diff)
    (hd : ¬ d ≤ diff) : rampBoundsError m a b d c = some .decrementTooLarge := by
  rw [rampBoundsError, if_neg (not_not.mpr hab), if_neg (not_not.mpr ((stepFits_iff hdiff).mpr hc)),
    if_pos (mt (stepFits_iff hdiff).mp hd)]

theorem rampBoundsError_none (hdiff : rnd m (b - a) = some diff) (hab : a < b) (hc : c ≤ diff) (hd : d ≤ diff) :
    rampBoundsError m a b d c = none := by
  rw [rampBoundsError, if_neg (not_not.mpr hab), if_neg (not_not.mpr ((stepFits_iff hdiff).mpr hc)),
    if_neg (not_not.mpr ((stepFits_iff hdiff).mpr hd))]

end bounds

/-- The rows of 42_dds.md R166 are `rampScale`, at a reference that the check before them lets pass. -/
theorem rampScale_of_row {p : RampParameter} {n : Nat} {fs ref : Rat}
    (h : p = .frequency ∧ n = 32 ∧ fs = ref ∧ 0 < ref ∨ p = .phase ∧ n = 16 ∧ fs = 360 ∨
      p = .amplitude ∧ n = 14 ∧ fs = ref ∧ 0 < ref) :
    rampScale p ref = (n, fs) ∧ (p = .phase ∨ 0 < ref) := by
  rcases h with ⟨rfl, rfl, rfl, hpos⟩ | ⟨rfl, rfl, rfl⟩ | ⟨rfl, rfl, rfl, hpos⟩
  · exact ⟨rfl, .inr hpos⟩
  · exact ⟨rfl, .inl rfl⟩
  · exact ⟨rfl, .inr hpos⟩

/-- Two rates of which one is no integer in `[0, 65535]` (42_dds.md R167). -/
theorem rate?_eq_none_of_pair {x y : Rat} (h : ¬ ∃ k1 k2 : Nat, x = k1 ∧ y = k2 ∧ k1 ≤ 65535 ∧ k2 ≤ 65535) :
    rate? x = none ∨ rate? y = none := by
  by_contra hne
  obtain ⟨hx, hy⟩ := not_or.mp hne
  obtain ⟨k1, hk1⟩ := Option.ne_none_iff_exists'.mp hx
  obtain ⟨k2, hk2⟩ := Option.ne_none_iff_exists'.mp hy
  obtain ⟨hx1, hle1⟩ := rate?_eq_some.mp hk1
  obtain ⟨hy2, hle2⟩ := rate?_eq_some.mp hk2
  exact h ⟨k1, k2, hx1, hy2, hle1, hle2⟩

/-! ### The checks of DDS.RAMP, in order -/

/-- What DDS.RAMP replies past its checks of the bounds and of the reference. -/
def rampScaledReply (cfg : Config) (p : RampParameter) (n : Nat) (fs a b d c rn rp : Rat) : Reply (List Byte) :=
  if ¬ [a, b, d, c].all (inScale fs) then .raise (.outOfRange .value)
  else
    match rate? rn, rate? rp with
    | some k1, some k2 => rampFrames cfg p n fs a b d c k1 k2
    | _, _ => .raise (.outOfRange .rate)

section ramp

variable {cfg : Config} {param : BitVec 2} {start stop dec' inc negRate posRate ref : Quantity} {p : RampParameter}
  {a b d c rn rp rf fs : Rat} {n : Nat}

theorem ddsRampReply_parameter (hp : rampParameter? param = none) :
    ddsRampReply cfg param start stop dec' inc negRate posRate ref =
      .raise (.unsupportedParameter .rampParameter) := by
  simp only [ddsRampReply, hp]

theorem ddsRampReply_nonfinite (hp : rampParameter? param = some p)
    (hfin : finites? cfg.numerics [start, stop, dec', inc, negRate, posRate, ref] = none) :
    ddsRampReply cfg param start stop dec' inc negRate posRate ref = .raise (.outOfRange .nonfinite) := by
  simp only [ddsRampReply, hp, hfin]

variable (hp : rampParameter? param = some p)
  (hfin : finites? cfg.numerics [start, stop, dec', inc, negRate, posRate, ref] = some [a, b, d, c, rn, rp, rf])

include hp hfin

theorem ddsRampReply_bounds {e : RampReason} (hbounds : rampBoundsError cfg.numerics a b d c = some e) :
    ddsRampReply cfg param start stop dec' inc negRate posRate ref = .raise (.invalidRampBounds e) := by
  simp only [ddsRampReply, hp, hfin, hbounds]

theorem ddsRampReply_reference (hbounds : rampBoundsError cfg.numerics a b d c = none) (hne : p ≠ .phase)
    (href : rf ≤ 0) :
    ddsRampReply cfg param start stop dec' inc negRate posRate ref = .raise (.outOfRange .reference) := by
  simp only [ddsRampReply, hp, hfin, hbounds]
  rw [if_pos ⟨hne, not_lt.mpr href⟩]

/-- Past those checks DDS.RAMP goes on with the width and the full scale of its parameter. -/
theorem ddsRampReply_scaled (hbounds : rampBoundsError cfg.numerics a b d c = none) (hscale : rampScale p rf = (n, fs))
    (href : p = .phase ∨ 0 < rf) :
    ddsRampReply cfg param start stop dec' inc negRate posRate ref = rampScaledReply cfg p n fs a b d c rn rp := by
  simp only [ddsRampReply, hp, hfin, hbounds, hscale]
  rw [if_neg fun hbad => hbad.2 (href.resolve_left hbad.1)]
  rfl

end ramp

section scaled

variable {cfg : Config} {p : RampParameter} {n : Nat} {fs a b d c rn rp : Rat}

theorem rampScaledReply_value (hout : ¬ ∀ x ∈ [a, b, d, c], 0 ≤ x ∧ x ≤ fs) :
    rampScaledReply cfg p n fs a b d c rn rp = .raise (.outOfRange .value) :=
  if_pos (mt all_inScale_iff.mp hout)

theorem rampScaledReply_rate (hin : ∀ x ∈ [a, b, d, c], 0 ≤ x ∧ x ≤ fs) (hrate : rate? rn = none ∨ rate? rp = none) :
    rampScaledReply cfg p n fs a b d c rn rp = .raise (.outOfRange .rate) := by
  rw [rampScaledReply, if_neg (not_not.mpr (all_inScale_iff.mpr hin))]
  rcases hrate with h | h
  · simp only [h]
  · cases rate? rn <;> simp only [h]

/-- Past every check the four words have their values, and the reply is the pair of ramp frames. -/
theorem rampScaledReply_frames {k1 k2 : Nat} (hwidths : legalWidths n n = true) (hfs : 0 < fs)
    (hin : ∀ x ∈ [a, b, d, c], 0 ≤ x ∧ x ≤ fs) (hrn : rate? rn = some k1) (hrp : rate? rp = some k2) :
    ∃ ws we wd wi, codec cfg.numerics a fs n n false = some ws ∧ codec cfg.numerics b fs n n false = some we ∧
      codec cfg.numerics d fs n n false = some wd ∧ codec cfg.numerics c fs n n false = some wi ∧
      rampScaledReply cfg p n fs a b d c rn rp =
        .ok (rampSetupFrame cfg p ++ rampParamsFrame cfg p ws we wd wi k1 k2) := by
  have word : ∀ x ∈ [a, b, d, c], ∃ w, codec cfg.numerics x fs n n false = some w := fun x hx =>
    codec_isSome_of_inScale hwidths hfs (inScale_iff.mpr (hin x hx))
  obtain ⟨ws, hws⟩ := word a (by simp)
  obtain ⟨we, hwe⟩ := word b (by simp)
  obtain ⟨wd, hwd⟩ := word d (by simp)
  obtain ⟨wi, hwi⟩ := word c (by simp)
  refine ⟨ws, we, wd, wi, hws, hwe, hwd, hwi, ?_⟩
  rw [rampScaledReply, if_neg (not_not.mpr (all_inScale_iff.mpr hin)), hrn, hrp]
  simp only [rampFrames, hws, hwe, hwd, hwi, withWord_some]

end scaled

/-- The two ramp frames as one unit (30_encoding.md R85, R86). -/
theorem rampUnit_eq (cfg : Config) (p : RampParameter) (ws we wd wi rn rp : Nat) :
    rampSetupFrame cfg p ++ rampParamsFrame cfg p ws we wd wi rn rp =
      [cfg.ddsInd, cfg.codes.opDrg, cfg.codes.subSetup, paramCode cfg.codes p, 0x21] ++
        [cfg.ddsInd, cfg.codes.opDrg, cfg.codes.subParams, paramCode cfg.codes p] ++ dec ws ++ [0x2C] ++ dec we ++
        [0x2C] ++ dec wd ++ [0x2C] ++ dec wi ++ [0x2C] ++ dec rn ++ [0x2C] ++ dec rp ++ [0x21] := by
  simp [rampSetupFrame, rampParamsFrame, joinFields_six, terminator]

/-- Settles O36, check by check; past them the four words of `codec` and the two rates in the ramp frames. -/
theorem ddsRampFollowsRule : Obligations.DdsRampFollowsRule := by
  intro s param start stop dec' inc nr pr ref hx
  have raises : ∀ {e : Err}, ddsRampReply s.cfg param start stop dec' inc nr pr ref = .raise e →
      Answers (.ddsRamp param start stop dec' inc nr pr ref) s (.err e) :=
    fun h => answers_of_emits_raise hx (congrArg _ h)
  refine ⟨fun hparam => ?parameter, fun hparam hfin => ?nonfinite, fun p a b d c rn rp rf hparam hfin => ?numbers⟩
  case parameter => exact raises (ddsRampReply_parameter (rampParameter?_eq_none_iff.mpr hparam))
  case nonfinite =>
    obtain ⟨p, hp⟩ := rampParameter?_of_ne hparam
    exact raises (ddsRampReply_nonfinite hp hfin)
  case numbers =>
    have hp := mem_parameterRows.mp hparam
    refine ⟨fun hab => raises (ddsRampReply_bounds hp hfin (rampBoundsError_start hab)), fun diff hdiff hab =>
      ⟨fun hc => raises (ddsRampReply_bounds hp hfin (rampBoundsError_increment hdiff hab hc)),
        fun hc hd => raises (ddsRampReply_bounds hp hfin (rampBoundsError_decrement hdiff hab hc hd)),
        fun hc hd hne href =>
          raises (ddsRampReply_reference hp hfin (rampBoundsError_none hdiff hab hc hd) hne href),
        fun n fs hc hd hrow => ?scaled⟩⟩
    case scaled =>
      obtain ⟨hscale, href⟩ := rampScale_of_row hrow
      have hreply := ddsRampReply_scaled hp hfin (rampBoundsError_none hdiff hab hc hd) hscale href
      refine ⟨fun hout => raises (hreply.trans (rampScaledReply_value hout)), fun hin =>
        ⟨fun hrate => raises (hreply.trans (rampScaledReply_rate hin (rate?_eq_none_of_pair hrate))),
          fun k1 k2 hrn hrp hk1 hk2 => ?frames⟩⟩
      case frames =>
        obtain ⟨hwidths, hfs⟩ : legalWidths n n = true ∧ 0 < fs := by
          simpa only [hscale] using rampScale_legal p rf href
        obtain ⟨ws, we, wd, wi, hws, hwe, hwd, hwi, hframes⟩ := rampScaledReply_frames (cfg := s.cfg) (p := p) hwidths
          hfs hin (rate?_eq_some.mpr ⟨hrn, hk1⟩) (rate?_eq_some.mpr ⟨hrp, hk2⟩)
        exact ⟨ws, we, wd, wi, hws, hwe, hwd, hwi,
          rampUnit_eq s.cfg p ws we wd wi k1 k2 ▸ emits_of_emits_ok hx (congrArg _ (hreply.trans hframes))⟩

/-! ### The fixed frames -/

/-- Settles O37: the three builders have no check, and their reply is their frame. -/
theorem fixedDdsCommands : Obligations.FixedDdsCommands := fun s =>
  ⟨emits_of_emits_ok (f := loadFrame s.cfg) rfl rfl, emits_of_emits_ok (f := resetFrame s.cfg) rfl rfl,
    emits_of_emits_ok (f := rampDisableFrame s.cfg) rfl rfl⟩

end Sys2Proof.Machine
end

section
/-!
SUPPORT. PARSE reads back what the builders emit (43_framer_parser.md R221 (a)): each frame in a builder's reply is a
legal frame whose decoded form holds the codes and words that the builder computed.
-/

namespace Sys2Proof.Machine

open Sys2Proof

/-! ### The decoded forms of the builders' frames -/

/-- PARSE answers a frame that spells a decoded form with a command that spells the frame and has that form. -/
theorem FrameOf.parsesTo {s : State} {f : List Byte} {d : Decoded} (hlegal : s.cfg.legal = true)
    (h : FrameOf s.cfg f d) : ∃ c, ParsesTo s f c ∧ c.decoded = d := by
  obtain ⟨dev, opc, payload, rfl, hframe⟩ := h
  exact ⟨⟨dev, opc, payload, terminator, d⟩, ⟨LegalFrame.answers hlegal rfl hframe, rfl⟩, rfl⟩

/-- DAC.INIT's frame holds the codes of its operands (41_dac.md R140). -/
theorem dacInitReply_built {cfg : Config} {gain polarity : BitVec 2} {f : List Byte}
    (h : dacInitReply cfg gain polarity = .ok f) :
    ∃ d, FrameOf cfg f d ∧ Built cfg (.dacInit gain polarity) d := by
  obtain ⟨g, p, hg, hp, rfl⟩ := dacInitReply_eq_ok h
  exact ⟨.dacInit p g, dacInitFrame_frameOf cfg p g, g, p, hg, hp, rfl⟩

/-- DAC.WRITE's frame holds its address and its word, which has 16 bits and two low zeros (41_dac.md R141). -/
theorem dacWriteReply_built {cfg : Config} {address gain polarity : BitVec 2} {voltage ref : Quantity} {f : List Byte}
    (h : dacWriteReply cfg address voltage ref gain polarity = .ok f) :
    ∃ d, FrameOf cfg f d ∧ Built cfg (.dacWrite address voltage ref gain polarity) d := by
  obtain ⟨a, g, p, v, r, fs, w, ha, hg, hp, hfin, hfs, hw, rfl⟩ := dacWriteReply_eq_ok h
  obtain ⟨-, -, -, hlt, hlow⟩ := codec_leftJustified hw
  exact ⟨.dacWrite a w, dacWriteFrame_frameOf cfg a hlt hlow, a, g, p, v, r, fs, w, ha, hg, hp, hfin, hfs, hw, rfl⟩

/-- DDS.TONE's frame holds ASF, POW and FTW (42_dds.md R160 to R163). -/
theorem ddsToneReply_built {cfg : Config} {amp ampRef phase freq sysclk : Quantity} {f : List Byte}
    (h : ddsToneReply cfg amp ampRef phase freq sysclk = .ok f) :
    ∃ d, FrameOf cfg f d ∧ Built cfg (.ddsTone amp ampRef phase freq sysclk) d := by
  obtain ⟨a, r, p, q, k, wa, wp, wf, hfin, hwa, hwp, hwf, rfl⟩ := ddsToneReply_eq_ok h
  exact ⟨.ddsTone wa wp wf, toneFrame_frameOf cfg (codec_lt hwa) (codec_lt hwp) (codec_lt hwf),
    a, r, p, q, k, wa, wp, wf, hfin, hwa, hwp, hwf, rfl⟩

/-- A word of `codec` at the scale of a ramp is within the bound of its parameter (30_encoding.md R91). -/
theorem codec_lt_rampWordBound {m : Numerics} {p : RampParameter} {ref x : Rat} {w : Nat}
    (h : codec m x (rampScale p ref).2 (rampScale p ref).1 (rampScale p ref).1 false = some w) :
    w < rampWordBound p :=
  rampWordBound_eq p ref ▸ codec_lt h

/-- DDS.RAMP's two frames hold its parameter, words and rates (42_dds.md R165 to R167). -/
theorem ddsRampReply_built {cfg : Config} {param : BitVec 2} {start stop dec inc negRate posRate ref : Quantity}
    {f : List Byte} (h : ddsRampReply cfg param start stop dec inc negRate posRate ref = .ok f) :
    ∃ f1 f2 d1 d2, f = f1 ++ f2 ∧ FrameOf cfg f1 d1 ∧ FrameOf cfg f2 d2 ∧
      BuiltRamp cfg (.ddsRamp param start stop dec inc negRate posRate ref) d1 d2 := by
  obtain ⟨p, a, b, d, c, nr, pr, rf, rn, rp, hp, hfin, hrn, hrp, hframes⟩ := ddsRampReply_eq_ok h
  obtain ⟨ws, we, wd, wi, hws, hwe, hwd, hwi, rfl⟩ := rampFrames_eq_ok hframes
  have hbounds : List.Forall₂ (· < ·) [ws, we, wd, wi, rn, rp] (rampBounds p) :=
    forall₂_rampBounds.mpr ⟨codec_lt_rampWordBound hws, codec_lt_rampWordBound hwe, codec_lt_rampWordBound hwd,
      codec_lt_rampWordBound hwi, rate?_lt hrn, rate?_lt hrp⟩
  obtain ⟨rfl, -⟩ := rate?_eq_some.mp hrn
  obtain ⟨rfl, -⟩ := rate?_eq_some.mp hrp
  exact ⟨_, _, _, _, rfl, rampSetupFrame_frameOf cfg p, rampParamsFrame_frameOf cfg hbounds,
    param, start, stop, dec, inc, negRate, posRate, ref, p, a, b, d, c, rn, rp, rf, _, _, ws, we, wd, wi, rfl, hp, hfin,
    rfl, hws, hwe, hwd, hwi, rfl, rfl⟩

/-- The reply of a builder other than DDS.RAMP is one frame, which holds what the builder computed. -/
theorem ending_emits_built {cfg : Config} {i : Instr} {f : List Byte} (hend : ending cfg i = .emits (.ok f))
    (hramp : ¬ isRamp i) : ∃ d, FrameOf cfg f d ∧ Built cfg i d := by
  cases i with
  | dacInit => exact dacInitReply_built (Ending.emits.inj hend)
  | dacWrite => exact dacWriteReply_built (Ending.emits.inj hend)
  | ddsTone => exact ddsToneReply_built (Ending.emits.inj hend)
  | ddsRamp => exact absurd ⟨_, _, _, _, _, _, _, _, rfl⟩ hramp
  | ddsLoad =>
    cases hend
    exact ⟨.load, loadFrame_frameOf cfg, rfl⟩
  | ddsReset =>
    cases hend
    exact ⟨.reset, resetFrame_frameOf cfg, rfl⟩
  | ddsRampoff =>
    cases hend
    exact ⟨.rampDisable, rampDisableFrame_frameOf cfg, rfl⟩
  | codecEncode | codecDecode | frame | parse | rx | frameDacInit | frameDacWriteText | frameDacWriteBinary
  | frameDdsTone | frameDdsRampSetup | frameDdsRampParams | frameDdsRampDisable | frameDdsLoad | frameDdsReset =>
    cases hend

/-- Every builder emits. -/
theorem ending_of_isBuilder {i : Instr} (cfg : Config) (h : isBuilder i = true) :
    ∃ r, ending cfg i = .emits r := by
  cases i with
  | dacInit | dacWrite | ddsTone | ddsRamp | ddsLoad | ddsReset | ddsRampoff => exact ⟨_, rfl⟩
  | codecEncode | codecDecode | frame | parse | rx | frameDacInit | frameDacWriteText | frameDacWriteBinary
  | frameDdsTone | frameDdsRampSetup | frameDdsRampParams | frameDdsRampDisable | frameDdsLoad | frameDdsReset =>
    cases h

/-- Settles O48: the frames of the builder's reply are legal frames, and PARSE reads them in the configuration that the
builder leaves. -/
theorem builderFramesParseBack : Obligations.BuilderFramesParseBack := by
  intro s t i f hlegal hbuilder h hres
  obtain ⟨hcfg, -⟩ := requestsWriteOnlyTheirState s t i h
  obtain ⟨r, hend⟩ := ending_of_isBuilder s.cfg hbuilder
  obtain rfl := emitted_frame hend h hres
  have parses : ∀ {f : List Byte} {d : Decoded}, FrameOf s.cfg f d → ∃ c, ParsesTo t f c ∧ c.decoded = d := by
    rw [← hcfg] at hlegal ⊢
    exact FrameOf.parsesTo hlegal
  refine ⟨fun hramp => ?single, ?pair⟩
  case single =>
    obtain ⟨d, hframe, hbuilt⟩ := ending_emits_built hend hramp
    obtain ⟨c, hparses, rfl⟩ := parses hframe
    exact ⟨c, hparses, hbuilt⟩
  case pair =>
    rintro ⟨_, _, _, _, _, _, _, _, rfl⟩
    obtain ⟨f1, f2, d1, d2, hf, hframe1, hframe2, hbuilt⟩ := ddsRampReply_built (Ending.emits.inj hend)
    obtain ⟨c1, hparses1, rfl⟩ := parses hframe1
    obtain ⟨c2, hparses2, rfl⟩ := parses hframe2
    exact ⟨f1, f2, c1, c2, hf, hparses1, hparses2, hbuilt⟩

end Sys2Proof.Machine
end

section
/-!
SUPPORT. The framer (43_framer_parser.md R200): which check of FRAME raises, and that every legal triple is framed.
-/

namespace Sys2Proof.Machine

open Sys2Proof

theorem binaryPayload_iff {cfg : Config} {dev opc : Byte} :
    binaryPayload cfg dev opc = true ↔ cfg.wireForm = .binary ∧ dev = dacInd ∧ opc = cfg.codes.opDacWrite := by
  simp [binaryPayload, and_assoc]

theorem binaryPayload_eq_decide (cfg : Config) (dev opc : Byte) :
    binaryPayload cfg dev opc =
      decide (cfg.wireForm = .binary ∧ dev = dacInd ∧ opc = cfg.codes.opDacWrite) :=
  Bool.eq_iff_iff.mpr (binaryPayload_iff.trans decide_eq_true_iff.symm)

/-! ### The checks of FRAME, in order -/

section frame

variable {cfg : Config} {dev opc : Byte} {payload : List Byte}

theorem frameReply_device (hdev : dev = terminator) :
    frameReply cfg dev opc payload = .raise (.framingError .terminatorInPayload 0) :=
  if_pos hdev

theorem frameReply_opcode (hdev : dev ≠ terminator) (hopc : opc = terminator) :
    frameReply cfg dev opc payload = .raise (.framingError .terminatorInPayload 1) := by
  rw [frameReply, if_neg hdev, if_pos hopc]

theorem frameReply_payload (hdev : dev ≠ terminator) (hopc : opc ≠ terminator)
    (hbin : binaryPayload cfg dev opc = false) (hmem : terminator ∈ payload) :
    frameReply cfg dev opc payload = .raise (.framingError .terminatorInPayload (2 + payload.idxOf terminator)) := by
  rw [frameReply, if_neg hdev, if_neg hopc, if_pos ⟨by simp [hbin], hmem⟩]

theorem frameReply_frame (hdev : dev ≠ terminator) (hopc : opc ≠ terminator)
    (h : binaryPayload cfg dev opc = true ∨ terminator ∉ payload) :
    frameReply cfg dev opc payload = .ok (frameBytes dev opc payload) := by
  rw [frameReply, if_neg hdev, if_neg hopc, if_neg fun ⟨hbin, hmem⟩ => h.elim hbin fun hno => hno hmem]

end frame

/-- FRAME answers the error of its reply. -/
theorem answers_frame_err {s : State} {dev opc : Byte} {payload : List Byte} {e : Err}
    (h : frameReply s.cfg dev opc payload = .raise e) : Answers (.frame dev opc payload) s (.err e) :=
  answers_err rfl (by rw [ending, h]; rfl)

/-- FRAME answers the bytes of its reply. -/
theorem answers_frame_bytes {s : State} {dev opc : Byte} {payload f : List Byte}
    (h : frameReply s.cfg dev opc payload = .ok f) : Answers (.frame dev opc payload) s (.ok (.bytes f)) :=
  answers_ok rfl (by rw [ending, h]; rfl)

/-- The least index of a terminator in the payload is the number of bytes before the first one. -/
theorem idxOf_first {b : Byte} {pre : List Byte} (post : List Byte) (h : b ∉ pre) :
    (pre ++ b :: post).idxOf b = pre.length := by
  rw [List.idxOf_append_of_notMem h, List.idxOf_cons_self, Nat.add_zero]

/-- Settles O39, check by check. -/
theorem frameFollowsRule : Obligations.FrameFollowsRule := by
  intro s dev opc payload
  refine ⟨fun hdev => answers_frame_err (frameReply_device hdev),
    fun hdev hopc => answers_frame_err (frameReply_opcode hdev hopc), ?payload, ?framed⟩
  case payload =>
    rintro hdev hopc hbin pre post rfl hpre
    have hreply := frameReply_payload hdev hopc (Bool.eq_false_iff.mpr (mt binaryPayload_iff.mp hbin))
      (payload := pre ++ terminator :: post) (by simp)
    rw [idxOf_first (b := terminator) post hpre] at hreply
    exact answers_frame_err hreply
  case framed =>
    exact fun hdev hopc h => answers_frame_bytes (frameReply_frame hdev hopc (h.imp_left binaryPayload_iff.mpr))

/-! ### Legal triples are framed -/

/-- No listed opcode is the terminator (00_scope.md R15). -/
theorem listed_ne_terminator {cfg : Config} (hlegal : cfg.legal = true) {dev opc : Byte}
    (h : listedOpcode cfg (some dev) opc = true) : dev ≠ terminator ∧ opc ≠ terminator := by
  obtain ⟨-, hdds, -⟩ := Config.legal_headers hlegal
  have hopcodes : ∀ o ∈ cfg.codes.dacOpcodes ++ cfg.codes.ddsOpcodes, o ≠ terminator := by
    simp only [Config.legal, Bool.and_eq_true] at hlegal
    obtain ⟨⟨⟨-, hopcodes⟩, -⟩, -⟩ := hlegal
    exact fun o ho => bne_iff_ne.mp (List.all_eq_true.mp hopcodes o ho)
  rcases listedOpcode_iff.mp h with ⟨rfl, ho⟩ | ⟨rfl, ho⟩
  · exact ⟨by decide, hopcodes opc (List.mem_append_left _ (by simpa [CodeTable.dacOpcodes] using ho))⟩
  · exact ⟨hdds, hopcodes opc (List.mem_append_right _ (by simpa [CodeTable.ddsOpcodes] using ho))⟩

/-- A payload that stage 1 takes is one that FRAME frames. -/
theorem TakenPayload.framed {cfg : Config} {dev opc : Byte} {payload : List Byte}
    (h : TakenPayload cfg dev opc payload) : binaryPayload cfg dev opc = true ∨ terminator ∉ payload := by
  rcases h with ⟨hbin, -⟩ | ⟨-, -, hall⟩
  · exact .inl hbin
  · exact .inr fun hmem => absurd (List.all_eq_true.mp hall _ hmem) (by decide)

/-- FRAME of a legal triple is its frame (43_framer_parser.md R221 (b)). -/
theorem LegalFrame.frameReply_eq {cfg : Config} (hlegal : cfg.legal = true) {dev opc : Byte} {payload : List Byte}
    {d : Decoded} (h : LegalFrame cfg dev opc payload d) :
    frameReply cfg dev opc payload = .ok (frameBytes dev opc payload) := by
  obtain ⟨hdev, hopc⟩ := listed_ne_terminator hlegal h.listed
  exact frameReply_frame hdev hopc (h.taken hlegal).framed

end Sys2Proof.Machine
end

section
/-!
SUPPORT. RX (43_framer_parser.md R202 to R206, R209, R210): what each state of stage 1 does with a byte, and what RX
makes of it.
-/

namespace Sys2Proof.Machine

open Sys2Proof

/-! ### The errors of stage 1, state by state -/

section step1

variable {cfg : Config} {p : Parser} {b : Byte}

theorem step1_of_expectDevice (hs : p.pstate = .expectDevice) : step1 cfg p b = stepDevice cfg p b := by
  simp only [step1, hs]

theorem step1_of_expectOpcode (hs : p.pstate = .expectOpcode) : step1 cfg p b = stepOpcode cfg p b := by
  simp only [step1, hs]

theorem step1_of_discard (hs : p.pstate = .discard) : step1 cfg p b = stepDiscard p b := by
  simp only [step1, hs]

theorem step1_of_readPayload_text (hs : p.pstate = .readPayload) (hbin : p.pbin = false) :
    step1 cfg p b = stepText p b := by
  simp [step1, hs, hbin]

theorem step1_of_readPayload_binary (hs : p.pstate = .readPayload) (hbin : p.pbin = true) :
    step1 cfg p b = stepBinary p b := by
  simp only [step1, hs, hbin, if_true]

/-- A listed opcode (43_framer_parser.md R203). -/
theorem stepOpcode_listed {d : Byte} (hd : p.pdev = some d) (hlisted : listedOpcode cfg (some d) b = true) :
    stepOpcode cfg p b =
      ({ p with
          popc := some b
          pbuf := []
          pbin := decide (cfg.wireForm = .binary ∧ d = dacInd ∧ b = cfg.codes.opDacWrite)
          poff := 2
          pstate := .readPayload }, .none) := by
  simp only [stepOpcode, hd, hlisted, if_true, Option.getD_some, binaryPayload_eq_decide]

/-- A byte after MAX_PAYLOAD others (43_framer_parser.md R204). -/
theorem step1_overlong (hs : p.pstate = .readPayload) (hbin : p.pbin = false) (hb : b ≠ terminator)
    (hlen : p.pbuf.length = maxPayload) : step1 cfg p b = stageError .overlong p.poff b := by
  rw [step1_of_readPayload_text hs hbin, stepText, if_neg hb, if_pos hlen]

/-- A byte that is not printable (43_framer_parser.md R204). -/
theorem step1_badPayloadByte (hs : p.pstate = .readPayload) (hbin : p.pbin = false) (hb : b ≠ terminator)
    (hlen : p.pbuf.length ≠ maxPayload) (hprint : b < 0x20#8 ∨ 0x7E#8 < b) :
    step1 cfg p b = stageError .badPayloadByte p.poff b := by
  rw [step1_of_readPayload_text hs hbin, stepText, if_neg hb, if_neg hlen, if_pos hprint]

/-- A printable byte, the payload not full (43_framer_parser.md R204). -/
theorem step1_printable (hs : p.pstate = .readPayload) (hbin : p.pbin = false) (hb : b ≠ terminator)
    (hlen : p.pbuf.length ≠ maxPayload) (hlo : 0x20#8 ≤ b) (hhi : b ≤ 0x7E#8) :
    step1 cfg p b = ({ p with pbuf := p.pbuf ++ [b], poff := p.poff + 1 }, .none) := by
  rw [step1_of_readPayload_text hs hbin, stepText, if_neg hb, if_neg hlen,
    if_neg (not_or.mpr ⟨BitVec.not_lt.mpr hlo, BitVec.not_lt.mpr hhi⟩)]

/-- After a binary payload a byte other than the terminator (43_framer_parser.md R206). -/
theorem step1_badTerminator (hs : p.pstate = .expectTerminator) (hb : b ≠ terminator) :
    step1 cfg p b = stageError .badTerminator p.poff b := by
  simp only [step1, hs, stepTerminator, if_neg hb]

/-- In Discard every byte but the terminator is passed over (43_framer_parser.md R210). -/
theorem stepDiscard_of_ne (hb : b ≠ terminator) : stepDiscard p b = (p, .none) := by
  rw [stepDiscard, if_neg hb]

theorem stepDiscard_terminator (hb : b = terminator) :
    stepDiscard p b = ({ p with pstate := .expectDevice }, .none) := by
  rw [stepDiscard, if_pos hb]

/-- An error leaves the parser as 43_framer_parser.md R210 says. -/
theorem step1_error_parser {r : FramingReason} {off : Nat} (h : (step1 cfg p b).2 = .error r off) :
    (step1 cfg p b).1 = errorParser b := by
  rcases step1_cases cfg p b with hnone | ⟨-, hframe, -⟩ | ⟨r', herr⟩
  · simp [hnone] at h
  · simp [hframe] at h
  · rw [herr]

end step1

/-! ### What RX makes of an event -/

theorem exec_rx (b : Byte) (s : State) :
    exec (.rx b) s = finish (rxReply s.cfg (step1 s.cfg s.parser b).2) (s.setParser (step1 s.cfg s.parser b).1) := rfl

section rx

variable {s : State} {b : Byte} {p : Parser}

/-- A byte without an event is pending. -/
theorem exec_rx_of_none (h : step1 s.cfg s.parser b = (p, .none)) :
    exec (.rx b) s = .next ((s.setParser p).answer (.ok .pending)) := by
  rw [exec_rx, h]
  rfl

/-- A stage-1 error is raised with its offset. -/
theorem exec_rx_of_error {r : FramingReason} {off : Nat} (h : step1 s.cfg s.parser b = stageError r off b) :
    exec (.rx b) s = .next ((s.setParser (errorParser b)).answer (.err (.framingError r off))) := by
  rw [exec_rx, h]
  rfl

/-- A frame is interpreted, and the parser is reset. -/
theorem exec_rx_of_frame (h : step1 s.cfg s.parser b = stageFrame p) :
    exec (.rx b) s = finish ((interpret s.cfg (p.pdev.getD 0) (p.popc.getD 0) p.pbuf p.poff).map .command)
      (s.setParser .reset) := by
  rw [exec_rx, h]
  rfl

end rx

/-- Settles O40, state by state. -/
theorem rxFollowsStageOne : Obligations.RxFollowsStageOne := by
  intro s b
  refine ⟨fun hs => ⟨fun hb => ?device, fun hb => ?badDevice⟩,
    fun d hs hd => ⟨fun hlisted => ?opcode, fun hlisted => ?badOpcode⟩,
    fun hs hbin hb => ⟨fun hlen => ?overlong, fun hlen hprint => ?badPayloadByte, fun hlen hlo hhi => ?text⟩,
    fun hs hbin => ?binary, fun hs hb => ?badTerminator, fun d o hd ho hb hend => ?frame⟩
  case device => exact exec_rx_of_none ((step1_of_expectDevice hs).trans (if_pos hb))
  case badDevice => exact exec_rx_of_error ((step1_of_expectDevice hs).trans (if_neg hb))
  case opcode => exact exec_rx_of_none ((step1_of_expectOpcode hs).trans (stepOpcode_listed hd hlisted))
  case badOpcode =>
    refine exec_rx_of_error ((step1_of_expectOpcode hs).trans ?_)
    rw [stepOpcode, hd, if_neg (Bool.eq_false_iff.mp hlisted)]
  case overlong => exact exec_rx_of_error (step1_overlong hs hbin hb hlen)
  case badPayloadByte => exact exec_rx_of_error (step1_badPayloadByte hs hbin hb hlen hprint)
  case text => exact exec_rx_of_none (step1_printable hs hbin hb hlen hlo hhi)
  case binary =>
    refine exec_rx_of_none ((step1_of_readPayload_binary hs hbin).trans ?_)
    simp only [stepBinary, List.length_append, List.length_singleton, hs]
  case badTerminator => exact exec_rx_of_error (step1_badTerminator hs hb)
  case frame =>
    obtain rfl : b = terminator := hb
    rw [exec_rx_of_frame (step1_terminator hend), hd, ho]
    rfl

/-- Settles O41: stage 1 leaves `errorParser` after an error, and Discard waits for the terminator. -/
theorem rxDiscardsToTerminator : Obligations.RxDiscardsToTerminator := by
  intro s b
  refine ⟨fun r off herr => ?_, fun hp => ?_⟩
  · rw [step1_error_parser herr]
    exact ⟨fun hb => if_neg hb, fun hb => if_pos hb⟩
  · have hstep : step1 s.cfg s.parser b = stepDiscard s.parser b := step1_of_discard (by rw [hp])
    refine ⟨fun hb => ?_, fun hb => ?_⟩
    · rw [exec_rx_of_none (hstep.trans (stepDiscard_of_ne hb)), State.setParser_self]
    · refine exec_rx_of_none (hstep.trans ?_)
      rw [stepDiscard_terminator hb, hp]

end Sys2Proof.Machine
end

section
/-!
SUPPORT. PARSE (43_framer_parser.md R208) by the bytes that stage 1 takes without an event, and the numerals of its
fields (R220). Then what PARSE accepts, and its answer to sequences that are longer or end too early.
-/

namespace Sys2Proof.Machine

open Sys2Proof

/-- Settles O43: `field` and `fields` read what `dec` and `joinFields` write, and `field` nothing else. -/
theorem fieldReadsExactlyDec : Obligations.FieldReadsExactlyDec := by
  refine ⟨fun s bound n => ⟨field_eq_some, ?_⟩, fun ns bounds hne h => fields_joinFields hne h⟩
  rintro ⟨rfl, hlt⟩
  exact field_dec hlt

/-! ### Bytes without an event -/

/-- Bytes are taken in two parts. -/
theorem Parser.taking_append_eq_some {cfg : Config} {p q : Parser} {pre post : List Byte} :
    p.taking cfg (pre ++ post) = some q ↔ ∃ r, p.taking cfg pre = some r ∧ r.taking cfg post = some q := by
  induction pre generalizing p with
  | nil => simp
  | cons b pre ih => simp only [List.cons_append, Parser.taking_cons_eq_some, ih, and_assoc, exists_and_left]

/-- The first bytes of taken bytes are taken. -/
theorem Parser.taking_take {cfg : Config} {p q : Parser} {pre : List Byte} (h : p.taking cfg pre = some q) (k : Nat) :
    ∃ r, p.taking cfg (pre.take k) = some r := by
  rw [← List.take_append_drop k pre, Parser.taking_append_eq_some] at h
  obtain ⟨r, hr, -⟩ := h
  exact ⟨r, hr⟩

section taken

variable {cfg : Config} {pre : List Byte} {p : Parser}

/-- PARSE goes on behind the bytes that stage 1 takes. -/
theorem parseReply_append_of_taking (rest : List Byte) (h : Parser.reset.taking cfg pre = some p) :
    parseReply cfg (pre ++ rest) = parseFrom cfg p pre.length rest := by
  rw [parseReply, parseFrom_append_of_taking rest h, Nat.zero_add]

/-- A sequence that ends inside a frame is UNTERMINATED at its length. -/
theorem parseReply_unterminated (h : Parser.reset.taking cfg pre = some p) :
    parseReply cfg pre = .raise (.framingError .unterminated pre.length) := by
  simpa only [List.append_nil, parseFrom_nil] using parseReply_append_of_taking [] h

/-- The first stage-1 error is raised with its offset, whatever follows. -/
theorem parseReply_error {b : Byte} {r : FramingReason} {off : Nat} (rest : List Byte)
    (h : Parser.reset.taking cfg pre = some p) (hb : (step1 cfg p b).2 = .error r off) :
    parseReply cfg (pre ++ b :: rest) = .raise (.framingError r off) :=
  (parseReply_append_of_taking _ h).trans (parseFrom_cons_error hb)

/-- A frame with bytes after it is TRAILING at the first of them, and one at the end is interpreted. -/
theorem parseReply_frame {b d o : Byte} {payload : List Byte} {off : Nat} (rest : List Byte)
    (h : Parser.reset.taking cfg pre = some p) (hb : (step1 cfg p b).2 = .frame d o payload off) :
    parseReply cfg (pre ++ b :: rest) =
      if rest ≠ [] then .raise (.framingError .trailing (pre.length + 1)) else interpret cfg d o payload off :=
  (parseReply_append_of_taking _ h).trans (parseFrom_cons_frame hb)

end taken

/-- Settles O44, by the event of the byte behind those that stage 1 takes. -/
theorem parseFollowsRule : Obligations.ParseFollowsRule := by
  intro s pre p h
  refine ⟨answers_of_parseReply_raise rfl (parseReply_unterminated h), fun b rest =>
    ⟨fun r off hb => answers_of_parseReply_raise rfl (parseReply_error rest h hb), fun d o payload off hb => ?_⟩⟩
  have hreply := parseReply_frame rest h hb
  refine ⟨fun hne => answers_of_parseReply_raise rfl (hreply.trans (if_pos hne)), fun hnil => ?_⟩
  rw [exec_parse, hreply, if_neg (not_not.mpr hnil)]

/-! ### The stage-1 errors behind a listed header -/

/-- Behind a listed header stage 1 takes what it takes of the payload. -/
theorem taking_header_append {cfg : Config} {dev opc : Byte} {payload : List Byte} {p : Parser}
    (hlisted : listedOpcode cfg (some dev) opc = true)
    (h : (readingPayload cfg dev opc).taking cfg payload = some p) :
    Parser.reset.taking cfg ([dev, opc] ++ payload) = some p :=
  Parser.taking_append_eq_some.mpr ⟨_, taking_header hlisted, h⟩

/-- The parser after a header and a text payload (43_framer_parser.md R204). -/
theorem taking_textPayload {cfg : Config} {dev opc : Byte} {payload : List Byte}
    (hbin : binaryPayload cfg dev opc = false) (hlen : payload.length ≤ maxPayload)
    (hall : payload.all payloadByte = true) :
    (readingPayload cfg dev opc).taking cfg payload =
      some ⟨.readPayload, some dev, some opc, payload, false, 2 + payload.length⟩ := by
  rw [taking_text rfl hbin (by simpa [readingPayload] using hlen) hall]
  simp [readingPayload, hbin]

/-- The parser after a header and the three bytes of a binary payload (43_framer_parser.md R205). -/
theorem taking_binaryPayload {cfg : Config} {dev opc : Byte} {payload : List Byte}
    (hbin : binaryPayload cfg dev opc = true) (hlen : payload.length = 3) :
    (readingPayload cfg dev opc).taking cfg payload =
      some ⟨.expectTerminator, some dev, some opc, payload, true, 5⟩ := by
  obtain ⟨b0, b1, b2, rfl⟩ := List.length_eq_three.mp hlen
  simp [Parser.taking, step1, stepBinary, readingPayload, hbin]

/-- PARSE answers the error of the byte behind a listed header and what is taken of the payload. -/
theorem answers_parse_stageError {s : State} {dev opc b : Byte} {payload : List Byte} {p : Parser} {r : FramingReason}
    {off : Nat} (rest : List Byte) (hlisted : listedOpcode s.cfg (some dev) opc = true)
    (h : (readingPayload s.cfg dev opc).taking s.cfg payload = some p) (hb : step1 s.cfg p b = stageError r off b) :
    Answers (.parse ([dev, opc] ++ payload ++ b :: rest)) s (.err (.framingError r off)) :=
  answers_of_parseReply_raise rfl
    (parseReply_error rest (taking_header_append hlisted h) (congrArg Prod.snd hb))

/-- Settles O45: the error of the byte behind the payload, in the parser state that the payload leads to. -/
theorem parseStageErrorsAreNamed : Obligations.ParseStageErrorsAreNamed := by
  intro s dev opc b payload rest _ hheader hb
  have hlisted : listedOpcode s.cfg (some dev) opc = true :=
    listedOpcode_iff.mpr (hheader.imp (And.imp_right (by simp)) (And.imp_right (by simp)))
  refine ⟨fun htext hall => ⟨fun hlen hprint => ?badPayloadByte, fun hlen => ?overlong⟩,
    fun hform hdev hopc hlen => ?badTerminator⟩
  case badPayloadByte =>
    have hbin := Bool.eq_false_iff.mpr (mt binaryPayload_iff.mp htext)
    exact answers_parse_stageError rest hlisted (taking_textPayload hbin hlen.le hall)
      (step1_badPayloadByte rfl rfl hb hlen.ne hprint)
  case overlong =>
    have hbin := Bool.eq_false_iff.mpr (mt binaryPayload_iff.mp htext)
    have herr := answers_parse_stageError rest hlisted (taking_textPayload hbin hlen.le hall)
      (step1_overlong rfl rfl hb hlen)
    rwa [hlen] at herr
  case badTerminator =>
    exact answers_parse_stageError rest hlisted (taking_binaryPayload (binaryPayload_iff.mpr ⟨hform, hdev, hopc⟩) hlen)
      (step1_badTerminator rfl hb)

/-! ### What PARSE accepts -/

/-- Stage 1, in the state `p`, takes `pre`; then a terminator ends a frame, which stage 2 reads as `c`. -/
structure ReadsFrame (cfg : Config) (p : Parser) (pre : List Byte) (c : ParsedCommand) (q : Parser) : Prop where
  taking : p.taking cfg pre = some q
  frame : step1 cfg q terminator = stageFrame q
  interpreted : interpret cfg (q.pdev.getD 0) (q.popc.getD 0) q.pbuf q.poff = .ok c

/-- The loop of PARSE comes to a command by one frame that ends with the last byte. -/
theorem parseFrom_eq_ok {cfg : Config} {p : Parser} {i : Nat} {f : List Byte} {c : ParsedCommand}
    (h : parseFrom cfg p i f = .ok c) : ∃ pre q, f = pre ++ [terminator] ∧ ReadsFrame cfg p pre c q := by
  induction f generalizing p i with
  | nil => cases h
  | cons b rest ih =>
    rcases step1_cases cfg p b with hnone | ⟨rfl, hframe, -⟩ | ⟨r, herr⟩
    · rw [parseFrom_cons_none hnone] at h
      obtain ⟨pre, q, rfl, htaking, hframe, hinterpreted⟩ := ih h
      exact ⟨b :: pre, q, rfl, Parser.taking_cons_eq_some.mpr ⟨hnone, htaking⟩, hframe, hinterpreted⟩
    · rw [parseFrom_cons_frame (congrArg Prod.snd hframe)] at h
      split at h
      · cases h
      · next hnil =>
        obtain rfl := not_not.mp hnil
        exact ⟨[], p, rfl, rfl, hframe, h⟩
    · rw [parseFrom_cons_error (congrArg Prod.snd herr)] at h
      cases h

theorem parseReply_eq_ok {cfg : Config} {f : List Byte} {c : ParsedCommand} (h : parseReply cfg f = .ok c) :
    ∃ pre q, f = pre ++ [terminator] ∧ ReadsFrame cfg .reset pre c q := parseFrom_eq_ok h

/-- PARSE answers a command where its reply is that command. -/
theorem parseReply_of_answers {s : State} {f : List Byte} {c : ParsedCommand}
    (h : Answers (.parse f) s (.ok (.command c))) : parseReply s.cfg f = .ok c := by
  rw [Answers, exec_parse] at h
  rcases finish_eq_next.mp h with ⟨v, hv, hs⟩ | ⟨e, -, hs⟩
  · obtain ⟨c', hc', rfl⟩ := Reply.map_eq_ok.mp hv
    cases congrArg State.result hs
    exact hc'
  · cases congrArg State.result hs

/-- Settles O46: the accepted frame is bytes without an event and a terminator that ends it. -/
theorem parseTrailingAndUnterminated : Obligations.ParseTrailingAndUnterminated := by
  intro s f x c h
  obtain ⟨pre, q, rfl, htaking, hframe, -⟩ := parseReply_eq_ok (parseReply_of_answers h)
  refine ⟨fun hne => ?trailing, fun k hk => ?unterminated⟩
  case trailing =>
    rw [List.append_assoc, List.singleton_append, List.length_append, List.length_singleton]
    exact answers_of_parseReply_raise rfl
      ((parseReply_frame x htaking (congrArg Prod.snd hframe)).trans (if_pos hne))
  case unterminated =>
    have hle : k ≤ pre.length := by
      rw [List.length_append, List.length_singleton] at hk
      omega
    obtain ⟨r, hr⟩ := Parser.taking_take htaking k
    have hreply := parseReply_unterminated hr
    rw [List.length_take_of_le hle] at hreply
    rw [List.take_append_of_le_length hle]
    exact answers_of_parseReply_raise rfl hreply

end Sys2Proof.Machine
end

section
/-!
SUPPORT. What PARSE gives back: the fields of its command spell the bytes that stage 1 received (43_framer_parser.md
R221 (b)), and frames fed to RX one after another give their commands (R221 (c)).
-/

namespace Sys2Proof.Machine

open Sys2Proof

/-! ### The bytes that the parser holds -/

/-- The bytes of the frame that the parser has received and holds in its fields. -/
def Parser.received (p : Parser) : List Byte := p.pdev.toList ++ p.popc.toList ++ p.pbuf

/-- The parser is in a frame or in front of one, in a state that stage 1 can be in. -/
structure Parser.Receiving (cfg : Config) (p : Parser) : Prop where
  wf : p.wf cfg = true
  notDiscard : p.pstate ≠ .discard

theorem Parser.receiving_reset (cfg : Config) : Parser.reset.Receiving cfg := ⟨Parser.wf_reset cfg, nofun⟩

/-- A byte without an event is received: stage 1 stays out of Discard and holds the byte behind those before it. -/
def Parser.TakesByte (p : Parser) (b : Byte) (r : Parser × Event) : Prop :=
  r.2 = .none → r.1.pstate ≠ .discard ∧ r.1.received = p.received ++ [b]

theorem stageError_takesByte (p : Parser) (r : FramingReason) (off : Nat) (b : Byte) :
    p.TakesByte b (stageError r off b) := nofun

theorem stageFrame_takesByte (p : Parser) (b : Byte) : p.TakesByte b (stageFrame p) := nofun

theorem stepDevice_takesByte (cfg : Config) (b : Byte) : Parser.reset.TakesByte b (stepDevice cfg .reset b) := by
  unfold stepDevice
  split
  · exact fun _ => ⟨nofun, rfl⟩
  · exact stageError_takesByte _ _ _ b

theorem stepOpcode_takesByte (cfg : Config) (d b : Byte) :
    (⟨.expectOpcode, some d, none, [], false, 1⟩ : Parser).TakesByte b
      (stepOpcode cfg ⟨.expectOpcode, some d, none, [], false, 1⟩ b) := by
  unfold stepOpcode
  split
  · exact fun _ => ⟨nofun, rfl⟩
  · exact stageError_takesByte _ _ _ b

theorem stepText_takesByte {p : Parser} (b : Byte) (hs : p.pstate = .readPayload) : p.TakesByte b (stepText p b) := by
  unfold stepText
  split
  · exact stageFrame_takesByte p b
  · split
    · exact stageError_takesByte p _ _ b
    · split
      · exact stageError_takesByte p _ _ b
      · exact fun _ => ⟨by simp [hs], by simp [Parser.received]⟩

theorem stepBinary_takesByte {p : Parser} (b : Byte) (hs : p.pstate = .readPayload) :
    p.TakesByte b (stepBinary p b) := by
  refine fun _ => ⟨?_, by simp [stepBinary, Parser.received]⟩
  unfold stepBinary
  dsimp only
  split
  · nofun
  · simp [hs]

theorem stepTerminator_takesByte (p : Parser) (b : Byte) : p.TakesByte b (stepTerminator p b) := by
  unfold stepTerminator
  split
  · exact stageFrame_takesByte p b
  · exact stageError_takesByte p _ _ b

/-- In each state the byte is received or has an event. -/
theorem step1_takesByte {cfg : Config} {p : Parser} (b : Byte) (hp : p.Receiving cfg) :
    p.TakesByte b (step1 cfg p b) := by
  cases hs : p.pstate with
  | expectDevice =>
    obtain rfl := (Parser.wf_expectDevice hs).mp hp.wf
    exact stepDevice_takesByte cfg b
  | expectOpcode =>
    obtain ⟨d, -, rfl⟩ := (Parser.wf_expectOpcode hs).mp hp.wf
    exact stepOpcode_takesByte cfg d b
  | readPayload =>
    cases hbin : p.pbin with
    | false => rw [step1_of_readPayload_text hs hbin]; exact stepText_takesByte b hs
    | true => rw [step1_of_readPayload_binary hs hbin]; exact stepBinary_takesByte b hs
  | expectTerminator =>
    simp only [step1, hs]
    exact stepTerminator_takesByte p b
  | discard => exact absurd hs hp.notDiscard

/-- Bytes that stage 1 takes are received in order. -/
theorem taking_received {cfg : Config} {p q : Parser} {pre : List Byte} (hp : p.Receiving cfg)
    (h : p.taking cfg pre = some q) : q.Receiving cfg ∧ q.received = p.received ++ pre := by
  induction pre generalizing p with
  | nil =>
    cases h
    exact ⟨hp, (List.append_nil _).symm⟩
  | cons b pre ih =>
    obtain ⟨hnone, h⟩ := Parser.taking_cons_eq_some.mp h
    obtain ⟨hdiscard, hreceived⟩ := step1_takesByte b hp hnone
    obtain ⟨hq, hall⟩ := ih ⟨step1_wf b hp.wf, hdiscard⟩ h
    exact ⟨hq, by rw [hall, hreceived, List.append_assoc, List.singleton_append]⟩

/-! ### The fields of a parsed command -/

/-- The command of stage 2 has the fields that stage 1 gave it. -/
theorem interpret_eq_ok {cfg : Config} {d o : Byte} {payload : List Byte} {off : Nat} {c : ParsedCommand}
    (h : interpret cfg d o payload off = .ok c) :
    c.deviceIndicator = d ∧ c.opcode = o ∧ c.payload = payload ∧ c.terminator = terminator := by
  obtain ⟨x, -, rfl⟩ := Reply.map_eq_ok.mp h
  exact ⟨rfl, rfl, rfl, rfl⟩

/-- The parser that ends a frame holds a listed header. -/
theorem header_of_stageFrame {cfg : Config} {p : Parser} {b : Byte} (hp : p.wf cfg = true)
    (h : step1 cfg p b = stageFrame p) : p.header cfg = true := by
  rcases step1_cases cfg p b with hnone | ⟨-, -, ⟨hs, -⟩ | hs⟩ | ⟨r, herr⟩
  · cases (congrArg Prod.snd h).symm.trans hnone
  · obtain ⟨hhdr, -⟩ := (Parser.wf_readPayload hs).mp hp
    exact hhdr
  · obtain ⟨hhdr, -⟩ := (Parser.wf_expectTerminator hs).mp hp
    exact hhdr
  · cases congrArg Prod.snd (h.symm.trans herr)

/-- The fields of a command that PARSE accepts spell its bytes. -/
theorem parseReply_spells {cfg : Config} {f : List Byte} {c : ParsedCommand} (h : parseReply cfg f = .ok c) :
    frameBytes c.deviceIndicator c.opcode c.payload = f ∧ c.terminator = terminator := by
  obtain ⟨pre, q, rfl, htaking, hframe, hinterpreted⟩ := parseReply_eq_ok h
  obtain ⟨hq, hreceived⟩ := taking_received (Parser.receiving_reset cfg) htaking
  obtain ⟨d, o, hd, ho, -, -⟩ := Parser.header_iff.mp (header_of_stageFrame hq.wf hframe)
  obtain ⟨hdev, hopc, hpayload, hterm⟩ := interpret_eq_ok hinterpreted
  simp only [hd, ho, Option.getD_some] at hdev hopc
  obtain rfl : d :: o :: q.pbuf = pre := by simpa [Parser.received, hd, ho, Parser.reset] using hreceived
  rw [hdev, hopc, hpayload]
  exact ⟨rfl, hterm⟩

/-- Settles O47: FRAME frames a legal triple and PARSE reads its frame; a command that PARSE accepts spells its
bytes. -/
theorem parseRecoversFramedFields : Obligations.ParseRecoversFramedFields := by
  intro s dev opc payload
  refine ⟨fun d hlegal h => ⟨answers_frame_bytes (h.frameReply_eq hlegal), LegalFrame.answers hlegal rfl h⟩,
    fun c h => ?_⟩
  obtain ⟨hspells, hterm⟩ := parseReply_spells (parseReply_of_answers h)
  have hfields : c.deviceIndicator = dev ∧ c.opcode = opc ∧ c.payload = payload := by
    simpa [frameBytes] using hspells
  obtain ⟨hdev, hopc, hpayload⟩ := hfields
  exact ⟨hdev, hopc, hpayload, hterm⟩

/-! ### Bytes fed to RX -/

/-- Feeding is one RX request, then the rest. -/
theorem State.feed_cons_eq_some {s u : State} {b : Byte} {bs : List Byte} {rs : List Result} :
    s.feed (b :: bs) = some (u, rs) ↔
      ∃ t r rs', exec (.rx b) s = .next t ∧ t.result = some r ∧ t.feed bs = some (u, rs') ∧ rs = r :: rs' := by
  constructor
  · intro h
    rw [State.feed] at h
    split at h
    · next t hexec =>
      split at h
      · next u' rs' r hfeed hres =>
        cases h
        exact ⟨t, r, rs', hexec, hres, hfeed, rfl⟩
      · cases h
    · cases h
    · cases h
  · rintro ⟨t, r, rs', hexec, hres, hfeed, rfl⟩
    simp only [State.feed, hexec, hres, hfeed]

/-- Feeding gives one result per byte. -/
theorem State.feed_length {s u : State} {bytes : List Byte} {rs : List Result} (h : s.feed bytes = some (u, rs)) :
    rs.length = bytes.length := by
  induction bytes generalizing s rs with
  | nil =>
    cases h
    rfl
  | cons b bs ih =>
    obtain ⟨t, r, rs', -, -, hfeed, rfl⟩ := State.feed_cons_eq_some.mp h
    rw [List.length_cons, List.length_cons, ih hfeed]

/-- Bytes are fed in two parts. -/
theorem State.feed_append {s t u : State} {xs ys : List Byte} {rs rs' : List Result} (h : s.feed xs = some (t, rs))
    (h' : t.feed ys = some (u, rs')) : s.feed (xs ++ ys) = some (u, rs ++ rs') := by
  induction xs generalizing s rs with
  | nil =>
    cases h
    exact h'
  | cons b xs ih =>
    obtain ⟨v, r, rs₁, hexec, hres, hfeed, rfl⟩ := State.feed_cons_eq_some.mp h
    exact State.feed_cons_eq_some.mpr ⟨v, r, rs₁ ++ rs', hexec, hres, ih hfeed, rfl⟩

/-- Feeding `bytes` gives the results `rs` and leads to `t`, with the transmit stream and the configuration left. -/
structure Feeds (s : State) (bytes : List Byte) (rs : List Result) (t : State) : Prop where
  feed : s.feed bytes = some (t, rs)
  cfg : t.cfg = s.cfg
  tx : t.tx = s.tx

theorem Feeds.nil (s : State) : Feeds s [] [] s := ⟨rfl, rfl, rfl⟩

theorem Feeds.append {s t u : State} {xs ys : List Byte} {rs rs' : List Result} (h : Feeds s xs rs t)
    (h' : Feeds t ys rs' u) : Feeds s (xs ++ ys) (rs ++ rs') u :=
  ⟨State.feed_append h.feed h'.feed, h'.cfg.trans h.cfg, h'.tx.trans h.tx⟩

/-- One byte and the answer of its RX request. -/
theorem Feeds.singleton {s : State} {b : Byte} {p : Parser} {r : Result}
    (h : exec (.rx b) s = .next ((s.setParser p).answer r)) : Feeds s [b] [r] ((s.setParser p).answer r) :=
  ⟨State.feed_cons_eq_some.mpr ⟨_, r, [], h, rfl, rfl, rfl⟩, rfl, rfl⟩

/-- Bytes that stage 1 takes without an event are pending, each of them. -/
theorem feeds_of_taking {s : State} {pre : List Byte} {p : Parser} (h : s.parser.taking s.cfg pre = some p) :
    ∃ t, Feeds s pre (List.replicate pre.length (.ok .pending)) t ∧ t.parser = p := by
  induction pre generalizing s with
  | nil =>
    cases h
    exact ⟨s, .nil s, rfl⟩
  | cons b pre ih =>
    obtain ⟨hnone, h⟩ := Parser.taking_cons_eq_some.mp h
    obtain ⟨t, ht, hp⟩ := ih (s := (s.setParser (step1 s.cfg s.parser b).1).answer (.ok .pending)) h
    exact ⟨t, (Feeds.singleton (exec_rx_of_none (Prod.ext rfl hnone))).append ht, hp⟩

/-- The results of a frame of `k + 1` bytes fed to RX: the command comes with the last of them. -/
def frameResults (k : Nat) (c : ParsedCommand) : List Result :=
  List.replicate k (.ok .pending) ++ [.ok (.command c)]

/-- Of the results of one frame only the command is not pending. -/
theorem filter_frameResults (k : Nat) (c : ParsedCommand) :
    (frameResults k c).filter (· != .ok .pending) = [.ok (.command c)] := by
  rw [frameResults, List.filter_append, List.filter_replicate_of_neg (by simp)]
  rfl

/-- A frame that PARSE accepts is pending up to its last byte, which gives the parsed command and resets the parser. -/
theorem feeds_of_parseReply {s : State} {f : List Byte} {c : ParsedCommand} (hs : s.parser = .reset)
    (h : parseReply s.cfg f = .ok c) :
    ∃ k t, Feeds s f (frameResults k c) t ∧ t.parser = .reset := by
  obtain ⟨pre, q, rfl, htaking, hframe, hinterpreted⟩ := parseReply_eq_ok h
  obtain ⟨u, hu, rfl⟩ := feeds_of_taking (s := s) (hs ▸ htaking)
  have hexec : exec (.rx terminator) u = .next ((u.setParser .reset).answer (.ok (.command c))) := by
    rw [← hu.cfg] at hframe hinterpreted
    rw [exec_rx_of_frame hframe, hinterpreted]
    rfl
  exact ⟨pre.length, _, hu.append (.singleton hexec), rfl⟩

/-- Frames that PARSE accepts, fed one after another, give their commands in order. -/
theorem feeds_frames {s : State} {frames : List (List Byte)} {cmds : List ParsedCommand} (hs : s.parser = .reset)
    (h : frames.map (parseReply s.cfg) = cmds.map .ok) :
    ∃ t rs, Feeds s frames.flatten rs t ∧ t.parser = .reset ∧
      rs.filter (· != .ok .pending) = cmds.map (fun c => .ok (.command c)) := by
  induction frames generalizing s cmds with
  | nil =>
    obtain rfl := List.map_eq_nil_iff.mp h.symm
    exact ⟨s, [], .nil s, hs, rfl⟩
  | cons f frames ih =>
    obtain ⟨c, cmds, rfl, hc, hcmds⟩ := List.map_eq_cons_iff.mp h.symm
    obtain ⟨k, u, hu, hreset⟩ := feeds_of_parseReply hs hc.symm
    obtain ⟨t, rs, ht, hreset', hfilter⟩ := ih hreset (hu.cfg ▸ hcmds.symm)
    refine ⟨t, _, hu.append ht, hreset', ?_⟩
    rw [List.filter_append, filter_frameResults, hfilter]
    rfl

/-- Settles O49, frame by frame. -/
theorem streamingGivesOneCommandPerFrame : Obligations.StreamingGivesOneCommandPerFrame := by
  intro s frames cmds hs h
  obtain ⟨t, rs, ht, hreset, hfilter⟩ := feeds_frames hs h
  exact ⟨t, rs, ht.feed, State.feed_length ht.feed, hfilter, hreset, ht.tx⟩

end Sys2Proof.Machine
end

section
/-!
SUPPORT. Errors (60_exceptions.md R240 to R247): what an instruction that ends in an error leaves behind, what the next
instruction sees of it, which errors a builder raises, and their codes.
-/

namespace Sys2Proof.Machine

open Sys2Proof

/-! ### What an error changes -/

/-- An error of any request but RX is written to the result port alone (60_exceptions.md R246). -/
theorem exec_err_eq_answer {s t : State} {i : Instr} {e : Err} (hrx : ¬ isRx i) (h : exec i s = .next t)
    (hres : t.result = some (.err e)) : t = s.answer (.err e) := by
  rcases exec_next_shape h with ⟨r, rfl⟩ | ⟨-, f, rfl⟩ | ⟨b, r, rfl, -⟩
  · rw [State.answer_result] at hres
    rw [Option.some.inj hres]
  · cases hres
  · exact absurd ⟨b, rfl⟩ hrx

/-- A request that ends in an error has raised it. -/
theorem finish_result_err {r : Reply Value} {s t : State} {e : Err} (h : finish r s = .next t)
    (hres : t.result = some (.err e)) : r = .raise e ∧ t = s.answer (.err e) := by
  rcases finish_eq_next.mp h with ⟨v, -, rfl⟩ | ⟨e', rfl, rfl⟩
  · cases hres
  · cases hres
    exact ⟨rfl, rfl⟩

/-- An error of RX without a stage-1 error comes from stage 2, with the parser reset (43_framer_parser.md R209). -/
theorem step1_reset_of_rxReply_raise {cfg : Config} {p : Parser} {b : Byte} {e : Err}
    (h : rxReply cfg (step1 cfg p b).2 = .raise e) (hstage : ∀ r off, (step1 cfg p b).2 ≠ .error r off) :
    (step1 cfg p b).1 = .reset := by
  rcases step1_cases cfg p b with hnone | ⟨-, hframe, -⟩ | ⟨r, herr⟩
  · rw [hnone] at h
    cases h
  · rw [hframe]
  · exact absurd (congrArg Prod.snd herr) (hstage r _)

/-- Settles O16, from the shapes of a next state, and for RX from the events of stage 1. -/
theorem errorsArePrecise : Obligations.ErrorsArePrecise := by
  intro s t i e h hres
  refine ⟨fun hrx => exec_err_eq_answer hrx h hres, ?_⟩
  rintro b rfl
  obtain ⟨hraise, rfl⟩ := finish_result_err ((exec_rx b s).symm.trans h) hres
  exact ⟨rfl, step1_reset_of_rxReply_raise hraise, fun r off => step1_error_parser⟩

/-! ### The next request -/

/-- No ending reads the result port, and each overwrites it (log 3). -/
theorem Ending.run_answer (e : Ending) (r : Result) (s : State) : e.run (s.answer r) = e.run s := by
  have finished : ∀ (x : Reply Value) (u : State), finish x (u.answer r) = finish x u := by
    intro x u
    cases x <;> rfl
  cases e with
  | returns x => exact finished x s
  | emits x => cases x <;> rfl
  | receives b => exact finished _ (s.setParser (step1 s.cfg s.parser b).1)

/-- An earlier answer leaves no trace in what an instruction does. -/
theorem exec_answer (i : Instr) (r : Result) (s : State) : exec i (s.answer r) = exec i s := by
  rw [exec_eq_ending, exec_eq_ending, State.answer_cfg, Ending.run_answer]
  rfl

/-- Settles O17: the error is an answer (O16), which no request reads. -/
theorem errorLeavesNextRequestAlone : Obligations.ErrorLeavesNextRequestAlone := by
  intro s t i j e hrx h hres
  rw [exec_err_eq_answer hrx h hres, exec_answer]

/-! ### The errors of builders: every check names an error of another kind, and the words of `codec` add none -/

/-- The reply raises no `FramingError`. -/
def Reply.NoFramingError {α : Type} (r : Reply α) : Prop := ∀ q off, r ≠ .raise (.framingError q off)

/-- A word adds no error: outside its precondition `codec` is a fault. -/
theorem withWord_noFramingError {α : Type} {w : Option Nat} {k : Nat → Reply α} (hk : ∀ x, (k x).NoFramingError) :
    (withWord w k).NoFramingError := by
  intro q off h
  obtain ⟨x, -, hx⟩ := withWord_eq_raise.mp h
  exact hk x q off hx

theorem dacInitReply_noFramingError (cfg : Config) (gain polarity : BitVec 2) :
    (dacInitReply cfg gain polarity).NoFramingError := by
  unfold dacInitReply
  split
  · exact nofun
  · split
    · exact nofun
    · exact nofun

theorem dacWordReply_noFramingError (cfg : Config) (a : DeviceAddress) (v fs : Rat) (bip : Bool) :
    (dacWordReply cfg a v fs bip).NoFramingError := by
  unfold dacWordReply
  split
  · exact nofun
  · exact withWord_noFramingError fun _ => nofun

theorem dacWriteReply_noFramingError (cfg : Config) (address : BitVec 2) (voltage ref : Quantity)
    (gain polarity : BitVec 2) : (dacWriteReply cfg address voltage ref gain polarity).NoFramingError := by
  unfold dacWriteReply
  split
  · exact nofun
  · split
    · exact nofun
    · split
      · exact nofun
      · split
        · split
          · exact nofun
          · split
            · exact dacWordReply_noFramingError _ _ _ _ _
            · exact nofun
        · exact nofun

theorem ddsToneReply_noFramingError (cfg : Config) (amp ampRef phase freq sysclk : Quantity) :
    (ddsToneReply cfg amp ampRef phase freq sysclk).NoFramingError := by
  unfold ddsToneReply
  split
  · iterate 4
      split
      · exact nofun
    exact withWord_noFramingError fun _ => withWord_noFramingError fun _ => withWord_noFramingError fun _ => nofun
  · exact nofun

theorem rampFrames_noFramingError (cfg : Config) (p : RampParameter) (n : Nat) (fs a b d c : Rat) (rn rp : Nat) :
    (rampFrames cfg p n fs a b d c rn rp).NoFramingError :=
  withWord_noFramingError fun _ => withWord_noFramingError fun _ =>
    withWord_noFramingError fun _ => withWord_noFramingError fun _ => nofun

theorem ddsRampReply_noFramingError (cfg : Config) (param : BitVec 2)
    (start stop dec inc negRate posRate ref : Quantity) :
    (ddsRampReply cfg param start stop dec inc negRate posRate ref).NoFramingError := by
  unfold ddsRampReply
  split
  · exact nofun
  · split
    · split
      · exact nofun
      · dsimp only
        iterate 2
          split
          · exact nofun
        split
        · exact rampFrames_noFramingError cfg _ _ _ _ _ _ _ _ _
        · exact nofun
    · exact nofun

/-- The reply of every builder raises no `FramingError`. -/
theorem ending_emits_noFramingError {cfg : Config} {i : Instr} {r : Reply (List Byte)}
    (hend : ending cfg i = .emits r) : r.NoFramingError := by
  cases i with
  | dacInit gain polarity => exact Ending.emits.inj hend ▸ dacInitReply_noFramingError cfg gain polarity
  | dacWrite address voltage ref gain polarity =>
    exact Ending.emits.inj hend ▸ dacWriteReply_noFramingError cfg address voltage ref gain polarity
  | ddsTone amp ampRef phase freq sysclk =>
    exact Ending.emits.inj hend ▸ ddsToneReply_noFramingError cfg amp ampRef phase freq sysclk
  | ddsRamp param start stop dec inc negRate posRate ref =>
    exact Ending.emits.inj hend ▸ ddsRampReply_noFramingError cfg param start stop dec inc negRate posRate ref
  | ddsLoad | ddsReset | ddsRampoff =>
    cases hend
    exact nofun
  | codecEncode | codecDecode | frame | parse | rx | frameDacInit | frameDacWriteText | frameDacWriteBinary
  | frameDdsTone | frameDdsRampSetup | frameDdsRampParams | frameDdsRampDisable | frameDdsLoad | frameDdsReset =>
    cases hend

/-- Settles O18: a builder ends in its frame or in an error that its reply raises. -/
theorem buildersNeverRaiseFramingError : Obligations.BuildersNeverRaiseFramingError := by
  intro s t i hbuilder h q off hres
  obtain ⟨r, hend⟩ := ending_of_isBuilder s.cfg hbuilder
  obtain ⟨-, hrun⟩ := exec_eq_next_iff.mp h
  rw [hend] at hrun
  rcases finishEmit_eq_next.mp hrun with ⟨f, -, rfl⟩ | ⟨e, rfl, rfl⟩
  · cases hres
  · cases hres
    exact ending_emits_noFramingError hend q off rfl

/-! ### The codes of errors -/

/-- Only a `FramingError` records an offset (60_exceptions.md R243). -/
theorem Err.offset?_isSome_iff {e : Err} : e.offset?.isSome = true ↔ ∃ r off, e = .framingError r off := by
  cases e <;> simp [Err.offset?]

/-- Settles O60: the codes are the rows of the tables, read off. -/
theorem errorCodes : Obligations.ErrorCodes :=
  ⟨fun _ => rfl, fun _ => rfl, fun _ => rfl, fun _ _ => rfl, rfl, fun _ => rfl, rfl, rfl, rfl, rfl, rfl,
    fun _ => Err.offset?_isSome_iff⟩

end Sys2Proof.Machine
end

section
/-!
SUPPORT. Reset and hazards (70_reset_and_hazards.md): the reset input, the terminator as the text form's way back to the
start of a frame, and a ramp whose words break the ramp bound.
-/

namespace Sys2Proof.Machine

open Sys2Proof

/-! ### The reset input -/

theorem step_reset {s : State} {rest : List Input} (hin : s.inputs = .reset :: rest) :
    step s = .next (s.takeInput rest).blockReset := by
  simp only [step, hin]

/-- Settles O7: the state after the reset input is `blockReset`, whose parser expects a device. -/
theorem resetInputResetsBlock : Obligations.ResetInputResetsBlock := fun s rest hin =>
  ⟨(s.takeInput rest).blockReset, step_reset hin, rfl, rfl, rfl, rfl, fun _ => step1_of_expectDevice rfl⟩

/-! ### A terminator in the text form -/

theorem stageError_terminator (r : FramingReason) (off : Nat) : (stageError r off terminator).1 = .reset := by
  rw [stageError, if_pos rfl]

/-- No device indicator is the terminator (log 15). -/
theorem stepDevice_terminator {cfg : Config} (hlegal : cfg.legal = true) (p : Parser) :
    (stepDevice cfg p terminator).1 = .reset := by
  obtain ⟨-, hdds, -⟩ := Config.legal_headers hlegal
  have hnone : ¬ (terminator = dacInd ∨ terminator = cfg.ddsInd) := not_or.mpr ⟨by decide, hdds.symm⟩
  rw [stepDevice, if_neg hnone, stageError_terminator]

/-- No opcode is the terminator (00_scope.md R15). -/
theorem stepOpcode_terminator {cfg : Config} (hlegal : cfg.legal = true) {p : Parser} {d : Byte}
    (hd : p.pdev = some d) : (stepOpcode cfg p terminator).1 = .reset := by
  have hunlisted : ¬ listedOpcode cfg (some d) terminator = true := fun hlisted =>
    (listed_ne_terminator hlegal hlisted).2 rfl
  rw [stepOpcode, hd, if_neg hunlisted, stageError_terminator]

/-- In the text form every payload is text (00_scope.md R12). -/
theorem Parser.pbin_of_text {cfg : Config} (hform : cfg.wireForm = .text) {p : Parser} (hhdr : p.header cfg = true) :
    p.pbin = false := by
  obtain ⟨d, o, -, -, -, hbin⟩ := Parser.header_iff.mp hhdr
  have htext : ¬ binaryPayload cfg d o = true := by simp [binaryPayload_iff, hform]
  rw [hbin, Bool.eq_false_iff.mpr htext]

/-- In the text form the terminator ends or abandons whatever stage 1 was receiving: no state takes it as data. -/
theorem step1_terminator_reset {cfg : Config} (hlegal : cfg.legal = true) (hform : cfg.wireForm = .text) {p : Parser}
    (hp : p.wf cfg = true) : (step1 cfg p terminator).1 = .reset := by
  cases hs : p.pstate with
  | expectDevice => rw [step1_of_expectDevice hs, stepDevice_terminator hlegal]
  | expectOpcode =>
    obtain ⟨d, -, hopcode⟩ := (Parser.wf_expectOpcode hs).mp hp
    rw [step1_of_expectOpcode hs, stepOpcode_terminator hlegal (congrArg Parser.pdev hopcode)]
  | readPayload =>
    obtain ⟨hhdr, -⟩ := (Parser.wf_readPayload hs).mp hp
    rw [step1_terminator (.inl ⟨hs, Parser.pbin_of_text hform hhdr⟩)]
    rfl
  | expectTerminator =>
    rw [step1_terminator (.inr hs)]
    rfl
  | discard =>
    rw [step1_of_discard hs, stepDiscard_terminator rfl, (Parser.wf_discard hs).mp hp]
    rfl

/-- A request that returns, and whose reply is no fault, writes only the result port. -/
theorem finish_eq_answer {r : Reply Value} (h : r.Completes) (s : State) : ∃ x, finish r s = .next (s.answer x) := by
  cases r with
  | ok v => exact ⟨_, rfl⟩
  | raise e => exact ⟨_, rfl⟩
  | fault f => exact absurd rfl (h f)

/-- Settles O42: RX answers in every state, and there the terminator resets stage 1. -/
theorem textFormResynchronises : Obligations.TextFormResynchronises := by
  intro s hlegal hform hp
  change ∃ r, exec (.rx terminator) s = .next ((s.setParser .reset).answer r)
  rw [exec_rx, step1_terminator_reset hlegal hform hp]
  exact finish_eq_answer (rxReply_completes terminator hlegal hp) _

/-! ### A ramp at the top of its scale -/

/-- Under EXACT `k` steps of the unipolar quantizer have the word `k` (00_scope.md R18, 40_codec.md R113). -/
theorem codec_unipolar_steps {fs : Rat} {n k : Nat} (hwidths : legalWidths n n = true) (hfs : 0 < fs)
    (hk : k < 2 ^ n) : codec .exact (k / 2 ^ n * fs) fs n n false = some k := by
  have hone : (k : Rat) / 2 ^ n ≤ 1 := (div_le_one (by positivity)).mpr (by exact_mod_cast hk.le)
  have hlo : lowerEnd fs false ≤ k / 2 ^ n * fs := by
    rw [lowerEnd, if_neg Bool.false_ne_true]
    positivity
  have hfraction : fraction .exact (k / 2 ^ n * fs) fs false = some ((k : Rat) / 2 ^ n) := by
    rw [fraction_unipolar, rnd_exact, mul_div_cancel_right₀ _ hfs.ne']
  rw [codec_eq_quantize hwidths hfs hlo (mul_le_of_le_one_left hfs.le hone) hfraction, quantize_steps hk, Nat.sub_self,
    pow_zero, Nat.mul_one]

/-- The words of the ramp of 70_reset_and_hazards.md R280: those below full scale are exact, and full scale saturates
(40_codec.md R115). -/
theorem saturatedRamp_words :
    codec .exact (1 / 4) 1 14 14 false = some 4096 ∧ codec .exact 1 1 14 14 false = some 16383 ∧
      codec .exact (1 / 2) 1 14 14 false = some 8192 ∧ codec .exact (3 / 4) 1 14 14 false = some 12288 := by
  have hwidths : legalWidths 14 14 = true := by decide
  have steps : ∀ {k : Nat} {x : Rat}, k < 2 ^ 14 → (k : Rat) / 2 ^ 14 * 1 = x →
      codec .exact x 1 14 14 false = some k :=
    fun hk hx => hx ▸ codec_unipolar_steps hwidths one_pos hk
  have hfull := codec_eq_quantize hwidths one_pos (lowerEnd_le one_pos false) le_rfl
    (fraction_fullScale (rnd_exact 1) one_pos false)
  rw [quantize_one] at hfull
  exact ⟨steps (by norm_num) (by norm_num), hfull, steps (by norm_num) (by norm_num),
    steps (by norm_num) (by norm_num)⟩

/-- Settles O38: the ramp passes every check of DDS.RAMP (O36), and its words are those of `saturatedRamp_words`. -/
theorem saturatedRampBreaksWordBound : Obligations.SaturatedRampBreaksWordBound := by
  intro s hcfg
  have hnum : s.cfg.numerics = .exact := by rw [hcfg]; rfl
  obtain ⟨-, -, rule⟩ := ddsRampFollowsRule s 2 (.real (1 / 4)) (.real 1) (.real (1 / 2)) (.real (3 / 4)) (.real 1)
    (.real 1) (.real 1) (by rw [hnum]; rfl)
  obtain ⟨-, bounds⟩ := rule .amplitude (1 / 4) 1 (1 / 2) (3 / 4) 1 1 1 (by decide) (by rw [hnum]; rfl)
  obtain ⟨-, -, -, scaled⟩ := bounds (1 - 1 / 4) (by rw [hnum]; rfl) (by norm_num)
  obtain ⟨-, values⟩ := scaled 14 1 (by norm_num) (by norm_num) (.inr (.inr ⟨rfl, rfl, rfl, one_pos⟩))
  obtain ⟨-, rates⟩ := values (by norm_num)
  obtain ⟨ws, we, wd, wi, hws, hwe, hwd, hwi, hemits⟩ := rates 1 1 Nat.cast_one.symm Nat.cast_one.symm
    (by norm_num) (by norm_num)
  obtain ⟨hstart, hstop, hdec, hinc⟩ := saturatedRamp_words
  rw [hnum] at hws hwe hwd hwi
  cases hstart.symm.trans hws
  cases hstop.symm.trans hwe
  cases hdec.symm.trans hwd
  cases hinc.symm.trans hwi
  rw [hcfg] at hemits
  exact ⟨hemits, by norm_num⟩

end Sys2Proof.Machine
end
